-- ==== Sys2Proof/Word.lean ====
section
/-! DEFINITION. The words of the machine: the widths spec/00_scope.md R17 and spec/30_encoding.md R300 give. -/

namespace Sys2Proof

/-- A byte: a data symbol, a marker byte, one byte of BOUT (R13, R16, R140). -/
abbrev Byte := BitVec 8

/-- A 32-bit word: CMD, ARG, DATA (R300, R310), one FREQ entry (R110, W_F ≤ 32). -/
abbrev Word := BitVec 32

/-- A 9-bit index: the IDX field, a symbol 0..256, a node index 0..510 (R17, R301). -/
abbrev Index := BitVec 9

/-- A node weight of W_N = W_F + 8 ≤ 40 bits (R15). -/
abbrev Weight := BitVec 40

/-- A 4-bit status code (R310), the width of DEC_ERR and ENC_ERR (R131, R135). -/
abbrev Code := BitVec 4

end Sys2Proof
end

