-- ==== Sys2Proof/Syntax.lean ====
section
/-! DEFINITION. The command packet and the commands: one constructor per row of spec/opcode_table.json. -/

namespace Sys2Proof

/-- One command packet: the words CMD and ARG (R300). -/
structure Packet where
  cmd : Word
  arg : Word
  deriving DecidableEq, Repr

/-- The commands, one constructor per row of the opcode map (R315) and of the reserved space (R316).
`idx` is the IDX field, `arg` the ARG word of the commands that read it (R303);
`low` is CMD[27:0] of a packet whose opcode is reserved. -/
inductive Instr where
  | nop
  | freqClr
  | freqWr (idx : Index) (arg : Word)
  | freqRd (idx : Index)
  | build
  | genlut
  | nodeRd (idx : Index) (arg : Word)
  | lutRd (idx : Index) (arg : Word)
  | encStart
  | encSym (idx : Index)
  | decStart
  | decBit (idx : Index)
  | decEnd
  | statusRd
  | reservedE (low : BitVec 28)
  | reservedF (low : BitVec 28)
  deriving DecidableEq, Repr

end Sys2Proof
end

