-- ==== Sys2Proof/Decode.lean ====
section
/-! DEFINITION. Decoding a packet (R305), the encoder beside it, and the opcode map as data (R315). -/

namespace Sys2Proof

/-! ## The fields of CMD (R301) -/

/-- OP, CMD[31:28]. -/
def opField (cmd : Word) : BitVec 4 := cmd.extractLsb' 28 4

/-- RSV, CMD[27:9]. -/
def rsvField (cmd : Word) : BitVec 19 := cmd.extractLsb' 9 19

/-- IDX, CMD[8:0]. -/
def idxField (cmd : Word) : Index := cmd.extractLsb' 0 9

/-- CMD[27:0]: everything below OP. -/
def lowField (cmd : Word) : BitVec 28 := cmd.extractLsb' 0 28

/-! ## Decoding (R305) -/

/-- Why a packet is no command although its opcode is assigned (R305, R316). -/
inductive DecodeError where
  /-- CMD[27:9] ≠ 0. -/
  | reservedBits
  /-- IDX ≠ 0 in a format-N command. -/
  | indexInFormatN
  deriving DecidableEq, Repr

/-- The opcodes of format N, whose CMD[27:0] must be 0 (R304). -/
def formatN (op : BitVec 4) : Bool :=
  match op.toNat with
  | 0x0 => true
  | 0x1 => true
  | 0x4 => true
  | 0x5 => true
  | 0x8 => true
  | 0xA => true
  | 0xC => true
  | 0xD => true
  | _ => false

/-- The opcodes R316 reserves: 0xE and 0xF. -/
def reservedOp (op : BitVec 4) : Bool := 0xE ≤ op.toNat

/-- The row of R315 that an opcode selects, with its operands. -/
def instrOf (op : BitVec 4) (low : BitVec 28) (idx : Index) (arg : Word) : Instr :=
  match op.toNat with
  | 0x0 => .nop
  | 0x1 => .freqClr
  | 0x2 => .freqWr idx arg
  | 0x3 => .freqRd idx
  | 0x4 => .build
  | 0x5 => .genlut
  | 0x6 => .nodeRd idx arg
  | 0x7 => .lutRd idx arg
  | 0x8 => .encStart
  | 0x9 => .encSym idx
  | 0xA => .decStart
  | 0xB => .decBit idx
  | 0xC => .decEnd
  | 0xD => .statusRd
  | 0xE => .reservedE low
  | _ => .reservedF low

/-- Decoding of R305, its checks in the spec's order. The reserved opcodes are rows of the table of their own
(`reservedE`, `reservedF`); the other illegal packets are refused by name. Either way the packet answers ILLEGAL_CMD. -/
def decode (p : Packet) : Except DecodeError Instr :=
  if reservedOp (opField p.cmd) then
    .ok (instrOf (opField p.cmd) (lowField p.cmd) (idxField p.cmd) p.arg)
  else if rsvField p.cmd ≠ 0#19 then
    .error .reservedBits
  else if formatN (opField p.cmd) && idxField p.cmd ≠ 0#9 then
    .error .indexInFormatN
  else
    .ok (instrOf (opField p.cmd) (lowField p.cmd) (idxField p.cmd) p.arg)

/-! ## Encoding -/

/-- A format-I CMD word: {OP, RSV = 0, IDX} (R301, R304). -/
def cmdI (op : BitVec 4) (idx : Index) : Word := op ++ 0#19 ++ idx

/-- A format-N CMD word: {OP, 0} (R304). -/
def cmdN (op : BitVec 4) : Word := op ++ 0#28

/-- The packet of a command (R315). An ARG the command ignores is encoded as 0, as R320 assembles an omitted ARG. -/
def encode : Instr → Packet
  | .nop => ⟨cmdN 0x0#4, 0#32⟩
  | .freqClr => ⟨cmdN 0x1#4, 0#32⟩
  | .freqWr idx arg => ⟨cmdI 0x2#4 idx, arg⟩
  | .freqRd idx => ⟨cmdI 0x3#4 idx, 0#32⟩
  | .build => ⟨cmdN 0x4#4, 0#32⟩
  | .genlut => ⟨cmdN 0x5#4, 0#32⟩
  | .nodeRd idx arg => ⟨cmdI 0x6#4 idx, arg⟩
  | .lutRd idx arg => ⟨cmdI 0x7#4 idx, arg⟩
  | .encStart => ⟨cmdN 0x8#4, 0#32⟩
  | .encSym idx => ⟨cmdI 0x9#4 idx, 0#32⟩
  | .decStart => ⟨cmdN 0xA#4, 0#32⟩
  | .decBit idx => ⟨cmdI 0xB#4 idx, 0#32⟩
  | .decEnd => ⟨cmdN 0xC#4, 0#32⟩
  | .statusRd => ⟨cmdN 0xD#4, 0#32⟩
  | .reservedE low => ⟨0xE#4 ++ low, 0#32⟩
  | .reservedF low => ⟨0xF#4 ++ low, 0#32⟩

/-- Whether the command reads its ARG word (R303: FREQ_WR, NODE_RD and LUT_RD do, every other one ignores it). -/
def Instr.readsArg : Instr → Bool
  | .freqWr _ _ => true
  | .nodeRd _ _ => true
  | .lutRd _ _ => true
  | .nop => false
  | .freqClr => false
  | .freqRd _ => false
  | .build => false
  | .genlut => false
  | .encStart => false
  | .encSym _ => false
  | .decStart => false
  | .decBit _ => false
  | .decEnd => false
  | .statusRd => false
  | .reservedE _ => false
  | .reservedF _ => false

/-! ## The opcode map as data (R315, R316) -/

/-- One row of the opcode map: CMD matches it when `cmd &&& mask = match`. -/
structure OpcodeRow where
  op : BitVec 4
  pattern : Word
  mask : Word
  deriving DecidableEq, Repr

/-- The rows of spec/opcode_table.json, transcribed. -/
def opcodeRows : List OpcodeRow :=
  [⟨0x0#4, 0x00000000#32, 0xFFFFFFFF#32⟩,
   ⟨0x1#4, 0x10000000#32, 0xFFFFFFFF#32⟩,
   ⟨0x2#4, 0x20000000#32, 0xFFFFFE00#32⟩,
   ⟨0x3#4, 0x30000000#32, 0xFFFFFE00#32⟩,
   ⟨0x4#4, 0x40000000#32, 0xFFFFFFFF#32⟩,
   ⟨0x5#4, 0x50000000#32, 0xFFFFFFFF#32⟩,
   ⟨0x6#4, 0x60000000#32, 0xFFFFFE00#32⟩,
   ⟨0x7#4, 0x70000000#32, 0xFFFFFE00#32⟩,
   ⟨0x8#4, 0x80000000#32, 0xFFFFFFFF#32⟩,
   ⟨0x9#4, 0x90000000#32, 0xFFFFFE00#32⟩,
   ⟨0xA#4, 0xA0000000#32, 0xFFFFFFFF#32⟩,
   ⟨0xB#4, 0xB0000000#32, 0xFFFFFE00#32⟩,
   ⟨0xC#4, 0xC0000000#32, 0xFFFFFFFF#32⟩,
   ⟨0xD#4, 0xD0000000#32, 0xFFFFFFFF#32⟩,
   ⟨0xE#4, 0xE0000000#32, 0xF0000000#32⟩,
   ⟨0xF#4, 0xF0000000#32, 0xF0000000#32⟩]

/-- A CMD word matches a row of the opcode map. -/
def OpcodeRow.selects (r : OpcodeRow) (cmd : Word) : Bool := cmd &&& r.mask == r.pattern

/-- The opcode of a command's row. -/
def Instr.op : Instr → BitVec 4
  | .nop => 0x0#4
  | .freqClr => 0x1#4
  | .freqWr _ _ => 0x2#4
  | .freqRd _ => 0x3#4
  | .build => 0x4#4
  | .genlut => 0x5#4
  | .nodeRd _ _ => 0x6#4
  | .lutRd _ _ => 0x7#4
  | .encStart => 0x8#4
  | .encSym _ => 0x9#4
  | .decStart => 0xA#4
  | .decBit _ => 0xB#4
  | .decEnd => 0xC#4
  | .statusRd => 0xD#4
  | .reservedE _ => 0xE#4
  | .reservedF _ => 0xF#4

/-! ## The host's reading of the opcode table -/

/-- The packet whose bits are the low `nbits` bits of `w`: bit 0 is CMD's bit 0, bit 32 is ARG's bit 0. -/
def packetOfBits (nbits w : Nat) : Packet :=
  ⟨BitVec.ofNat 32 (w % 2 ^ nbits), BitVec.ofNat 32 (w % 2 ^ nbits / 2 ^ 32)⟩

/-- The instruction the decoder reads from a packet given as a number, the bits above `nbits` 0. -/
def decodeTableWord (nbits w : Nat) : Option Instr :=
  match decode (packetOfBits nbits w) with
  | .ok i => some i
  | .error _ => none

end Sys2Proof
end

