-- ==== Sys2Proof/Config.lean ====
section
/-! DEFINITION. What is fixed for one machine: its parameters, its sizes, and the one free value the spec leaves open. -/

namespace Sys2Proof

/-- The parameters a model takes as an argument: W_F (R14), MARK_L and MARK_R (R16). -/
structure Params where
  wF : Nat
  markL : Byte
  markR : Byte
  deriving DecidableEq, Repr

/-- The values the spec admits: 1 ≤ W_F ≤ 32 (R14) and MARK_L ≠ MARK_R (R16). -/
def Params.legal (p : Params) : Bool :=
  1 ≤ p.wF && p.wF ≤ 32 && p.markL != p.markR

/-- The values of this hardware: W_F = 32 (R14), MARK_L = 0x30, MARK_R = 0x31 (R16). -/
def Config.params : Params := { wF := 32, markL := 0x30#8, markR := 0x31#8 }

/-- SENTINEL, the symbol of the synthetic leaf (R17, R453). -/
def Config.sentinel : Index := 256#9

/-- LEN_MAX, the depth of the deepest leaf (R17, R465). -/
def Config.lenMax : Nat := 255

/-- The contents of NODE entry `entry` (its 68 bits: LEAF, SYM, LEFT, RIGHT, WEIGHT) where the spec says they
are unspecified after a BUILD: outside the valid region (R116) and, after EMPTY_INPUT, everywhere (R462).
A FREE VALUE (log entry 1): no value of it can be proved. `draw` counts the BUILDs. -/
opaque Config.freeNodeBits (draw entry : Nat) : BitVec 68

end Sys2Proof
end

