-- ==== Sys2Proof/Machine/State.lean ====
section
/-! DEFINITION. The state of the block and of its channels, the reasons a step can stop, and the state after reset. -/

namespace Sys2Proof.Machine

/-- One NODE entry (R115): the fields of a tree node, children as node indices. -/
structure Node where
  leaf : Bool
  sym : Index
  left : Index
  right : Index
  weight : Weight
  deriving DecidableEq, Repr

/-- One LUT entry (R125): the length of the code word, 0 for no entry, and its bits, bit i the branch at depth i. -/
structure LutEntry where
  len : BitVec 8
  bits : BitVec 255
  deriving DecidableEq, Repr

/-- One response on RSPCH (R310). -/
structure Response where
  code : Code
  data : Word
  deriving DecidableEq, Repr

/-- The status codes of R311; 8 to 15 are never produced and have no name. -/
inductive StatusCode where
  | ok
  | emptyInput
  | invalidBit
  | truncatedInput
  | unknownSymbol
  | notReady
  | illegalCmd
  | range
  deriving DecidableEq, Repr

/-- What the host can do to the block (R742). Taking several bytes of BOUT is one move. -/
inductive HostMove where
  /-- Offer a packet on CMDCH; it stays with the host until the core accepts it (R160). -/
  | offer (p : Packet)
  /-- Take the response that waits on RSPCH (R161). -/
  | takeResponse
  /-- Take up to `n` bytes of BOUTCH, in order (R162). -/
  | takeBytes (n : Nat)
  /-- Assert RESET (R800, R801). -/
  | assertReset
  /-- Release RESET (R802). -/
  | releaseReset
  deriving DecidableEq, Repr

/-- The reasons a step stops. None is raised by a command in a state a run from reset reaches. -/
inductive Fault where
  /-- Raised by DEC_BIT and GENLUT when a node index or a leaf's symbol names no entry of NODE or LUT (R200, R201).
  Safe: the machine stops; R117 and R130 rule it out in every state a run reaches. -/
  | noSuchEntry
  /-- Raised by GENLUT when its walk has not ended at depth 255 (R465, R501).
  Safe: the machine stops; R117 rules it out in every state a run reaches. -/
  | walkDiverges
  /-- Raised by a step when a response waits on RSPCH and the host makes no further move: the block is held for
  good (R823; spec/93_implementation_defined.md U15, `stuck`). Safe: nothing happens any more. -/
  | stuck
  deriving DecidableEq, Repr

/-- The reasons an instruction has no meaning. Every command has one, so no step raises this. -/
inductive Refusal where
  /-- Raised by exec for an instruction with no meaning yet; safe. -/
  | notModelled (mnemonic : String)
  deriving DecidableEq, Repr

/-- The state: the core state of R102, then the channels and the host's side of them (R160 to R164), then the
model's own counter. The status view (R145) is computed, not stored (`State.status`). -/
structure State where
  /-- FREQ (R110): entry s is the weight of symbol s. -/
  freq : Vector Word 256
  /-- NODE (R115). -/
  node : Vector Node 511
  /-- LEAF_COUNT (R118). -/
  leafCount : Index
  /-- ROOT (R119). -/
  root : Index
  /-- TREE_VALID (R120). -/
  treeValid : Bool
  /-- LUT (R125). -/
  lut : Vector LutEntry 257
  /-- LUT_VALID (R127). -/
  lutValid : Bool
  /-- CURSOR (R130). -/
  cursor : Index
  /-- DEC_ERR (R131). -/
  decErr : Code
  /-- ENC_ERR (R135). -/
  encErr : Code
  /-- BOUT (R140): every byte emitted since reset, oldest first. -/
  bout : List Byte
  /-- CMDCH (R160): the packets the host holds out and the core has not accepted, oldest first. -/
  cmdch : List Packet
  /-- RSPCH (R161, R164): the response produced and not yet taken. -/
  rspch : Option Response
  /-- The responses the host has taken, oldest first (R743). -/
  rspTaken : List Response
  /-- BOUTCH (R162): how many bytes of BOUT the host has taken. -/
  boutTaken : Nat
  /-- RESET (R163): asserted. -/
  resetIn : Bool
  /-- The host's next moves, in order (R742): the machine's input. -/
  hostMoves : List HostMove
  /-- THE MODEL'S OWN: how many BUILDs have drawn a free value (log entry 1). -/
  draws : Nat
  deriving DecidableEq, Repr

/-- The state right after reset (R800), RESET released, nothing offered. NODE and LUT are unspecified there; the
zeros are log entry 2 (DESIGN CHOICE), and `draws` starts at 0 by log entry 1 (DESIGN CHOICE). -/
def State.reset : State where
  freq := Vector.replicate 256 0#32
  node := Vector.replicate 511 ⟨false, 0#9, 0#9, 0#9, 0#40⟩
  leafCount := 0#9
  root := 0#9
  treeValid := false
  lut := Vector.replicate 257 ⟨0#8, 0#255⟩
  lutValid := false
  cursor := 0#9
  decErr := 0#4
  encErr := 0#4
  bout := []
  cmdch := []
  rspch := none
  rspTaken := []
  boutTaken := 0
  resetIn := false
  hostMoves := []
  draws := 0

/-- The three outcomes of one step of this machine. -/
abbrev Result := Host.Outcome State Fault Refusal

end Sys2Proof.Machine
end

