-- ==== Sys2Proof/Machine/Ops.lean ====
section
/-! DEFINITION. The named operations every meaning is built from: reads and writes of the index spaces, answering,
raising an error (the block's only form of exception), RESET, the three channels and the host's moves. -/

namespace Sys2Proof.Machine

/-! ## Status codes and responses (R310 to R312) -/

/-- The number of a status code (R311). -/
def StatusCode.bits : StatusCode → Code
  | .ok => 0#4
  | .emptyInput => 1#4
  | .invalidBit => 2#4
  | .truncatedInput => 3#4
  | .unknownSymbol => 4#4
  | .notReady => 5#4
  | .illegalCmd => 6#4
  | .range => 7#4

/-- `respond(code, data)` of R22: the command's one response (R161, R310). -/
def State.respond (s : State) (code : Code) (data : Word) : State :=
  { s with rspch := some ⟨code, data⟩ }

/-- A command that is performed: CODE = OK with its result (R311). -/
def answer (data : Word) (s : State) : Result := .next (s.respond StatusCode.ok.bits data)

/-- `raise E` of R22: the command ends with CODE = E, DATA = 0 (R312). The block has no trap: nothing is saved,
no mode changes, nothing is masked, and the core takes the next command as usual (R720). -/
def raise (code : Code) (s : State) : Result := .next (s.respond code 0#32)

/-! ## FREQ (R110) -/

/-- Read one entry. -/
def State.freqAt (s : State) (y : Fin 256) : Word := s.freq[y]

/-- Write one entry. -/
def State.setFreq (s : State) (y : Fin 256) (count : Word) : State :=
  { s with freq := s.freq.set y.val count }

/-- Set every entry to 0. -/
def State.clearFreq (s : State) : State := { s with freq := Vector.replicate 256 0#32 }

/-! ## NODE, LEAF_COUNT, ROOT, TREE_VALID (R115 to R120) -/

/-- The 68 bits of an entry as its fields (R115). -/
def Node.ofBits (b : BitVec 68) : Node where
  leaf := b.getLsbD 67
  sym := b.extractLsb' 58 9
  left := b.extractLsb' 49 9
  right := b.extractLsb' 40 9
  weight := b.extractLsb' 0 40

/-- Read one entry; NODE has no entry 511 (R200). -/
def State.nodeAt (s : State) (n : Index) : Option Node := s.node[n.toNat]?

/-- The child an internal node has on a branch: 0 is LEFT, 1 is RIGHT (R125, R501). -/
def Node.child (nd : Node) (branch : Bool) : Index := if branch then nd.right else nd.left

/-- NODE after a BUILD whose valid region is `nodes`: the entries outside it hold a free value (R116, R462).
Irreducible, so that comparing two states never unfolds its 511 entries; `fillNodes_getElem` reads it. -/
@[irreducible] def fillNodes (draw : Nat) (nodes : List Node) : Vector Node 511 :=
  Vector.ofFn fun i => nodes[i.val]?.getD (Node.ofBits (Config.freeNodeBits draw i.val))

/-- The writes of a successful BUILD (R460, steps 1, 3, 4 and 5); `nodes` is the valid region. -/
def State.commitTree (s : State) (nodes : List Node) (leafCount root : Index) : State :=
  { s with
    node := fillNodes s.draws nodes
    leafCount := leafCount
    root := root
    treeValid := true
    lutValid := false
    cursor := root
    decErr := 0#4
    encErr := 0#4
    draws := s.draws + 1 }

/-- The writes of a BUILD over an empty table (R460 step 2, R462); NODE is then unspecified. -/
def State.discardTree (s : State) : State :=
  { s with
    node := fillNodes s.draws []
    leafCount := 0#9
    root := 0#9
    treeValid := false
    lutValid := false
    cursor := 0#9
    decErr := 0#4
    encErr := 0#4
    draws := s.draws + 1 }

/-! ## LUT and LUT_VALID (R125 to R127) -/

/-- Read one entry. -/
def State.lutAt (s : State) (y : Fin 257) : LutEntry := s.lut[y]

/-- The writes of GENLUT (R501). -/
def State.commitLut (s : State) (lut : Vector LutEntry 257) : State :=
  { s with lut := lut, lutValid := true }

/-- The code word of an entry: BITS[0] first (R205). -/
def LutEntry.code (e : LutEntry) : List Bool :=
  (List.range e.len.toNat).map fun i => e.bits.getLsbD i

/-! ## CURSOR, the sticky session errors, BOUT (R130 to R140) -/

/-- Write CURSOR. -/
def State.setCursor (s : State) (n : Index) : State := { s with cursor := n }

/-- Write DEC_ERR: record the decode session's error, or clear it (R131, R711, R721). -/
def State.setDecErr (s : State) (code : Code) : State := { s with decErr := code }

/-- Write ENC_ERR: record the encode session's error, or clear it (R135, R711, R721). -/
def State.setEncErr (s : State) (code : Code) : State := { s with encErr := code }

/-- `emit(m)` of R22 for each byte of a list, in order (R140). -/
def State.emit (s : State) (bytes : List Byte) : State := { s with bout := s.bout ++ bytes }

/-! ## RESET (R800 to R802) -/

/-- The state while RESET is asserted: every core item at its reset value, the response not yet taken and the BOUT
bytes not yet taken discarded; offered packets stay with the host (R800, R801). -/
def State.afterReset (s : State) : State :=
  { State.reset with
    cmdch := s.cmdch
    rspTaken := s.rspTaken
    resetIn := true
    hostMoves := s.hostMoves
    draws := s.draws }

/-! ## The channels (R160 to R164) -/

/-- The core is idle: out of reset, no response waiting (R164). -/
def State.idle (s : State) : Bool := !s.resetIn && s.rspch.isNone

/-- A program can begin: the core is idle and no packet offered before it waits (R160, R743). -/
def State.ready (s : State) : Bool := s.idle && s.cmdch.isEmpty

/-- The oldest offered packet, accepted when the core is idle (R160, R164). -/
def State.accept (s : State) : Option (Packet × State) :=
  match s.idle, s.cmdch with
  | true, p :: rest => some (p, { s with cmdch := rest })
  | true, [] => none
  | false, _ => none

/-- The host takes the response that waits, if any (R161). -/
def State.takeResponse (s : State) : State :=
  match s.rspch with
  | some r => { s with rspch := none, rspTaken := s.rspTaken ++ [r] }
  | none => s

/-- One move of the host (R742). -/
def HostMove.apply : HostMove → State → State
  | .offer p, s => { s with cmdch := s.cmdch ++ [p] }
  | .takeResponse, s => s.takeResponse
  | .takeBytes n, s => { s with boutTaken := min (s.boutTaken + n) s.bout.length }
  | .assertReset, s => s.afterReset
  | .releaseReset, s => { s with resetIn := false }

/-- What happens when the core accepts no packet: the host makes its next move. With no move left the block waits
with its state held (R769), or, when a response is never taken, is stuck (R823, U15). -/
def hostStep (s : State) : Result :=
  match s.hostMoves with
  | m :: rest => .next (m.apply { s with hostMoves := rest })
  | [] => if s.rspch.isSome then .fault .stuck else .next s

/-- An illegal packet: answer ILLEGAL_CMD and change nothing else (R305, R316, R704). -/
def illegalCommand (s : State) : Result := raise StatusCode.illegalCmd.bits s

/-- The packet stored where the next step accepts its command, RESET released and no response waiting. -/
def State.placePacket (s : State) (p : Packet) : State :=
  let t := s.takeResponse
  { t with resetIn := false, cmdch := p :: t.cmdch }

end Sys2Proof.Machine
end

