-- ==== Sys2Proof/Machine/Operands.lean ====
section
/-! DEFINITION. The operand forms and their ranges (R302, R303, R706). `none` is a RANGE error. -/

namespace Sys2Proof.Machine

/-- A data symbol, 0..255: FREQ_WR, FREQ_RD, ENC_SYM. -/
def dataSymbol (idx : Index) : Option (Fin 256) :=
  if h : idx.toNat < 256 then some ⟨idx.toNat, h⟩ else none

/-- A LUT symbol, 0..256: LUT_RD. -/
def lutSymbol (idx : Index) : Option (Fin 257) :=
  if h : idx.toNat < 257 then some ⟨idx.toNat, h⟩ else none

/-- A marker byte, 0..255: IDX[7:0] with IDX[8] = 0 (DEC_BIT, R302). -/
def markerByte (idx : Index) : Option Byte :=
  if idx.toNat < 256 then some (idx.setWidth 8) else none

/-- ARG of FREQ_WR fits W_F bits (R402). -/
def countFits (p : Params) (arg : Word) : Bool := arg.toNat ≤ 2 ^ p.wF - 1

/-- IDX and ARG of NODE_RD are in range: n ≤ ROOT and sel ≤ 3 (R470). -/
def nodeOperandsInRange (s : State) (idx : Index) (arg : Word) : Bool :=
  idx.toNat ≤ s.root.toNat && arg.toNat ≤ 3

/-- The branch a marker byte stands for, 0 for MARK_L and 1 for MARK_R (R16, R207); `none` is INVALID_BIT. -/
def branchOf (p : Params) (b : Byte) : Option Bool :=
  if b = p.markL then some false else if b = p.markR then some true else none

/-- The marker byte of a code bit (R16, R207). -/
def markerOf (p : Params) (branch : Bool) : Byte := if branch then p.markR else p.markL

/-- The field group of a node that NODE_RD's selector names (R470, R208). -/
def nodeField (nd : Node) (sel : Word) : Word :=
  match sel.toNat with
  | 0 => BitVec.ofBool nd.leaf ++ 0#22 ++ nd.sym
  | 1 => 0#7 ++ nd.right ++ 0#7 ++ nd.left
  | 2 => (nd.weight.setWidth 64).extractLsb' 0 32
  | _ => (nd.weight.setWidth 64).extractLsb' 32 32

/-- The part of a code-table entry that LUT_RD's selector names (R510, R208). -/
def lutField (e : LutEntry) (sel : Word) : Word :=
  if sel.toNat = 8 then e.len.setWidth 32
  else (e.bits.setWidth 256).extractLsb' (32 * sel.toNat) 32

end Sys2Proof.Machine
end

