-- ==== Sys2Proof/Machine/Builder.lean ====
section
/-! DEFINITION. The tree builder: BUILD and NODE_RD (spec/42_tree_builder.md). -/

namespace Sys2Proof.Machine

/-! ## The priority order (R451) -/

/-- An element of the priority set P: a node index with that node's WEIGHT beside it. -/
structure Ranked where
  weight : Weight
  idx : Index
  deriving DecidableEq, Repr

/-- a ≺ b: by ascending WEIGHT, then by ascending index (R451). -/
def Ranked.before (a b : Ranked) : Bool :=
  a.weight.toNat < b.weight.toNat || (a.weight == b.weight && a.idx.toNat < b.idx.toNat)

/-- The ≺-least element of a priority set. -/
def leastRanked : List Ranked → Option Ranked
  | [] => none
  | x :: xs =>
    match leastRanked xs with
    | none => some x
    | some y => if x.before y then some x else some y

/-! ## The nodes (R115, R453) -/

/-- A leaf (R460 step 1). -/
def leafNode (sym : Index) (weight : Weight) : Node := ⟨true, sym, 0#9, 0#9, weight⟩

/-- An internal node over its first removed (LEFT) and second removed (RIGHT) children (R460 step 4). -/
def internalNode (a b : Ranked) : Node := ⟨false, 0#9, a.idx, b.idx, a.weight + b.weight⟩

/-- Step 1 of R460: one leaf per symbol with non-zero frequency, ascending symbol. -/
def symbolLeaves (freq : Vector Word 256) : List Node :=
  freq.toList.zipIdx.filterMap fun c =>
    if c.1 = 0#32 then none else some (leafNode (BitVec.ofNat 9 c.2) (c.1.setWidth 40))

/-- Step 3 of R460: a single leaf gets the synthetic one beside it (R453). -/
def withSynthetic : List Node → List Node
  | [x] => [x, leafNode Config.sentinel 1#40]
  | xs => xs

/-- The priority set over the leaves: P = 0, 1, ..., k-1 (R460 step 4). -/
def rankLeaves (leaves : List Node) : List Ranked :=
  leaves.zipIdx.map fun c => ⟨c.1.weight, BitVec.ofNat 9 c.2⟩

/-- One merge of R460 step 4 on the nodes made so far and the priority set: remove the two ≺-least elements, make
their parent the next node, put it into the set. `none` when fewer than two elements are left. -/
def mergeOnce (nodes : List Node) (pri : List Ranked) : Option (List Node × List Ranked) :=
  match leastRanked pri with
  | none => none
  | some a =>
    match leastRanked (pri.erase a) with
    | none => none
    | some b =>
      some (nodes ++ [internalNode a b],
        (pri.erase a).erase b ++ [⟨a.weight + b.weight, BitVec.ofNat 9 nodes.length⟩])

/-- The loop of R460 step 4, at most `fuel` merges. -/
def mergeLoop : Nat → List Node → List Ranked → List Node
  | 0, nodes, _ => nodes
  | fuel + 1, nodes, pri =>
    match mergeOnce nodes pri with
    | none => nodes
    | some (nodes', pri') => mergeLoop fuel nodes' pri'

/-- The valid region that BUILD makes over its leaves: k leaves and k - 1 merges (R460, R464). -/
def treeOver (leaves : List Node) : List Node :=
  mergeLoop (leaves.length - 1) leaves (rankLeaves leaves)

/-- BUILD's result word: DATA[24:16] = LEAF_COUNT, DATA[8:0] = ROOT (R460). -/
def buildData (leafCount root : Index) : Word := 0#7 ++ leafCount ++ 0#7 ++ root

/-- BUILD (R460). -/
def execBuild (s : State) : Result :=
  match withSynthetic (symbolLeaves s.freq) with
  | [] => raise StatusCode.emptyInput.bits s.discardTree
  | x :: xs =>
    let leafCount := BitVec.ofNat 9 (x :: xs).length
    let nodes := treeOver (x :: xs)
    let root := BitVec.ofNat 9 (nodes.length - 1)
    answer (buildData leafCount root) (s.commitTree nodes leafCount root)

/-- NODE_RD (R470). -/
def execNodeRd (idx : Index) (arg : Word) (s : State) : Result :=
  if !s.treeValid then raise StatusCode.notReady.bits s
  else if nodeOperandsInRange s idx arg then
    match s.nodeAt idx with
    | none => .fault .noSuchEntry
    | some nd => answer (nodeField nd arg) s
  else raise StatusCode.range.bits s

end Sys2Proof.Machine
end

