-- ==== Sys2Proof/Machine/CodeTable.lean ====
section
/-! DEFINITION. The code-table generator: GENLUT and LUT_RD (spec/43_code_table.md). -/

namespace Sys2Proof.Machine

/-- The number whose bit i is element i of a bit sequence. -/
def bitsValue : List Bool → Nat
  | [] => 0
  | b :: bs => b.toNat + 2 * bitsValue bs

/-- The LUT entry of a code word (R501): LEN its length, BITS[i] its bit i. -/
def entryOf (code : List Bool) : LutEntry :=
  ⟨BitVec.ofNat 8 code.length, BitVec.ofNat 255 (bitsValue code)⟩

/-- walk(n, p) of R501: the leaves below node `n`, each with its path from ROOT, LEFT before RIGHT.
`fuel` bounds the depth by LEN_MAX (R465). -/
def walk (node : Vector Node 511) : Nat → Index → List Bool → Except Fault (List (Index × List Bool))
  | 0, _, _ => .error .walkDiverges
  | fuel + 1, n, path =>
    match node[n.toNat]? with
    | none => .error .noSuchEntry
    | some nd =>
      if nd.leaf then
        if nd.sym.toNat ≤ 256 then .ok [(nd.sym, path)] else .error .noSuchEntry
      else
        match walk node fuel nd.left (path ++ [false]), walk node fuel nd.right (path ++ [true]) with
        | .ok ls, .ok rs => .ok (ls ++ rs)
        | .error e, _ => .error e
        | .ok _, .error e => .error e

/-- The table the walk writes: no entry but those of the leaves it met (R501). -/
def tableOf (leaves : List (Index × List Bool)) : Vector LutEntry 257 :=
  leaves.foldl (fun t c => t.setIfInBounds c.1.toNat (entryOf c.2)) (Vector.replicate 257 ⟨0#8, 0#255⟩)

/-- GENLUT (R501). -/
def execGenlut (s : State) : Result :=
  if !s.treeValid then raise StatusCode.notReady.bits s
  else
    match walk s.node (Config.lenMax + 1) s.root [] with
    | .error e => .fault e
    | .ok leaves => answer 0#32 (s.commitLut (tableOf leaves))

/-- LUT_RD (R510). -/
def execLutRd (idx : Index) (arg : Word) (s : State) : Result :=
  if !s.lutValid then raise StatusCode.notReady.bits s
  else
    match lutSymbol idx with
    | none => raise StatusCode.range.bits s
    | some y =>
      if arg.toNat ≤ 8 then answer (lutField (s.lutAt y) arg) s else raise StatusCode.range.bits s

end Sys2Proof.Machine
end

