-- ==== Sys2Proof/Machine/Flags.lean ====
section
/-! DEFINITION. The block's flags as STATUS shows them (R145, R146): a view computed from the state. -/

namespace Sys2Proof.Machine

/-- DEC_AT_ROOT: a tree is valid and CURSOR = ROOT (R145). -/
def State.decAtRoot (s : State) : Bool := s.treeValid && s.cursor == s.root

/-- STATUS, bits 31 to 0 of R145 from the left. -/
def State.status (s : State) : Word :=
  0#2 ++ s.cursor ++ s.leafCount ++ s.encErr ++ s.decErr ++ 0#1 ++
    BitVec.ofBool s.decAtRoot ++ BitVec.ofBool s.lutValid ++ BitVec.ofBool s.treeValid

/-- NODE_COUNT, the size of NODE's valid region (R116). -/
def State.nodeCount (s : State) : Nat := if s.treeValid then 2 * s.leafCount.toNat - 1 else 0

end Sys2Proof.Machine
end

