-- ==== Sys2Proof/Machine/Control.lean ====
section
/-! DEFINITION. NOP and STATUS_RD (spec/46_control.md), and the reserved opcodes (R316). -/

namespace Sys2Proof.Machine

/-- NOP (R650). -/
def execNop (s : State) : Result := answer 0#32 s

/-- STATUS_RD (R651). -/
def execStatusRd (s : State) : Result := answer s.status s

/-- Opcode 0xE: ILLEGAL_CMD whatever CMD[27:0] holds (R305, R316, R704). -/
def execReservedE (_low : BitVec 28) (s : State) : Result := illegalCommand s

/-- Opcode 0xF: ILLEGAL_CMD whatever CMD[27:0] holds (R305, R316, R704). -/
def execReservedF (_low : BitVec 28) (s : State) : Result := illegalCommand s

end Sys2Proof.Machine
end

