-- ==== Sys2Proof/Machine/Decoder.lean ====
section
/-! DEFINITION. The bitstream decoder: DEC_START, DEC_BIT and DEC_END (spec/45_decoder.md). -/

namespace Sys2Proof.Machine

/-- DEC_START (R601). -/
def execDecStart (s : State) : Result := answer 0#32 ((s.setCursor s.root).setDecErr 0#4)

/-- DEC_BIT's result word when a symbol is emitted: DATA[9] = EMIT, DATA[8:0] = symbol (R611). -/
def emitData (sym : Index) : Word := 0#22 ++ 1#1 ++ sym

/-- The step of the walk (R611): to the child on a branch, and back to ROOT after a leaf. -/
def decodeStep (branch : Bool) (s : State) : Result :=
  match s.nodeAt s.cursor with
  | none => .fault .noSuchEntry
  | some here =>
    match s.nodeAt (here.child branch) with
    | none => .fault .noSuchEntry
    | some nxt =>
      if nxt.leaf then answer (emitData nxt.sym) (s.setCursor s.root)
      else answer 0#32 (s.setCursor (here.child branch))

/-- DEC_BIT for any parameters (R611). -/
def decBitWith (p : Params) (idx : Index) (s : State) : Result :=
  if !s.treeValid then raise StatusCode.notReady.bits s
  else
    match markerByte idx with
    | none => raise StatusCode.range.bits s
    | some b =>
      if s.decErr ≠ 0#4 then raise s.decErr s
      else
        match branchOf p b with
        | none => raise StatusCode.invalidBit.bits (s.setDecErr StatusCode.invalidBit.bits)
        | some branch => decodeStep branch s

/-- DEC_BIT (R611). -/
def execDecBit (idx : Index) (s : State) : Result := decBitWith Config.params idx s

/-- DEC_END (R612). -/
def execDecEnd (s : State) : Result :=
  if !s.treeValid then raise StatusCode.notReady.bits s
  else if s.decErr ≠ 0#4 then raise s.decErr s
  else if s.cursor ≠ s.root then
    raise StatusCode.truncatedInput.bits (s.setDecErr StatusCode.truncatedInput.bits)
  else answer 0#32 s

end Sys2Proof.Machine
end

