-- ==== Sys2Proof/Machine/Encoder.lean ====
section
/-! DEFINITION. The bitstream encoder: ENC_START and ENC_SYM (spec/44_encoder.md). -/

namespace Sys2Proof.Machine

/-- ENC_START (R551). -/
def execEncStart (s : State) : Result := answer 0#32 (s.setEncErr 0#4)

/-- ENC_SYM for any parameters (R560). -/
def encSymWith (p : Params) (idx : Index) (s : State) : Result :=
  if !s.lutValid then raise StatusCode.notReady.bits s
  else
    match dataSymbol idx with
    | none => raise StatusCode.range.bits s
    | some y =>
      if s.encErr ≠ 0#4 then raise s.encErr s
      else if (s.lutAt (y.castLE (by decide))).len = 0#8 then
        raise StatusCode.unknownSymbol.bits (s.setEncErr StatusCode.unknownSymbol.bits)
      else
        answer ((s.lutAt (y.castLE (by decide))).len.setWidth 32)
          (s.emit ((s.lutAt (y.castLE (by decide))).code.map (markerOf p)))

/-- ENC_SYM (R560). -/
def execEncSym (idx : Index) (s : State) : Result := encSymWith Config.params idx s

end Sys2Proof.Machine
end

