-- ==== Sys2Proof/Machine/Frequency.lean ====
section
/-! DEFINITION. FREQ_CLR, FREQ_WR, FREQ_RD (spec/41_frequency_table.md). -/

namespace Sys2Proof.Machine

/-- FREQ_WR for any parameters (R402). -/
def freqWrWith (p : Params) (idx : Index) (arg : Word) (s : State) : Result :=
  match dataSymbol idx with
  | none => raise StatusCode.range.bits s
  | some y => if countFits p arg then answer 0#32 (s.setFreq y arg) else raise StatusCode.range.bits s

/-- FREQ_CLR (R401). -/
def execFreqClr (s : State) : Result := answer 0#32 s.clearFreq

/-- FREQ_WR (R402). -/
def execFreqWr (idx : Index) (arg : Word) (s : State) : Result := freqWrWith Config.params idx arg s

/-- FREQ_RD (R403). -/
def execFreqRd (idx : Index) (s : State) : Result :=
  match dataSymbol idx with
  | none => raise StatusCode.range.bits s
  | some y => answer (s.freqAt y) s

end Sys2Proof.Machine
end

