-- ==== Sys2Proof/Machine/Dispatch.lean ====
section
/-! DEFINITION. The meaning of each command: one arm per row of spec/opcode_table.json. -/

namespace Sys2Proof.Machine

def exec (i : Instr) (s : State) : Host.Outcome State Fault Refusal :=
  match i with
  | .nop => Sys2Proof.Machine.execNop s
  | .freqClr => Sys2Proof.Machine.execFreqClr s
  | .freqWr idx arg => Sys2Proof.Machine.execFreqWr idx arg s
  | .freqRd idx => Sys2Proof.Machine.execFreqRd idx s
  | .build => Sys2Proof.Machine.execBuild s
  | .genlut => Sys2Proof.Machine.execGenlut s
  | .nodeRd idx arg => Sys2Proof.Machine.execNodeRd idx arg s
  | .lutRd idx arg => Sys2Proof.Machine.execLutRd idx arg s
  | .encStart => Sys2Proof.Machine.execEncStart s
  | .encSym idx => Sys2Proof.Machine.execEncSym idx s
  | .decStart => Sys2Proof.Machine.execDecStart s
  | .decBit idx => Sys2Proof.Machine.execDecBit idx s
  | .decEnd => Sys2Proof.Machine.execDecEnd s
  | .statusRd => Sys2Proof.Machine.execStatusRd s
  | .reservedE low => Sys2Proof.Machine.execReservedE low s
  | .reservedF low => Sys2Proof.Machine.execReservedF low s

end Sys2Proof.Machine
end

