-- ==== Sys2Proof/Machine/Perform.lean ====
section
/-! DEFINITION. The commands for any parameters (R14, R16), one packet performed (R305), and one step. -/

namespace Sys2Proof.Machine

/-- The meaning of each command for any parameters: those that read a parameter take it, the others are those of
`exec`. At this hardware's parameters it is `exec`. -/
def execWith (p : Params) (i : Instr) (s : State) : Result :=
  match i with
  | .freqWr idx arg => freqWrWith p idx arg s
  | .encSym idx => encSymWith p idx s
  | .decBit idx => decBitWith p idx s
  | .nop => exec .nop s
  | .freqClr => exec .freqClr s
  | .freqRd idx => exec (.freqRd idx) s
  | .build => exec .build s
  | .genlut => exec .genlut s
  | .nodeRd idx arg => exec (.nodeRd idx arg) s
  | .lutRd idx arg => exec (.lutRd idx arg) s
  | .encStart => exec .encStart s
  | .decStart => exec .decStart s
  | .decEnd => exec .decEnd s
  | .statusRd => exec .statusRd s
  | .reservedE low => exec (.reservedE low) s
  | .reservedF low => exec (.reservedF low) s

/-- One packet, legal or not: decoding first (R305), then the command, whose meaning is `perform`. -/
def packetBy (perform : Instr → State → Result) (p : Packet) (s : State) : Result :=
  match decode p with
  | .ok i => perform i s
  | .error _ => illegalCommand s

/-- One step. An idle core performs the oldest offered packet as one atomic command (R23, R164). When no packet can be
accepted, the host makes its next move (`hostStep`). -/
def stepBy (perform : Instr → State → Result) (s : State) : Result :=
  match s.accept with
  | some (p, s') => packetBy perform p s'
  | none => hostStep s

/-- One packet performed by this hardware. -/
def execPacket (p : Packet) (s : State) : Result := packetBy exec p s

end Sys2Proof.Machine
end

