-- ==== Sys2Proof/Machine/Step.lean ====
section
/-! DEFINITION. One step of the machine, of this hardware and for any parameters, and the packet the next step performs. -/

namespace Sys2Proof.Machine

/-- One step of this hardware. -/
def step (s : State) : Host.Outcome State Fault Refusal := stepBy exec s

/-- One step of the block built with parameters `p` (R14, R16). -/
def stepWith (p : Params) (s : State) : Result := stepBy (execWith p) s

/-- The block built with parameters `p`: a model takes W_F, MARK_L and MARK_R as an argument (R14, R16). -/
def machineWith (p : Params) : Host.Core where
  State := State
  Fault := Fault
  Refusal := Refusal
  step := stepWith p
  reset := State.reset

/-- `s` with the packet of `nbits` bits `w` offered first on CMDCH and the core idle, so that the next step performs it. -/
def State.withFetchWord (s : State) (nbits w : Nat) : State := s.placePacket (packetOfBits nbits w)

end Sys2Proof.Machine
end

