-- ==== Sys2Proof/Machine/Protocol.lean ====
section
/-! DEFINITION. The host's side: the pseudo-instructions (R321), the frequency counter the host owes (R430), the two
operations of the host protocol as command sequences (R740), and the result of a run (R743). -/

namespace Sys2Proof.Machine

/-! ## Pseudo-instructions (R321) -/

/-- `DEC_L`. -/
def pseudoDecL : Instr := .decBit (Config.params.markL.setWidth 9)

/-- `DEC_R`. -/
def pseudoDecR : Instr := .decBit (Config.params.markR.setWidth 9)

/-- `LUT_LEN s`. -/
def pseudoLutLen (idx : Index) : Instr := .lutRd idx 8#32

/-- `ENC_STR`: one ENC_SYM per byte, in order. -/
def pseudoEncStr (text : List Byte) : List Instr := text.map fun c => .encSym (c.setWidth 9)

/-- `DEC_STR`: one DEC_BIT per byte, in order. -/
def pseudoDecStr (bytes : List Byte) : List Instr := bytes.map fun c => .decBit (c.setWidth 9)

/-- The host's frequency counter (R430): how often each byte occurs. The count is right when it is below 2^32. -/
def countsOf (text : List Byte) : Vector Word 256 :=
  Vector.ofFn fun y => BitVec.ofNat 32 (text.count (BitVec.ofNat 8 y.val))

/-- FREQ_CLR, then one FREQ_WR per symbol that occurs, ascending: how the host loads a table (R430). -/
def loadTable (table : Vector Word 256) : List Instr :=
  .freqClr :: table.toList.zipIdx.filterMap fun c =>
    if c.1 = 0#32 then none else some (.freqWr (BitVec.ofNat 9 c.2) c.1)

/-- `FREQ_LOAD` (R431). -/
def pseudoFreqLoad (text : List Byte) : List Instr := loadTable (countsOf text)

/-! ## The host protocol (R740) -/

/-- The commands of `compress(x)`. -/
def compressCommands (text : List Byte) : List Instr :=
  pseudoFreqLoad text ++ [.build, .genlut, .encStart] ++ pseudoEncStr text

/-- The commands of `decompress(message)`; the message is its marker bytes and its FREQ contents. -/
def decompressCommands (table : Vector Word 256) (bytes : List Byte) : List Instr :=
  loadTable table ++ [.build, .decStart] ++ pseudoDecStr bytes ++ [.decEnd]

/-- The symbols a sequence of responses emits: DATA[8:0] where DATA[9] = 1 (R611, R740). -/
def emittedSymbols (responses : List Response) : List Index :=
  responses.filterMap fun r => if r.data.getLsbD 9 then some (r.data.extractLsb' 0 9) else none

/-! ## A run (R743) -/

/-- A run of a list of commands or packets, `perform` being what one of them does. Each is accepted only by a block
that is ready for it; the host takes each response, the last one too, which changes no core state. `none` when a command is
held for good, in RESET or behind a response or a packet of before the run, or stops: such a run does not end. -/
def runBy {α : Type} (perform : α → State → Result) : List α → State → Option (List Response × State)
  | [], s => some ([], s)
  | a :: rest, s =>
    if s.ready then
      match perform a s with
      | .next t =>
        match t.rspch, runBy perform rest t.takeResponse with
        | some r, some (rs, u) => some (r :: rs, u)
        | some _, none => none
        | none, _ => none
      | .fault _ => none
      | .refused _ => none
    else none

/-- A run of a program, its packets legal or not: the responses in order, and the state at the end. -/
def runPackets : List Packet → State → Option (List Response × State) := runBy execPacket

/-- A run of commands, given decoded. -/
def runCommands : List Instr → State → Option (List Response × State) := runBy exec

/-- The result of a run (R743): the responses, the bytes appended to BOUT since the run began, and the state at the end. -/
structure RunResult where
  responses : List Response
  bytes : List Byte
  final : State
  deriving DecidableEq, Repr

/-- The run of a program (R743); `none` when it does not end. -/
def runProgram (program : List Packet) (s : State) : Option RunResult :=
  match runPackets program s with
  | some (rs, t) => some ⟨rs, t.bout.drop s.bout.length, t⟩
  | none => none

end Sys2Proof.Machine
end

