-- ==== Sys2Proof/Machine/Assembler.lean ====
section
/-! DEFINITION. The assembler of R320 and R321: one line of text to the packets it stands for. -/

namespace Sys2Proof.Machine

/-- The pieces of a line. -/
inductive Token where
  /-- A mnemonic or a number. -/
  | word (cs : List Char)
  /-- A character literal. -/
  | char (c : Char)
  /-- A quoted text. -/
  | text (cs : List Char)
  | comma
  deriving DecidableEq, Repr

/-- Where the lexer stands. -/
inductive LexMode where
  /-- Between pieces, or inside a word (its characters so far, last first). -/
  | plain (acc : List Char)
  /-- Inside a quoted text (its characters so far, last first). -/
  | text (acc : List Char)
  /-- After the opening quote of a character literal. -/
  | charOpen
  /-- After its character. -/
  | charClose (c : Char)
  deriving DecidableEq, Repr

/-- The word read so far, before the pieces that follow it. -/
def flushWord (acc : List Char) (rest : List Token) : List Token :=
  if acc.isEmpty then rest else .word acc.reverse :: rest

/-- Cut a line into pieces; `;` starts a comment (R320). -/
def lexLine : LexMode → List Char → Option (List Token)
  | .plain acc, [] => some (flushWord acc [])
  | .text _, [] => none
  | .charOpen, [] => none
  | .charClose _, [] => none
  | .text acc, c :: rest =>
    if c = '"' then (lexLine (.plain []) rest).map (.text acc.reverse :: ·) else lexLine (.text (c :: acc)) rest
  | .charOpen, c :: rest => lexLine (.charClose c) rest
  | .charClose c, d :: rest => if d = '\'' then (lexLine (.plain []) rest).map (.char c :: ·) else none
  | .plain acc, c :: rest =>
    if c = ';' then some (flushWord acc [])
    else if c = ' ' then (lexLine (.plain []) rest).map (flushWord acc)
    else if c = ',' then (lexLine (.plain []) rest).map (fun ts => flushWord acc (.comma :: ts))
    else if c = '"' then (lexLine (.text []) rest).map (flushWord acc)
    else if c = '\'' then (lexLine .charOpen rest).map (flushWord acc)
    else lexLine (.plain (c :: acc)) rest

/-- The value of a digit in a base up to 16. -/
def digitValue (base : Nat) (c : Char) : Option Nat :=
  let v :=
    if '0' ≤ c ∧ c ≤ '9' then c.toNat - '0'.toNat
    else if 'a' ≤ c ∧ c ≤ 'f' then c.toNat - 'a'.toNat + 10
    else if 'A' ≤ c ∧ c ≤ 'F' then c.toNat - 'A'.toNat + 10
    else base
  if v < base then some v else none

/-- The value of a non-empty run of digits, most significant first, on top of `acc`. -/
def digitsValue (base : Nat) : Nat → List Char → Option Nat
  | acc, [] => some acc
  | acc, c :: rest =>
    match digitValue base c with
    | some v => digitsValue base (base * acc + v) rest
    | none => none

/-- A decimal number or a `0x` hexadecimal one (R320). -/
def numberOf : List Char → Option Nat
  | [] => none
  | ['0', 'x'] => none
  | '0' :: 'x' :: ds => digitsValue 16 0 ds
  | ds => digitsValue 10 0 ds

/-- The byte code of a printable character (R320, spec/93_implementation_defined.md G2). -/
def printableByte (c : Char) : Option Byte :=
  if 0x20 ≤ c.toNat ∧ c.toNat ≤ 0x7E then some (BitVec.ofNat 8 c.toNat) else none

/-- A numeric operand: a number or a character literal (R320). -/
def operandOf : Token → Option Nat
  | .word cs => numberOf cs
  | .char c => (printableByte c).map BitVec.toNat
  | .text _ => none
  | .comma => none

/-- The operands of a line, separated by commas (R320). -/
def operandsOf : List Token → Option (List Nat)
  | [] => some []
  | [t] => (operandOf t).map ([·])
  | t :: .comma :: rest =>
    match operandOf t, operandsOf rest with
    | some v, some (w :: vs) => some (v :: w :: vs)
    | _, _ => none
  | _ :: _ => none

/-- How a mnemonic's line is written. -/
inductive LineForm where
  /-- No operand (format N, `DEC_L`, `DEC_R`). -/
  | none (i : Instr)
  /-- An IDX operand only. -/
  | idx (f : Index → Instr)
  /-- An IDX operand and an ARG operand; an omitted ARG is 0. -/
  | idxArg (f : Index → Word → Instr)
  /-- A quoted text. -/
  | text (f : List Byte → List Instr)

/-- The mnemonics of R315, R320 and the pseudo-instructions of R321. -/
def lineForms : List (List Char × LineForm) :=
  [(['N', 'O', 'P'], .none .nop),
   (['F', 'R', 'E', 'Q', '_', 'C', 'L', 'R'], .none .freqClr),
   (['F', 'R', 'E', 'Q', '_', 'W', 'R'], .idxArg .freqWr),
   (['F', 'R', 'E', 'Q', '_', 'R', 'D'], .idx .freqRd),
   (['B', 'U', 'I', 'L', 'D'], .none .build),
   (['G', 'E', 'N', 'L', 'U', 'T'], .none .genlut),
   (['N', 'O', 'D', 'E', '_', 'R', 'D'], .idxArg .nodeRd),
   (['L', 'U', 'T', '_', 'R', 'D'], .idxArg .lutRd),
   (['E', 'N', 'C', '_', 'S', 'T', 'A', 'R', 'T'], .none .encStart),
   (['E', 'N', 'C', '_', 'S', 'Y', 'M'], .idx .encSym),
   (['D', 'E', 'C', '_', 'S', 'T', 'A', 'R', 'T'], .none .decStart),
   (['D', 'E', 'C', '_', 'B', 'I', 'T'], .idx .decBit),
   (['D', 'E', 'C', '_', 'E', 'N', 'D'], .none .decEnd),
   (['S', 'T', 'A', 'T', 'U', 'S', '_', 'R', 'D'], .none .statusRd),
   (['D', 'E', 'C', '_', 'L'], .none pseudoDecL),
   (['D', 'E', 'C', '_', 'R'], .none pseudoDecR),
   (['L', 'U', 'T', '_', 'L', 'E', 'N'], .idx pseudoLutLen),
   (['E', 'N', 'C', '_', 'S', 'T', 'R'], .text pseudoEncStr),
   (['D', 'E', 'C', '_', 'S', 'T', 'R'], .text pseudoDecStr),
   (['F', 'R', 'E', 'Q', '_', 'L', 'O', 'A', 'D'], .text pseudoFreqLoad)]

/-- The bytes of a quoted text. -/
def textBytes : List Char → Option (List Byte)
  | [] => some []
  | c :: rest =>
    match printableByte c, textBytes rest with
    | some b, some bs => some (b :: bs)
    | _, _ => none

/-- The commands of a line whose mnemonic has the form given; an operand too wide for its field is refused. -/
def lineCommands (form : LineForm) (operands : List Token) : Option (List Instr) :=
  match form, operands with
  | .none i, [] => some [i]
  | .text f, [.text cs] => (textBytes cs).map f
  | .idx f, ts =>
    match operandsOf ts with
    | some [n] => if n < 2 ^ 9 then some [f (BitVec.ofNat 9 n)] else none
    | _ => none
  | .idxArg f, ts =>
    match operandsOf ts with
    | some [n] => if n < 2 ^ 9 then some [f (BitVec.ofNat 9 n) 0#32] else none
    | some [n, a] => if n < 2 ^ 9 ∧ a < 2 ^ 32 then some [f (BitVec.ofNat 9 n) (BitVec.ofNat 32 a)] else none
    | _ => none
  | .none _, _ :: _ => none
  | .text _, _ => none

/-- The commands of one line of text; an empty line or a comment has none (R320, R321). -/
def assembleLine (line : List Char) : Option (List Instr) :=
  match lexLine (.plain []) line with
  | none => none
  | some [] => some []
  | some (.word name :: operands) =>
    match lineForms.find? (fun f => f.1 == name) with
    | some f => lineCommands f.2 operands
    | none => none
  | some (_ :: _) => none

/-- The packets of one line. -/
def assemblePackets (line : List Char) : Option (List Packet) := (assembleLine line).map (List.map encode)

/-- One hexadecimal digit. -/
def hexDigit (v : BitVec 4) : Char :=
  if v.toNat < 10 then Char.ofNat ('0'.toNat + v.toNat) else Char.ofNat ('A'.toNat + (v.toNat - 10))

/-- A word as 8 hexadecimal digits. -/
def hexWord (w : Word) : List Char :=
  (List.range 8).map fun i => hexDigit (w.extractLsb' (28 - 4 * i) 4)

/-- The encoding of a packet as R320 writes it: `CMD ARG`. -/
def renderPacket (p : Packet) : List Char := hexWord p.cmd ++ [' '] ++ hexWord p.arg

end Sys2Proof.Machine
end

