-- ==== Sys2Proof/Safety.lean ====
section
/-! DEFINITION. What counts as a good state: the invariants the spec states (R116 to R135, R163, R311), the order
in which BUILD merges (R451, R460), and which parts of a state can be observed (R115, R116, R125). -/

namespace Sys2Proof.Machine

/-! ## Reading the tree -/

/-- The WEIGHT of a node as a number. -/
def State.weightOf (s : State) (n : Index) : Nat :=
  match s.nodeAt n with
  | some nd => nd.weight.toNat
  | none => 0

/-- The node a path of branches leads to from node `n`, through internal nodes only (R126). -/
def State.descend (s : State) : Index → List Bool → Option Index
  | n, [] => some n
  | n, b :: rest =>
    match s.nodeAt n with
    | some nd => if nd.leaf then none else s.descend (nd.child b) rest
    | none => none

/-- Entry `n` of NODE is one of the internal nodes LEAF_COUNT..ROOT (R117). -/
def State.innerAt (s : State) (n : Nat) : Prop := s.leafCount.toNat ≤ n ∧ n ≤ s.root.toNat

/-- Entry `m` of NODE is a child of entry `n`. -/
def State.childOf (s : State) (m n : Fin 511) : Prop :=
  s.node[n].left.toNat = m.val ∨ s.node[n].right.toNat = m.val

/-! ## The tree (R117, R118, R119) -/

/-- The valid region of NODE holds one Huffman tree, as R117 lists it. -/
structure TreeOk (s : State) : Prop where
  /-- R118: LEAF_COUNT is 2..256. -/
  count : 2 ≤ s.leafCount.toNat ∧ s.leafCount.toNat ≤ 256
  /-- R119: ROOT = 2·LEAF_COUNT − 2. -/
  rootIs : s.root.toNat = 2 * s.leafCount.toNat - 2
  /-- Entries 0..LEAF_COUNT−1 are leaves with WEIGHT ≥ 1 and LEFT = RIGHT = 0; a symbol is 0..256. -/
  leaves : ∀ i : Fin 511, i.val < s.leafCount.toNat →
    s.node[i].leaf = true ∧ s.node[i].left = 0#9 ∧ s.node[i].right = 0#9 ∧
      1 ≤ s.node[i].weight.toNat ∧ s.node[i].sym.toNat ≤ 256
  /-- Leaves stand in ascending SYM order, so their symbols are distinct. -/
  ascending : ∀ i j : Fin 511, i.val < j.val → j.val < s.leafCount.toNat →
    s.node[i].sym.toNat < s.node[j].sym.toNat
  /-- Entries LEAF_COUNT..ROOT are internal, over two earlier and different entries whose weights they sum. -/
  inner : ∀ n : Fin 511, s.innerAt n.val →
    s.node[n].leaf = false ∧ s.node[n].sym = 0#9 ∧ s.node[n].left.toNat < n.val ∧ s.node[n].right.toNat < n.val ∧
      s.node[n].left ≠ s.node[n].right ∧
      s.node[n].weight.toNat = s.weightOf s.node[n].left + s.weightOf s.node[n].right
  /-- Every entry but ROOT is the child of exactly one internal node. -/
  oneParent : ∀ m : Fin 511, m.val < s.root.toNat →
    ∃ n : Fin 511, s.innerAt n.val ∧ s.childOf m n ∧
      ∀ n' : Fin 511, s.innerAt n'.val → s.childOf m n' → n' = n

/-! ## The code table (R126) -/

/-- LUT is the code table of the tree in NODE (R126). -/
structure LutOk (s : State) : Prop where
  /-- A symbol with a leaf: the entry is the path from ROOT to the leaf, of length 1..255. -/
  present : ∀ i : Fin 511, i.val < s.leafCount.toNat →
    ∃ code : List Bool, 1 ≤ code.length ∧ code.length ≤ 255 ∧
      s.descend s.root code = some (BitVec.ofNat 9 i.val) ∧
      s.lut[s.node[i].sym.toNat]? = some (entryOf code)
  /-- A symbol without one: LEN = 0 and BITS = 0. -/
  absent : ∀ y : Fin 257, (∀ i : Fin 511, i.val < s.leafCount.toNat → s.node[i].sym.toNat ≠ y.val) →
    s.lut[y] = ⟨0#8, 0#255⟩

/-! ## The invariant of the machine -/

/-- A response as R311 and R312 allow it: a code 0..7, and DATA = 0 unless the code is OK. -/
def Response.legal (r : Response) : Prop := r.code.toNat ≤ 7 ∧ (r.code ≠ 0#4 → r.data = 0#32)

/-- What holds in every state a run from reset reaches, of the block built with parameters `p`. -/
structure InvWith (p : Params) (s : State) : Prop where
  /-- R14, R110: a FREQ entry is a number of W_F bits. -/
  freqFits : ∀ y : Fin 256, s.freq[y].toNat < 2 ^ p.wF
  /-- R15, R115: a WEIGHT of the tree is a number of W_N = W_F + 8 bits. -/
  weightsFit : s.treeValid = true → ∀ i : Fin 511, i.val ≤ s.root.toNat → s.node[i].weight.toNat < 2 ^ (p.wF + 8)
  /-- R117 to R119. -/
  tree : s.treeValid = true → TreeOk s
  /-- R118, R119, R131, R462: without a tree, LEAF_COUNT, ROOT, CURSOR and DEC_ERR are 0. -/
  noTree : s.treeValid = false → s.leafCount = 0#9 ∧ s.root = 0#9 ∧ s.cursor = 0#9 ∧ s.decErr = 0#4
  /-- R127: LUT_VALID implies TREE_VALID. -/
  lutNeedsTree : s.lutValid = true → s.treeValid = true
  /-- R126. -/
  lut : s.lutValid = true → LutOk s
  /-- R135: without a LUT, ENC_ERR is 0. -/
  noLut : s.lutValid = false → s.encErr = 0#4
  /-- R130: CURSOR is an internal node of the tree. -/
  cursor : s.treeValid = true → s.decErr = 0#4 → s.innerAt s.cursor.toNat
  /-- R131: DEC_ERR is 0, INVALID_BIT or TRUNCATED_INPUT. -/
  decErr : s.decErr = 0#4 ∨ s.decErr = 2#4 ∨ s.decErr = 3#4
  /-- R135: ENC_ERR is 0 or UNKNOWN_SYMBOL. -/
  encErr : s.encErr = 0#4 ∨ s.encErr = 4#4
  /-- R140: BOUT holds marker bytes only. -/
  bout : ∀ b ∈ s.bout, b = p.markL ∨ b = p.markR
  /-- R162: the host has taken no more bytes than were emitted. -/
  taken : s.boutTaken ≤ s.bout.length
  /-- R311, R312. -/
  waiting : ∀ r, s.rspch = some r → r.legal
  /-- R311, R312. -/
  answered : ∀ r ∈ s.rspTaken, r.legal
  /-- R163, R800, R801: while RESET is asserted the state is the reset state, and no response waits. NODE and LUT are
  unspecified there (R115, R125), and nothing is said of them. -/
  inReset : s.resetIn = true → s = { s.afterReset with node := s.node, lut := s.lut }

/-- The invariant at this hardware's parameters. -/
abbrev Inv (s : State) : Prop := InvWith Config.params s

/-! ## The order of merges (R451, R460 step 4) -/

/-- a ≺ b on entries of NODE (R451). -/
def State.precedes (s : State) (a b : Fin 511) : Prop :=
  s.node[a].weight.toNat < s.node[b].weight.toNat ∨
    (s.node[a].weight.toNat = s.node[b].weight.toNat ∧ a.val < b.val)

/-- Entry `j` is in the priority set P when entry `m` is made: it exists, and no internal node made before `m`
has it as a child (R460 step 4). -/
def State.unmergedAt (s : State) (m j : Fin 511) : Prop :=
  j.val < m.val ∧ ∀ n : Fin 511, s.leafCount.toNat ≤ n.val → n.val < m.val → ¬ s.childOf j n

/-- Entry `m` merges the two ≺-least entries of P, the first removed as LEFT and the second as RIGHT, and its WEIGHT is
their sum (R460 step 4). -/
def State.mergesTwoLeast (s : State) (m : Fin 511) : Prop :=
  ∃ a b : Fin 511,
    s.node[m] = ⟨false, 0#9, BitVec.ofNat 9 a.val, BitVec.ofNat 9 b.val, s.node[m].weight⟩ ∧
    s.node[m].weight.toNat = s.node[a].weight.toNat + s.node[b].weight.toNat ∧
    s.unmergedAt m a ∧ s.unmergedAt m b ∧ s.precedes a b ∧
    ∀ j : Fin 511, s.unmergedAt m j → j ≠ a → j ≠ b → s.precedes b j

/-! ## What can be observed -/

/-- Two states agree on everything a command or the host can observe: all of it but NODE outside the valid region
(R115, R116, R462), LUT while LUT_VALID = 0 (R125) and the model's draw counter. -/
structure SameObservable (s t : State) : Prop where
  rest : t = { s with node := t.node, lut := t.lut, draws := t.draws }
  node : s.treeValid = true → ∀ i : Fin 511, i.val ≤ s.root.toNat → t.node[i] = s.node[i]
  lut : s.lutValid = true → t.lut = s.lut

/-- Two step outcomes agree: the same kind, and next states that agree. -/
def SameOutcome : Result → Result → Prop
  | .next s, .next t => SameObservable s t
  | .fault e, .fault f => e = f
  | .refused e, .refused f => e = f
  | .next _, .fault _ => False
  | .next _, .refused _ => False
  | .fault _, .next _ => False
  | .fault _, .refused _ => False
  | .refused _, .next _ => False
  | .refused _, .fault _ => False

/-! ## Decoding a run of bits (R613) -/

/-- The commands `DEC_BIT` of a code word's markers, in order. -/
def decodeCommands (code : List Bool) : List Instr :=
  code.map fun b => .decBit ((markerOf Config.params b).setWidth 9)

end Sys2Proof.Machine
end

