-- ==== Sys2Proof/WellFormed.lean ====
section
/-! DEFINITION. Which commands are well formed: the operand ranges of R303 that do not depend on the state. -/

namespace Sys2Proof

/-- The legal operands of R303 for any parameters (a node index is checked against the last entry of NODE here; the check against
ROOT is the command's own, R470). A reserved opcode is no well-formed command (R316).
Decoding does not use this: an out-of-range operand is a RANGE error, not an illegal encoding (R303). -/
def Instr.wellFormedWith (p : Params) : Instr → Bool
  | .nop => true
  | .freqClr => true
  | .freqWr idx arg => idx.toNat ≤ 255 && arg.toNat < 2 ^ p.wF
  | .freqRd idx => idx.toNat ≤ 255
  | .build => true
  | .genlut => true
  | .nodeRd idx arg => idx.toNat ≤ 510 && arg.toNat ≤ 3
  | .lutRd idx arg => idx.toNat ≤ 256 && arg.toNat ≤ 8
  | .encStart => true
  | .encSym idx => idx.toNat ≤ 255
  | .decStart => true
  | .decBit idx => idx.toNat ≤ 255
  | .decEnd => true
  | .statusRd => true
  | .reservedE _ => false
  | .reservedF _ => false

/-- The legal operands of R303 at this hardware's W_F. -/
def Instr.wellFormed (i : Instr) : Bool := i.wellFormedWith Config.params

end Sys2Proof
end

