-- ==== Sys2Proof/Certificates/Slice0/Obligations.lean ====
section
/-! DEFINITION. The statements for the provers. Each docstring names the rule of spec/ it formalises. -/

open Sys2Proof Sys2Proof.Machine

/-! ## Encoding -/

/-- R301, R304, R315: decoding the packet of any command gives that command back, every operand at every value. That the
reserved opcodes are commands too is the model's choice (log entry 12), and so is ARG = 0 where ARG is ignored (log
entry 9). -/
def Obligations.DecodeOfEncodeIsIdentity : Prop :=
  ∀ i : Instr, decode (encode i) = .ok i

/-- R301, R303, R315: encoding what a packet decodes to gives its CMD word back, and its ARG where the command reads ARG. -/
def Obligations.EncodeOfDecodeKeepsPacket : Prop :=
  ∀ (p : Packet) (i : Instr), decode p = .ok i →
    (encode i).cmd = p.cmd ∧ (i.readsArg = true → (encode i).arg = p.arg)

/-- R305, R316: which packets are illegal, in numbers: opcodes 14 and 15, CMD[27:9] ≠ 0, and CMD[8:0] ≠ 0 in the format-N
opcodes of R304. Every other packet decodes to a command that is not reserved. The rules say of an illegal packet only that
it is ILLEGAL_CMD: that opcodes 14 and 15 decode to rows of their own and the others to a named refusal is the model's
choice (log entry 12). -/
def Obligations.IllegalPacketsAreThoseOfTheRule : Prop :=
  ∀ p : Packet,
    (∀ low, decode p = .ok (.reservedE low) ↔ p.cmd.toNat / 2 ^ 28 = 14 ∧ low = lowField p.cmd) ∧
    (∀ low, decode p = .ok (.reservedF low) ↔ p.cmd.toNat / 2 ^ 28 = 15 ∧ low = lowField p.cmd) ∧
    (decode p = .error .reservedBits ↔ p.cmd.toNat / 2 ^ 28 < 14 ∧ p.cmd.toNat / 2 ^ 9 % 2 ^ 19 ≠ 0) ∧
    (decode p = .error .indexInFormatN ↔
      p.cmd.toNat / 2 ^ 28 ∈ [0x0, 0x1, 0x4, 0x5, 0x8, 0xA, 0xC, 0xD] ∧
        p.cmd.toNat / 2 ^ 9 % 2 ^ 19 = 0 ∧ p.cmd.toNat % 2 ^ 9 ≠ 0)

/-- R315, R316: a CMD word matches at most one row of the opcode map, and a packet decodes exactly when its CMD word
matches a row, to that row's command. The map here is opcode_table.json's: the 14 rows of R315 and a row for each reserved
opcode, which R315 counts as no row; that these decode is the model's choice (log entry 12). -/
def Obligations.OpcodeMapSelectsTheCommand : Prop :=
  (∀ (cmd : Word), ∀ r ∈ opcodeRows, ∀ r' ∈ opcodeRows, r.selects cmd = true → r'.selects cmd = true → r = r') ∧
  (∀ (p : Packet) (i : Instr), decode p = .ok i → ∃ r ∈ opcodeRows, r.selects p.cmd = true ∧ r.op = i.op) ∧
  (∀ (p : Packet), ∀ r ∈ opcodeRows, r.selects p.cmd = true → ∃ i, decode p = .ok i ∧ i.op = r.op)

/-- R303: "Ignored" means the command reads no bit of ARG: its decoding is the same for every ARG. -/
def Obligations.IgnoredArgDoesNotChangeDecoding : Prop :=
  ∀ (cmd a b : Word) (i : Instr), decode ⟨cmd, a⟩ = .ok i → i.readsArg = false → decode ⟨cmd, b⟩ = .ok i

/-- R315, R316 and the examples of the command rules: a few packets written out in full decode to their commands, and three
illegal ones as the model chooses (log entry 12): two to a named refusal, and one of opcode 14 to its reserved row. -/
def Obligations.WrittenPacketsDecode : Prop :=
  decode ⟨0x2000006C#32, 3#32⟩ = .ok (.freqWr 0x6C#9 3#32) ∧
  decode ⟨0x40000000#32, 0#32⟩ = .ok .build ∧
  decode ⟨0x60000010#32, 1#32⟩ = .ok (.nodeRd 16#9 1#32) ∧
  decode ⟨0x7000006F#32, 0#32⟩ = .ok (.lutRd 0x6F#9 0#32) ∧
  decode ⟨0x90000068#32, 0#32⟩ = .ok (.encSym 0x68#9) ∧
  decode ⟨0xB0000132#32, 0#32⟩ = .ok (.decBit 0x132#9) ∧
  decode ⟨0xD0000000#32, 7#32⟩ = .ok .statusRd ∧
  decode ⟨0x20000200#32, 5#32⟩ = .error .reservedBits ∧
  decode ⟨0x00000001#32, 0#32⟩ = .error .indexInFormatN ∧
  decode ⟨0xE0000001#32, 0#32⟩ = .ok (.reservedE 1#28)

/-! ## The step and the channels -/

/-- R23, R164, R305: an idle core performs the oldest offered packet, decoded, on the state without that packet on CMDCH.
That it does so before the host's next move, whatever that is, is the model's choice (log entry 5). -/
def Obligations.StepPerformsTheDecodedCommand : Prop :=
  ∀ (s : State) (p : Packet) (rest : List Packet) (i : Instr),
    s.resetIn = false → s.rspch = none → s.cmdch = p :: rest → decode p = .ok i →
      step s = exec i { s with cmdch := rest }

/-- R704: a packet whose opcode is 14 or 15, whose CMD[27:9] is not 0, or which is of format N with CMD[8:0] ≠ 0 answers
ILLEGAL_CMD with DATA = 0, whatever the state, and changes nothing else; so do the reserved opcodes' rows (that they are
commands is log entry 12). That the packet is performed before the host's next move is the model's choice (log entry 5). -/
def Obligations.IllegalPacketsAnswerIllegalCmd : Prop :=
  (∀ (s : State) (p : Packet) (rest : List Packet),
    s.resetIn = false → s.rspch = none → s.cmdch = p :: rest →
      14 ≤ p.cmd.toNat / 2 ^ 28 ∨ p.cmd.toNat / 2 ^ 9 % 2 ^ 19 ≠ 0 ∨
        (p.cmd.toNat / 2 ^ 28 ∈ [0x0, 0x1, 0x4, 0x5, 0x8, 0xA, 0xC, 0xD] ∧ p.cmd.toNat % 2 ^ 9 ≠ 0) →
      step s = .next { s with cmdch := rest, rspch := some ⟨6#4, 0#32⟩ }) ∧
  (∀ (s : State) (low : BitVec 28), exec (.reservedE low) s = .next { s with rspch := some ⟨6#4, 0#32⟩ }) ∧
  (∀ (s : State) (low : BitVec 28), exec (.reservedF low) s = .next { s with rspch := some ⟨6#4, 0#32⟩ })

/-- R160, R164: a core that is not idle accepts no packet, and no offered packet is dropped or reordered. -/
def Obligations.BusyCoreKeepsOfferedPackets : Prop :=
  ∀ s t : State, (s.resetIn = true ∨ s.rspch.isSome = true) → step s = .next t →
    ∃ more : List Packet, t.cmdch = s.cmdch ++ more

/-- R769, R823: with no packet to accept and no move of the host left, the block waits with its state held; with a
response that is never taken it is stuck (that the stuck step is a fault is log entry 4). -/
def Obligations.WaitingBlockHoldsItsState : Prop :=
  (∀ s : State, s.rspch = none → s.hostMoves = [] → (s.resetIn = true ∨ s.cmdch = []) → step s = .next s) ∧
  (∀ (s : State) (r : Response), s.rspch = some r → s.hostMoves = [] → step s = .fault .stuck)

/-- R800 (with R801, R802): asserting RESET gives every core item its reset value, discards a waiting response and leaves
the offered packets with the host; releasing it changes only RESET, so the core is then idle in that state. The state right
after reset holds the same values. NODE and LUT are unspecified there and not mentioned. -/
def Obligations.ResetGivesTheResetValues : Prop :=
  (∀ s : State,
    let t := HostMove.apply .assertReset s
    (∀ y : Fin 256, t.freq[y] = 0#32) ∧ t.leafCount = 0#9 ∧ t.root = 0#9 ∧ t.treeValid = false ∧ t.lutValid = false ∧
      t.cursor = 0#9 ∧ t.decErr = 0#4 ∧ t.encErr = 0#4 ∧ t.bout = [] ∧ t.rspch = none ∧
      t.resetIn = true ∧ t.cmdch = s.cmdch ∧ t.status = 0#32 ∧
      HostMove.apply .releaseReset t = { t with resetIn := false }) ∧
  ((∀ y : Fin 256, State.reset.freq[y] = 0#32) ∧ State.reset.leafCount = 0#9 ∧ State.reset.root = 0#9 ∧
    State.reset.treeValid = false ∧ State.reset.lutValid = false ∧ State.reset.cursor = 0#9 ∧
    State.reset.decErr = 0#4 ∧ State.reset.encErr = 0#4 ∧ State.reset.bout = [] ∧ State.reset.status = 0#32)

/-- R140, R161, R162, R742, R769: no move of the host but RESET changes the core state; taking the response that waits
takes it whole, after every response taken before it. RESET leaves what the host has taken of RSPCH and its further moves
(the model's own record of the host, log entry 8). -/
def Obligations.HostMovesLeaveTheCoreState : Prop :=
  (∀ (m : HostMove) (s : State), m ≠ .assertReset →
    let t := m.apply s
    t = { s with cmdch := t.cmdch, rspch := t.rspch, rspTaken := t.rspTaken,
                 boutTaken := t.boutTaken, resetIn := t.resetIn }) ∧
  (∀ (s : State) (r : Response), s.rspch = some r →
    HostMove.apply .takeResponse s = { s with rspch := none, rspTaken := s.rspTaken ++ [r] }) ∧
  (∀ s : State,
    let t := HostMove.apply .assertReset s
    t.rspTaken = s.rspTaken ∧ t.hostMoves = s.hostMoves ∧ t.boutTaken = 0)

/-- R161, R310: a command that is performed produces one response and touches no other part of the channels, nor the model's
record of what the host has taken (log entry 8). -/
def Obligations.EveryCommandAnswersOnce : Prop :=
  ∀ (i : Instr) (s t : State), exec i s = .next t →
    (∃ r, t.rspch = some r) ∧ t.cmdch = s.cmdch ∧ t.rspTaken = s.rspTaken ∧ t.boutTaken = s.boutTaken ∧
      t.resetIn = s.resetIn ∧ t.hostMoves = s.hostMoves

/-! ## Control commands -/

/-- R650: NOP answers OK with DATA = 0 and changes nothing else. -/
def Obligations.NopChangesNothing : Prop :=
  (∀ arg, decode ⟨0x00000000#32, arg⟩ = .ok .nop) ∧
  ∀ s : State, exec .nop s = .next { s with rspch := some ⟨0#4, 0#32⟩ }

/-- R145, R651: STATUS_RD answers the status view, bit by bit, and changes nothing else. -/
def Obligations.StatusRdReadsEveryField : Prop :=
  (∀ arg, decode ⟨0xD0000000#32, arg⟩ = .ok .statusRd) ∧
  ∀ s : State, ∃ d : Word, exec .statusRd s = .next { s with rspch := some ⟨0#4, d⟩ } ∧
    d.getLsbD 0 = s.treeValid ∧ d.getLsbD 1 = s.lutValid ∧
    d.getLsbD 2 = (s.treeValid && s.cursor == s.root) ∧ d.getLsbD 3 = false ∧
    d.extractLsb' 4 4 = s.decErr ∧ d.extractLsb' 8 4 = s.encErr ∧ d.extractLsb' 12 9 = s.leafCount ∧
    d.extractLsb' 21 9 = s.cursor ∧ d.extractLsb' 30 2 = 0#2

/-! ## Frequency table -/

/-- R401: FREQ_CLR sets every entry to 0 and changes nothing else. -/
def Obligations.FreqClrZeroesEveryEntry : Prop :=
  (∀ arg, decode ⟨0x10000000#32, arg⟩ = .ok .freqClr) ∧
  ∀ s : State, ∃ t, exec .freqClr s = .next t ∧ (∀ y : Fin 256, t.freq[y] = 0#32) ∧
    t = { s with freq := t.freq, rspch := some ⟨0#4, 0#32⟩ }

/-- R402 at this hardware's W_F = 32, where every ARG fits: FREQ_WR writes one entry and changes nothing else;
a symbol above 255 answers RANGE and writes nothing. -/
def Obligations.FreqWrWritesOneEntry : Prop :=
  ∀ (s : State) (idx : Index) (arg : Word),
    decode ⟨0x20000000#32 ||| idx.setWidth 32, arg⟩ = .ok (.freqWr idx arg) ∧
    (∀ h : idx.toNat < 256, ∃ t, exec (.freqWr idx arg) s = .next t ∧ t.freq[idx.toNat] = arg ∧
      (∀ y : Fin 256, y.val ≠ idx.toNat → t.freq[y] = s.freq[y]) ∧
      t = { s with freq := t.freq, rspch := some ⟨0#4, 0#32⟩ }) ∧
    (255 < idx.toNat → exec (.freqWr idx arg) s = .next { s with rspch := some ⟨7#4, 0#32⟩ })

/-- R14, R402 for every legal W_F: the block built with that W_F writes a count exactly when it fits W_F bits, else answers
RANGE and writes nothing. Built with this hardware's parameters, the block's commands and steps are `exec` and `step`. -/
def Obligations.FreqWrChecksTheCountWidth : Prop :=
  (∀ (p : Params) (s : State) (idx : Index) (arg : Word), p.legal = true → idx.toNat ≤ 255 →
    (arg.toNat < 2 ^ p.wF → ∃ t, execWith p (.freqWr idx arg) s = .next t ∧
      (∀ y : Fin 256, t.freq[y] = if y.val = idx.toNat then arg else s.freq[y]) ∧
      t = { s with freq := t.freq, rspch := some ⟨0#4, 0#32⟩ }) ∧
    (2 ^ p.wF ≤ arg.toNat → execWith p (.freqWr idx arg) s = .next { s with rspch := some ⟨7#4, 0#32⟩ })) ∧
  (∀ (i : Instr) (s : State), execWith Config.params i s = exec i s) ∧
  (∀ s : State, stepWith Config.params s = step s)

/-- R403: FREQ_RD answers one entry and changes nothing else; a symbol above 255 answers RANGE. -/
def Obligations.FreqRdReadsOneEntry : Prop :=
  ∀ (s : State) (idx : Index),
    (∀ arg, decode ⟨0x30000000#32 ||| idx.setWidth 32, arg⟩ = .ok (.freqRd idx)) ∧
    (∀ h : idx.toNat < 256,
      exec (.freqRd idx) s = .next { s with rspch := some ⟨0#4, s.freq[idx.toNat]⟩ }) ∧
    (255 < idx.toNat → exec (.freqRd idx) s = .next { s with rspch := some ⟨7#4, 0#32⟩ })

/-! ## Tree builder -/

/-- R462: BUILD over an all-zero FREQ answers EMPTY_INPUT, discards the tree and both sessions, and touches neither
FREQ, LUT nor BOUT. NODE is then unspecified and not mentioned. -/
def Obligations.BuildOnEmptyTableDiscardsTheTree : Prop :=
  ∀ s : State, (∀ y : Fin 256, s.freq[y] = 0#32) →
    ∃ t, exec .build s = .next t ∧
      t = { s with node := t.node, leafCount := 0#9, root := 0#9, treeValid := false, lutValid := false, cursor := 0#9,
                   decErr := 0#4, encErr := 0#4, rspch := some ⟨1#4, 0#32⟩, draws := t.draws }

/-- R460 step 5 and its result word: BUILD over a non-empty FREQ completes; it sets TREE_VALID, clears LUT_VALID, DEC_ERR
and ENC_ERR, puts CURSOR at ROOT, answers LEAF_COUNT and ROOT, and touches neither FREQ, LUT nor BOUT. -/
def Obligations.BuildCommitsAndAnswers : Prop :=
  ∀ s : State, (∃ y : Fin 256, s.freq[y] ≠ 0#32) →
    ∃ t d, exec .build s = .next t ∧
      t = { s with node := t.node, leafCount := t.leafCount, root := t.root, treeValid := true, lutValid := false,
                   cursor := t.root, decErr := 0#4, encErr := 0#4, rspch := some ⟨0#4, d⟩, draws := t.draws } ∧
      d.toNat = t.leafCount.toNat * 2 ^ 16 + t.root.toNat

/-- R117, R118, R119: the valid region after a successful BUILD is one Huffman tree. -/
def Obligations.BuildMakesAHuffmanTree : Prop :=
  ∀ s t : State, exec .build s = .next t → t.treeValid = true → TreeOk t

/-- R460 steps 1 and 3, R453: the leaves are the symbols with non-zero frequency, each with its frequency as WEIGHT, and the
synthetic leaf (SYM 256, WEIGHT 1), as entry 1 of two leaves, exactly when one symbol only occurs. -/
def Obligations.BuildLeavesAreTheSymbolsThatOccur : Prop :=
  ∀ s t : State, exec .build s = .next t → t.treeValid = true →
    (∀ y : Fin 256, s.freq[y] ≠ 0#32 →
      ∃ i : Fin 511, i.val < t.leafCount.toNat ∧ t.node[i].sym.toNat = y.val ∧
        t.node[i].weight.toNat = s.freq[y].toNat) ∧
    (∀ i : Fin 511, i.val < t.leafCount.toNat →
      (∃ y : Fin 256, s.freq[y] ≠ 0#32 ∧ t.node[i] = ⟨true, BitVec.ofNat 9 y.val, 0#9, 0#9, s.freq[y].setWidth 40⟩) ∨
      (t.node[i] = ⟨true, 256#9, 0#9, 0#9, 1#40⟩ ∧ i.val = 1 ∧ t.leafCount.toNat = 2 ∧
        ∃ y : Fin 256, s.freq[y] ≠ 0#32 ∧ ∀ z : Fin 256, s.freq[z] ≠ 0#32 → z = y)) ∧
    (∀ y : Fin 256, s.freq[y] ≠ 0#32 → (∀ z : Fin 256, s.freq[z] ≠ 0#32 → z = y) →
      t.leafCount.toNat = 2 ∧ t.node[(1 : Fin 511)] = ⟨true, 256#9, 0#9, 0#9, 1#40⟩)

/-- R451, R460 step 4: every internal node merges the two ≺-least entries left in the priority set, the first removed as
LEFT, the second as RIGHT. Stated over the finished NODE, not over the loop. -/
def Obligations.BuildMergesTheTwoLeast : Prop :=
  ∀ s t : State, exec .build s = .next t → t.treeValid = true →
    ∀ m : Fin 511, t.innerAt m.val → t.mergesTwoLeast m

/-- R461: one symbol with frequency w: its leaf is entry 0, the synthetic leaf entry 1, the root entry 2; the symbol is the
RIGHT child (code word "1") when w ≥ 2 and the LEFT child (code word "0") when w = 1. -/
def Obligations.SingleSymbolGetsASyntheticSibling : Prop :=
  ∀ (s : State) (y : Fin 256), s.freq[y] ≠ 0#32 → (∀ z : Fin 256, z ≠ y → s.freq[z] = 0#32) →
    ∃ t, exec .build s = .next t ∧ t.leafCount = 2#9 ∧ t.root = 2#9 ∧
      t.node[0] = ⟨true, BitVec.ofNat 9 y.val, 0#9, 0#9, s.freq[y].setWidth 40⟩ ∧
      t.node[1] = ⟨true, 256#9, 0#9, 0#9, 1#40⟩ ∧
      (2 ≤ s.freq[y].toNat → t.node[2].left = 1#9 ∧ t.node[2].right = 0#9 ∧ t.descend t.root [true] = some 0#9) ∧
      (s.freq[y].toNat = 1 → t.node[2].left = 0#9 ∧ t.node[2].right = 1#9 ∧ t.descend t.root [false] = some 0#9)

/-- R463: the valid region, LEAF_COUNT and ROOT after a successful BUILD are a function of FREQ alone, in one block or
in two, whatever the rest of the state. -/
def Obligations.BuildDependsOnFreqAlone : Prop :=
  ∀ s s' t t' : State, s.freq = s'.freq → exec .build s = .next t → exec .build s' = .next t' →
    t.treeValid = t'.treeValid ∧ t.leafCount = t'.leafCount ∧ t.root = t'.root ∧
      (t.treeValid = true → ∀ i : Fin 511, i.val ≤ t.root.toNat → t.node[i] = t'.node[i])

/-- R464: the root's WEIGHT is the exact sum of all FREQ entries, plus 1 when the synthetic leaf was added: no sum of
weights wraps (R15). -/
def Obligations.RootWeightIsTheSumOfFreq : Prop :=
  ∀ s t : State, exec .build s = .next t → t.treeValid = true →
    t.weightOf t.root =
      (s.freq.toList.map BitVec.toNat).sum + (if (s.freq.toList.filter (· ≠ 0#32)).length = 1 then 1 else 0)

/-- R470: NODE_RD. NOT_READY without a tree; RANGE for n > ROOT or sel > 3; else the field group the selector
names. It changes nothing. (A node index has an entry below 511, R200; ROOT never exceeds 510, R119.) -/
def Obligations.NodeRdReadsOneFieldGroup : Prop :=
  ∀ (s : State) (idx : Index) (arg : Word),
    decode ⟨0x60000000#32 ||| idx.setWidth 32, arg⟩ = .ok (.nodeRd idx arg) ∧
    (s.treeValid = false → exec (.nodeRd idx arg) s = .next { s with rspch := some ⟨5#4, 0#32⟩ }) ∧
    (s.treeValid = true → s.root.toNat < idx.toNat ∨ 3 < arg.toNat →
      exec (.nodeRd idx arg) s = .next { s with rspch := some ⟨7#4, 0#32⟩ }) ∧
    (∀ h : idx.toNat < 511, s.treeValid = true → idx.toNat ≤ s.root.toNat → arg.toNat ≤ 3 →
      ∃ d : Word, exec (.nodeRd idx arg) s = .next { s with rspch := some ⟨0#4, d⟩ } ∧
        (arg = 0#32 → d.toNat = s.node[idx.toNat].leaf.toNat * 2 ^ 31 + s.node[idx.toNat].sym.toNat) ∧
        (arg = 1#32 → d.toNat = s.node[idx.toNat].right.toNat * 2 ^ 16 + s.node[idx.toNat].left.toNat) ∧
        (arg = 2#32 → d.toNat = s.node[idx.toNat].weight.toNat % 2 ^ 32) ∧
        (arg = 3#32 → d.toNat = s.node[idx.toNat].weight.toNat / 2 ^ 32))

/-! ## Code table -/

/-- R126, R501: GENLUT without a tree answers NOT_READY and writes nothing; with one it completes, sets LUT_VALID, and LUT
is the code table of the tree. It touches nothing else. -/
def Obligations.GenlutWritesTheCodeTable : Prop :=
  (∀ arg, decode ⟨0x50000000#32, arg⟩ = .ok .genlut) ∧
  ∀ s : State,
    (s.treeValid = false → exec .genlut s = .next { s with rspch := some ⟨5#4, 0#32⟩ }) ∧
    (s.treeValid = true → TreeOk s → ∃ t, exec .genlut s = .next t ∧ LutOk t ∧
      t = { s with lut := t.lut, lutValid := true, rspch := some ⟨0#4, 0#32⟩ })

/-- R465, R502: every leaf's code word has a length from 1 to LEAF_COUNT − 1, so at most 255. -/
def Obligations.CodeLengthsAreBounded : Prop :=
  ∀ s : State, Inv s → s.lutValid = true → ∀ i : Fin 511, i.val < s.leafCount.toNat →
    ∃ e : LutEntry, s.lut[s.node[i].sym.toNat]? = some e ∧ 1 ≤ e.len.toNat ∧ e.len.toNat < s.leafCount.toNat

/-- R503: no code word of the table begins another one. -/
def Obligations.NoCodeWordBeginsAnother : Prop :=
  ∀ s : State, Inv s → s.lutValid = true → ∀ y z : Fin 257, y ≠ z →
    s.lut[y].len ≠ 0#8 → s.lut[z].len ≠ 0#8 → ¬ s.lut[y].code.IsPrefix s.lut[z].code

/-- R504: the code words are complete: the 2^(−LEN) of the entries with LEN ≥ 1 sum to 1 (scaled by 2^255). -/
def Obligations.CodeWordsAreComplete : Prop :=
  ∀ s : State, Inv s → s.lutValid = true →
    ((s.lut.toList.filter fun e => e.len ≠ 0#8).map fun e => 2 ^ (255 - e.len.toNat)).sum = 2 ^ 255

/-- R208, R510: LUT_RD. NOT_READY without a LUT; RANGE for s > 256 or sel > 8; selector 8 is LEN, selector w the
code bits 32w..32w+31, bit 255 reading 0. It changes nothing. -/
def Obligations.LutRdReadsOnePart : Prop :=
  ∀ (s : State) (idx : Index) (arg : Word),
    decode ⟨0x70000000#32 ||| idx.setWidth 32, arg⟩ = .ok (.lutRd idx arg) ∧
    (s.lutValid = false → exec (.lutRd idx arg) s = .next { s with rspch := some ⟨5#4, 0#32⟩ }) ∧
    (s.lutValid = true → 256 < idx.toNat ∨ 8 < arg.toNat →
      exec (.lutRd idx arg) s = .next { s with rspch := some ⟨7#4, 0#32⟩ }) ∧
    (∀ h : idx.toNat < 257, s.lutValid = true → arg.toNat ≤ 8 →
      ∃ d : Word, exec (.lutRd idx arg) s = .next { s with rspch := some ⟨0#4, d⟩ } ∧
        (arg = 8#32 → d.toNat = s.lut[idx.toNat].len.toNat) ∧
        (arg ≠ 8#32 → ∀ j : Nat, j < 32 →
          d.getLsbD j = s.lut[idx.toNat].bits.getLsbD (32 * arg.toNat + j)))

/-! ## Encoder -/

/-- R551: ENC_START clears ENC_ERR, answers OK, and changes nothing else; BOUT is not cleared. -/
def Obligations.EncStartClearsTheError : Prop :=
  (∀ arg, decode ⟨0x80000000#32, arg⟩ = .ok .encStart) ∧
  ∀ s : State, exec .encStart s = .next { s with encErr := 0#4, rspch := some ⟨0#4, 0#32⟩ }

/-- R560: ENC_SYM, its checks in order, and its effect: one marker byte per code bit, BITS[0] first, DATA = LEN. -/
def Obligations.EncSymAppendsTheCodeWord : Prop :=
  ∀ (s : State) (idx : Index),
    (∀ arg, decode ⟨0x90000000#32 ||| idx.setWidth 32, arg⟩ = .ok (.encSym idx)) ∧
    (s.lutValid = false → exec (.encSym idx) s = .next { s with rspch := some ⟨5#4, 0#32⟩ }) ∧
    (s.lutValid = true → 255 < idx.toNat → exec (.encSym idx) s = .next { s with rspch := some ⟨7#4, 0#32⟩ }) ∧
    (s.lutValid = true → idx.toNat ≤ 255 → s.encErr ≠ 0#4 →
      exec (.encSym idx) s = .next { s with rspch := some ⟨s.encErr, 0#32⟩ }) ∧
    (∀ h : idx.toNat < 256, s.lutValid = true → s.encErr = 0#4 →
      (s.lut[idx.toNat].len = 0#8 →
        exec (.encSym idx) s = .next { s with encErr := 4#4, rspch := some ⟨4#4, 0#32⟩ }) ∧
      (s.lut[idx.toNat].len ≠ 0#8 → ∃ bytes : List Byte,
        exec (.encSym idx) s =
          .next { s with bout := s.bout ++ bytes, rspch := some ⟨0#4, s.lut[idx.toNat].len.setWidth 32⟩ } ∧
        bytes.length = s.lut[idx.toNat].len.toNat ∧
        ∀ i : Nat, i < s.lut[idx.toNat].len.toNat →
          bytes[i]? = some (if s.lut[idx.toNat].bits.getLsbD i then 0x31#8 else 0x30#8)))

/-! ## Decoder -/

/-- R601: DEC_START puts CURSOR at ROOT, clears DEC_ERR, answers OK, and changes nothing else. -/
def Obligations.DecStartReturnsToTheRoot : Prop :=
  (∀ arg, decode ⟨0xA0000000#32, arg⟩ = .ok .decStart) ∧
  ∀ s : State, exec .decStart s = .next { s with cursor := s.root, decErr := 0#4, rspch := some ⟨0#4, 0#32⟩ }

/-- R611: DEC_BIT, its checks in order, and its effect: from CURSOR to the child the marker names; on a leaf its symbol is
emitted and CURSOR returns to ROOT. (Entry 511 does not exist: CURSOR and the child have entries.) -/
def Obligations.DecBitWalksOneBranch : Prop :=
  ∀ (s : State) (idx : Index),
    (∀ arg, decode ⟨0xB0000000#32 ||| idx.setWidth 32, arg⟩ = .ok (.decBit idx)) ∧
    (s.treeValid = false → exec (.decBit idx) s = .next { s with rspch := some ⟨5#4, 0#32⟩ }) ∧
    (s.treeValid = true → 255 < idx.toNat → exec (.decBit idx) s = .next { s with rspch := some ⟨7#4, 0#32⟩ }) ∧
    (s.treeValid = true → idx.toNat ≤ 255 → s.decErr ≠ 0#4 →
      exec (.decBit idx) s = .next { s with rspch := some ⟨s.decErr, 0#32⟩ }) ∧
    (s.treeValid = true → idx.toNat ≤ 255 → s.decErr = 0#4 → idx.toNat ≠ 0x30 → idx.toNat ≠ 0x31 →
      exec (.decBit idx) s = .next { s with decErr := 2#4, rspch := some ⟨2#4, 0#32⟩ }) ∧
    (∀ here nxt : Node, s.treeValid = true → s.decErr = 0#4 → s.nodeAt s.cursor = some here →
      idx.toNat = 0x30 ∨ idx.toNat = 0x31 →
      s.nodeAt (if idx.toNat = 0x30 then here.left else here.right) = some nxt →
      (nxt.leaf = true → exec (.decBit idx) s =
        .next { s with cursor := s.root, rspch := some ⟨0#4, BitVec.ofNat 32 (2 ^ 9 + nxt.sym.toNat)⟩ }) ∧
      (nxt.leaf = false → exec (.decBit idx) s =
        .next { s with cursor := if idx.toNat = 0x30 then here.left else here.right, rspch := some ⟨0#4, 0#32⟩ }))

/-- R612: DEC_END, its checks in order: NOT_READY, the recorded error, TRUNCATED_INPUT off the root, else OK. -/
def Obligations.DecEndChecksTheCursor : Prop :=
  (∀ arg, decode ⟨0xC0000000#32, arg⟩ = .ok .decEnd) ∧
  ∀ s : State,
    (s.treeValid = false → exec .decEnd s = .next { s with rspch := some ⟨5#4, 0#32⟩ }) ∧
    (s.treeValid = true → s.decErr ≠ 0#4 → exec .decEnd s = .next { s with rspch := some ⟨s.decErr, 0#32⟩ }) ∧
    (s.treeValid = true → s.decErr = 0#4 → s.cursor ≠ s.root →
      exec .decEnd s = .next { s with decErr := 3#4, rspch := some ⟨3#4, 0#32⟩ }) ∧
    (s.treeValid = true → s.decErr = 0#4 → s.cursor = s.root →
      exec .decEnd s = .next { s with rspch := some ⟨0#4, 0#32⟩ })

/-- R615: an empty decode session answers OK and emits nothing. -/
def Obligations.EmptyDecodeSessionIsOk : Prop :=
  ∀ s : State, s.ready = true → s.treeValid = true → ∃ t,
    runCommands [.decStart, .decEnd] s = some ([⟨0#4, 0#32⟩, ⟨0#4, 0#32⟩], t) ∧
      t.cursor = s.root ∧ t.decErr = 0#4 ∧ t.bout = s.bout

/-! ## Who writes what -/

/-- R110, R400: only FREQ_WR and FREQ_CLR write FREQ, and they write nothing but FREQ. -/
def Obligations.OnlyFrequencyCommandsWriteFreq : Prop :=
  ∀ (i : Instr) (s t : State), exec i s = .next t →
    (t.freq ≠ s.freq → i = .freqClr ∨ ∃ idx arg, i = .freqWr idx arg) ∧
    ((i = .freqClr ∨ (∃ idx arg, i = .freqWr idx arg) ∨ ∃ idx, i = .freqRd idx) →
      t = { s with freq := t.freq, rspch := t.rspch })

/-- R450: BUILD is the only writer of NODE, LEAF_COUNT, ROOT and TREE_VALID. -/
def Obligations.OnlyBuildWritesTheTree : Prop :=
  ∀ (i : Instr) (s t : State), exec i s = .next t → i ≠ .build →
    t.node = s.node ∧ t.leafCount = s.leafCount ∧ t.root = s.root ∧ t.treeValid = s.treeValid

/-- R127, R231, R500: only GENLUT writes LUT and sets LUT_VALID; every BUILD clears LUT_VALID; nothing else touches it. -/
def Obligations.OnlyGenlutWritesTheLut : Prop :=
  ∀ (i : Instr) (s t : State), exec i s = .next t →
    (i ≠ .genlut → t.lut = s.lut) ∧ (i = .build → t.lutValid = false) ∧
    (i ≠ .genlut → i ≠ .build → t.lutValid = s.lutValid)

/-- R130, R131: only BUILD, DEC_START and DEC_BIT write CURSOR; only those and DEC_END write DEC_ERR. -/
def Obligations.OnlyDecoderCommandsWriteTheSession : Prop :=
  ∀ (i : Instr) (s t : State), exec i s = .next t →
    (t.cursor ≠ s.cursor → i = .build ∨ i = .decStart ∨ ∃ idx, i = .decBit idx) ∧
    (t.decErr ≠ s.decErr → i = .build ∨ i = .decStart ∨ i = .decEnd ∨ ∃ idx, i = .decBit idx)

/-- R135: only BUILD, ENC_START and ENC_SYM write ENC_ERR, and ENC_SYM writes only UNKNOWN_SYMBOL into it. -/
def Obligations.OnlyEncoderCommandsWriteEncErr : Prop :=
  ∀ (i : Instr) (s t : State), exec i s = .next t → t.encErr ≠ s.encErr →
    ((i = .build ∨ i = .encStart) ∧ t.encErr = 0#4) ∨ ((∃ idx, i = .encSym idx) ∧ t.encErr = 4#4)

/-- R140: only ENC_SYM appends to BOUT, it appends marker bytes, and no command removes, reorders or clears any. -/
def Obligations.OnlyEncSymAppendsToBout : Prop :=
  ∀ (i : Instr) (s t : State), exec i s = .next t →
    ∃ bytes : List Byte, t.bout = s.bout ++ bytes ∧ (∀ b ∈ bytes, b = 0x30#8 ∨ b = 0x31#8) ∧
      (bytes ≠ [] → ∃ idx, i = .encSym idx)

/-! ## Errors -/

/-- R705: which commands need a tree or a LUT; without it they answer NOT_READY and change nothing; no other command ever
answers NOT_READY, and, in a state with the invariant, they answer it only without what they need. -/
def Obligations.NotReadyExactlyWhereTheRuleSays : Prop :=
  ∀ s : State,
    (s.treeValid = false →
      (∀ i, (i = .genlut ∨ (∃ idx arg, i = .nodeRd idx arg) ∨ (∃ idx, i = .decBit idx) ∨ i = .decEnd) →
        exec i s = .next { s with rspch := some ⟨5#4, 0#32⟩ })) ∧
    (s.lutValid = false →
      (∀ i, ((∃ idx arg, i = .lutRd idx arg) ∨ ∃ idx, i = .encSym idx) →
        exec i s = .next { s with rspch := some ⟨5#4, 0#32⟩ })) ∧
    (∀ i t, exec i s = .next t → (∃ d, t.rspch = some ⟨5#4, d⟩) →
      i = .genlut ∨ (∃ idx arg, i = .nodeRd idx arg) ∨ (∃ idx, i = .decBit idx) ∨ i = .decEnd ∨
        (∃ idx arg, i = .lutRd idx arg) ∨ ∃ idx, i = .encSym idx) ∧
    (Inv s → ∀ i t, exec i s = .next t →
      ((∃ d, t.rspch = some ⟨5#4, d⟩) ↔
        (s.treeValid = false ∧
          (i = .genlut ∨ (∃ idx arg, i = .nodeRd idx arg) ∨ (∃ idx, i = .decBit idx) ∨ i = .decEnd)) ∨
        (s.lutValid = false ∧ ((∃ idx arg, i = .lutRd idx arg) ∨ ∃ idx, i = .encSym idx))))

/-- R706: exactly when a command answers RANGE, in a state with the invariant (at W_F = 32 every count fits); it then
changes nothing. So a command whose operands are well formed (R303) answers it only when it is NODE_RD above ROOT. -/
def Obligations.RangeExactlyWhereTheRuleSays : Prop :=
  ∀ (i : Instr) (s t : State), Inv s → exec i s = .next t →
    ((∃ d, t.rspch = some ⟨7#4, d⟩) ↔
      (∃ idx arg, i = .freqWr idx arg ∧ 255 < idx.toNat) ∨ (∃ idx, i = .freqRd idx ∧ 255 < idx.toNat) ∨
      (∃ idx, i = .encSym idx ∧ s.lutValid = true ∧ 255 < idx.toNat) ∨
      (∃ idx, i = .decBit idx ∧ s.treeValid = true ∧ 255 < idx.toNat) ∨
      (∃ idx arg, i = .nodeRd idx arg ∧ s.treeValid = true ∧ (s.root.toNat < idx.toNat ∨ 3 < arg.toNat)) ∨
      (∃ idx arg, i = .lutRd idx arg ∧ s.lutValid = true ∧ (256 < idx.toNat ∨ 8 < arg.toNat))) ∧
    ((∃ d, t.rspch = some ⟨7#4, d⟩) → t = { s with rspch := some ⟨7#4, 0#32⟩ }) ∧
    (i.wellFormed = true → (∃ d, t.rspch = some ⟨7#4, d⟩) →
      ∃ idx arg, i = .nodeRd idx arg ∧ s.root.toNat < idx.toNat)

/-- R312, R710: DATA = 0 with an error code, and an error changes only what the rule lists: DEC_ERR by INVALID_BIT and
TRUNCATED_INPUT, ENC_ERR by UNKNOWN_SYMBOL, the writes of R462 by EMPTY_INPUT. -/
def Obligations.ErrorsChangeOnlyWhatTheRuleLists : Prop :=
  ∀ (i : Instr) (s t : State) (r : Response), exec i s = .next t → t.rspch = some r → r.code ≠ 0#4 →
    r.data = 0#32 ∧
    (t = { s with rspch := some r } ∨
      ((∃ idx, i = .decBit idx) ∧ r.code = 2#4 ∧ t = { s with decErr := 2#4, rspch := some r }) ∨
      (i = .decEnd ∧ r.code = 3#4 ∧ t = { s with decErr := 3#4, rspch := some r }) ∨
      ((∃ idx, i = .encSym idx) ∧ r.code = 4#4 ∧ t = { s with encErr := 4#4, rspch := some r }) ∨
      (i = .build ∧ r.code = 1#4 ∧
        t = { s with node := t.node, leafCount := 0#9, root := 0#9, treeValid := false, lutValid := false, cursor := 0#9,
                     decErr := 0#4, encErr := 0#4, rspch := some r, draws := t.draws }))

/-- R711: while DEC_ERR ≠ 0, DEC_BIT and DEC_END past their checks answer it and change nothing; so ENC_SYM and
ENC_ERR. DEC_ERR is cleared only by DEC_START, BUILD and RESET, ENC_ERR only by ENC_START, BUILD and RESET. -/
def Obligations.StickyErrorsAnswerAgain : Prop :=
  ∀ s : State,
    (s.treeValid = true → s.decErr ≠ 0#4 →
      (∀ idx : Index, idx.toNat ≤ 255 → exec (.decBit idx) s = .next { s with rspch := some ⟨s.decErr, 0#32⟩ }) ∧
      exec .decEnd s = .next { s with rspch := some ⟨s.decErr, 0#32⟩ }) ∧
    (s.lutValid = true → s.encErr ≠ 0#4 →
      ∀ idx : Index, idx.toNat ≤ 255 → exec (.encSym idx) s = .next { s with rspch := some ⟨s.encErr, 0#32⟩ }) ∧
    (∀ i t, exec i s = .next t →
      (s.decErr ≠ 0#4 → t.decErr = 0#4 → i = .decStart ∨ i = .build) ∧
      (s.encErr ≠ 0#4 → t.encErr = 0#4 → i = .encStart ∨ i = .build)) ∧
    (∀ m : HostMove, (m.apply s).decErr ≠ s.decErr ∨ (m.apply s).encErr ≠ s.encErr → m = .assertReset)

/-- R715: the first check of the list that applies is the one reported, shown where two of them apply at once. -/
def Obligations.ChecksAreReportedInOrder : Prop :=
  ∀ (s : State) (idx : Index) (arg : Word),
    (s.treeValid = false → 255 < idx.toNat → exec (.decBit idx) s = .next { s with rspch := some ⟨5#4, 0#32⟩ }) ∧
    (s.lutValid = false → 255 < idx.toNat → exec (.encSym idx) s = .next { s with rspch := some ⟨5#4, 0#32⟩ }) ∧
    (s.treeValid = false → 3 < arg.toNat → exec (.nodeRd idx arg) s = .next { s with rspch := some ⟨5#4, 0#32⟩ }) ∧
    (s.lutValid = false → 8 < arg.toNat → exec (.lutRd idx arg) s = .next { s with rspch := some ⟨5#4, 0#32⟩ }) ∧
    (s.treeValid = true → s.decErr ≠ 0#4 → 255 < idx.toNat →
      exec (.decBit idx) s = .next { s with rspch := some ⟨7#4, 0#32⟩ }) ∧
    (s.lutValid = true → s.encErr ≠ 0#4 → 255 < idx.toNat →
      exec (.encSym idx) s = .next { s with rspch := some ⟨7#4, 0#32⟩ }) ∧
    (s.treeValid = true → s.decErr ≠ 0#4 → s.cursor ≠ s.root →
      exec .decEnd s = .next { s with rspch := some ⟨s.decErr, 0#32⟩ })

/-! ## Idempotency -/

/-- R213: the reading commands and the idempotent writers, performed twice, leave the state of performing them once and
answer the same. -/
def Obligations.RepeatingTheseCommandsChangesNothing : Prop :=
  ∀ (i : Instr) (s t : State), exec i s = .next t →
    (i = .nop ∨ i = .statusRd ∨ (∃ idx, i = .freqRd idx) ∨ (∃ idx arg, i = .nodeRd idx arg) ∨
      (∃ idx arg, i = .lutRd idx arg) → t = { s with rspch := t.rspch } ∧ exec i t = .next t) ∧
    (i = .freqClr ∨ (∃ idx arg, i = .freqWr idx arg) ∨ i = .encStart ∨ i = .decStart ∨ i = .genlut →
      exec i t = .next t)

/-! ## The host's sequences -/

/-- R430, R431: `FREQ_LOAD` of a text whose counts fit W_F bits loads, for every symbol, how often it occurs in the text,
every command answering OK, and touches nothing but FREQ. -/
def Obligations.FreqLoadLoadsTheCounts : Prop :=
  ∀ (x : List Byte) (s : State), s.ready = true → (∀ y : Byte, x.count y < 2 ^ 32) →
    ∃ rs t, runCommands (pseudoFreqLoad x) s = some (rs, t) ∧ (∀ r ∈ rs, r = ⟨0#4, 0#32⟩) ∧
      (∀ y : Fin 256, t.freq[y].toNat = x.count (BitVec.ofNat 8 y.val)) ∧
      t = { s with freq := t.freq, rspch := t.rspch, rspTaken := t.rspTaken }

/-- R206, R613, R616 for one symbol: from ROOT, the DEC_BITs of a symbol's code word answer OK, emit that symbol at the last
bit and nothing before it, and return CURSOR to ROOT. -/
def Obligations.DecodingACodeWordEmitsItsSymbol : Prop :=
  ∀ (s : State) (y : Fin 257), Inv s → s.ready = true → s.lutValid = true → s.decErr = 0#4 → s.cursor = s.root → s.lut[y].len ≠ 0#8 →
    ∃ rs t, runCommands (decodeCommands s.lut[y].code) s = some (rs, t) ∧
      rs = List.replicate (s.lut[y].len.toNat - 1) ⟨0#4, 0#32⟩ ++ [⟨0#4, BitVec.ofNat 32 (2 ^ 9 + y.val)⟩] ∧
      t = { s with rspch := t.rspch, rspTaken := t.rspTaken }

/-- R613: a decode session over any bytes. Up to the first byte that is no marker every DEC_BIT answers OK; that byte and
every later command of the session answer INVALID_BIT. When every byte is a marker, DEC_END answers OK or TRUNCATED_INPUT
as the bytes do or do not end at the root. In both cases the emitted symbols are those of the code words the markers are
made of: `left` is the code word left open, which leads to an internal node, so no longer prefix is made of code words. -/
def Obligations.DecodingASequence : Prop :=
  ∀ (s : State) (marks : List Bool), Inv s → s.ready = true → s.treeValid = true →
    (∃ rs t words left, runCommands (.decStart :: decodeCommands marks ++ [.decEnd]) s = some (rs, t) ∧
      marks = words.flatten ++ left ∧ s.descend s.root left = some t.cursor ∧ s.innerAt t.cursor.toNat ∧
      List.Forall₂ (fun w y => ∃ i : Fin 511, i.val < s.leafCount.toNat ∧
        s.descend s.root w = some (BitVec.ofNat 9 i.val) ∧ s.node[i].sym = y) words (emittedSymbols rs) ∧
      ((left = [] ∧ rs.map Response.code = List.replicate (marks.length + 2) 0#4) ∨
        (left ≠ [] ∧ rs.map Response.code = List.replicate (marks.length + 1) 0#4 ++ [3#4] ∧ t.decErr = 3#4))) ∧
    (∀ (bad : Byte) (rest : List Byte), bad ≠ 0x30#8 → bad ≠ 0x31#8 →
      ∃ rs t words left,
        runCommands (.decStart :: decodeCommands marks ++ pseudoDecStr (bad :: rest) ++ [.decEnd]) s = some (rs, t) ∧
        marks = words.flatten ++ left ∧ s.descend s.root left = some t.cursor ∧ s.innerAt t.cursor.toNat ∧
        List.Forall₂ (fun w y => ∃ i : Fin 511, i.val < s.leafCount.toNat ∧
          s.descend s.root w = some (BitVec.ofNat 9 i.val) ∧ s.node[i].sym = y) words (emittedSymbols rs) ∧
        rs.map Response.code = List.replicate (marks.length + 1) 0#4 ++ List.replicate (rest.length + 2) 2#4)

/-- R561: compressing a byte sequence answers OK throughout and appends exactly the markers of its symbols' code words, in
order; their number is the sum over the symbols of count times code length. -/
def Obligations.EncodingASequenceAppendsItsCodeWords : Prop :=
  ∀ (x : List Byte) (s : State), s.ready = true → x ≠ [] → (∀ y : Byte, x.count y < 2 ^ 32) →
    ∃ rs t bytes, runCommands (compressCommands x) s = some (rs, t) ∧ (∀ r ∈ rs, r.code = 0#4) ∧ t.lutValid = true ∧
      t.bout = s.bout ++ bytes ∧
      bytes = x.flatMap (fun c => (t.lut[c.toNat]'(Nat.lt_succ_of_lt c.isLt)).code.map
        fun b => if b then 0x31#8 else 0x30#8) ∧
      bytes.length = ((List.finRange 256).map fun y => t.freq[y].toNat * t.lut[y.val].len.toNat).sum

/-- R616: for every non-empty byte sequence whose counts fit W_F bits, compressing it, on any block ready for it, answers
OK to every command; decoding the bytes it appended to BOUT, in the state it leaves, answers OK to every command and emits
the sequence back; and so does decompressing them in any ready block `u`, which loads the same FREQ and builds again (R740). -/
def Obligations.DecompressInvertsCompress : Prop :=
  ∀ (x : List Byte) (s : State), s.ready = true → x ≠ [] → (∀ y : Byte, x.count y < 2 ^ 32) →
    ∃ rs t bytes, runCommands (compressCommands x) s = some (rs, t) ∧ (∀ r ∈ rs, r.code = 0#4) ∧
      t.bout = s.bout ++ bytes ∧
      (∃ rs' t', runCommands (.decStart :: pseudoDecStr bytes ++ [.decEnd]) t = some (rs', t') ∧
        (∀ r ∈ rs', r.code = 0#4) ∧ emittedSymbols rs' = x.map (·.setWidth 9)) ∧
      (∀ u : State, u.ready = true → ∃ rs' t', runCommands (decompressCommands (countsOf x) bytes) u = some (rs', t') ∧
        (∀ r ∈ rs', r.code = 0#4) ∧ emittedSymbols rs' = x.map (·.setWidth 9))

/-! ## Invariants of the machine -/

/-- R800, R110 to R140: the invariant holds right after reset, whatever the parameters. What it says of the channels and of
what the host has taken rests there on values the model chose (log entry 8). -/
def Obligations.ResetSatisfiesTheInvariant : Prop := Inv State.reset ∧ ∀ p : Params, InvWith p State.reset

/-- R14, R15, R117, R118, R119, R126, R127, R130, R131, R135, R140, R163, R311, R312: every step keeps the invariant, from
every state that has it, of this hardware and of the block built with any parameters. Its clauses on what the host has taken
speak of the model's own record (log entry 8); while RESET is asserted nothing is said of NODE and LUT (R800). -/
def Obligations.EveryStepKeepsTheInvariant : Prop :=
  (∀ s t : State, Inv s → step s = .next t → Inv t) ∧
  (∀ (p : Params) (s t : State), InvWith p s → stepWith p s = .next t → InvWith p t)

/-- R212, R743, R830: in a state with the invariant every command completes; a step stops only on the host that never takes
a response (R823; that it is a fault is log entry 4); and the run of every program, its packets legal or not, ends on a ready
block, with one response for each packet, and is what the machine's steps do with a host that takes each response (in the
order of log entry 5, the run as log entry 19 has it, what was taken as log entry 8 records it). A block that is not ready holds the first command: the run does not
end. -/
def Obligations.EveryCommandCompletes : Prop :=
  (∀ s : State, Inv s →
    (∀ i : Instr, ∃ t, exec i s = .next t) ∧
    ((∃ t, step s = .next t) ∨ (s.rspch.isSome = true ∧ s.hostMoves = [])) ∧
    (s.ready = true → ∀ program : List Packet, ∃ r, runProgram program s = some r ∧
      r.responses.length = program.length ∧ r.final.rspTaken = s.rspTaken ++ r.responses ∧
      r.final.bout = s.bout ++ r.bytes ∧
      Sys2Proof.core.run (2 * program.length)
        { s with cmdch := program, hostMoves := List.replicate program.length .takeResponse } =
          .next { r.final with hostMoves := [] })) ∧
  (∀ (s : State) (p : Packet) (rest : List Packet), s.ready = false → runProgram (p :: rest) s = none) ∧
  (∀ (s : State) (commands : List Instr), runPackets (commands.map encode) s = runCommands commands s)

/-- R115, R116, R125, R462: what the spec leaves unspecified is never observed: two states that agree on everything else
step alike, whatever NODE holds outside the valid region, LUT while LUT_VALID = 0, and the free values. -/
def Obligations.UnspecifiedContentsAreNeverObserved : Prop :=
  ∀ s t : State, Inv s → SameObservable s t → SameOutcome (step s) (step t)
end

