-- ==== Sys2Proof/Laws/Decode.lean ====
section
/-! SUPPORT. The fields of CMD and the words of a command as numbers, and the two forms a decoding takes. -/

namespace Sys2Proof

theorem opField_toNat (cmd : Word) : (opField cmd).toNat = cmd.toNat / 2 ^ 28 := by
  simp only [opField, BitVec.extractLsb'_toNat, Nat.shiftRight_eq_div_pow]
  omega

theorem rsvField_toNat (cmd : Word) : (rsvField cmd).toNat = cmd.toNat / 2 ^ 9 % 2 ^ 19 := by
  simp only [rsvField, BitVec.extractLsb'_toNat, Nat.shiftRight_eq_div_pow]

theorem idxField_toNat (cmd : Word) : (idxField cmd).toNat = cmd.toNat % 2 ^ 9 := by
  simp only [idxField, BitVec.extractLsb'_toNat, Nat.shiftRight_zero]

theorem lowField_toNat (cmd : Word) : (lowField cmd).toNat = cmd.toNat % 2 ^ 28 := by
  simp only [lowField, BitVec.extractLsb'_toNat, Nat.shiftRight_zero]

theorem append_toNat {m n : Nat} (x : BitVec m) (y : BitVec n) : (x ++ y).toNat = x.toNat * 2 ^ n + y.toNat := by
  rw [BitVec.toNat_append, Nat.shiftLeft_eq, Nat.mul_comm, ← Nat.two_pow_add_eq_or_of_lt y.isLt]

theorem cmdI_toNat (op : BitVec 4) (idx : Index) : (cmdI op idx).toNat = op.toNat * 2 ^ 28 + idx.toNat := by
  have h : (op ++ 0#19 ++ idx).toNat = op.toNat * 2 ^ 28 + idx.toNat := by
    rw [append_toNat, append_toNat, BitVec.toNat_ofNat, Nat.zero_mod, Nat.add_zero, Nat.mul_assoc, ← Nat.pow_add]
  exact h

theorem cmdN_toNat (op : BitVec 4) : (cmdN op).toNat = op.toNat * 2 ^ 28 := by
  have h : (op ++ 0#28).toNat = op.toNat * 2 ^ 28 := by
    rw [append_toNat, BitVec.toNat_ofNat, Nat.zero_mod, Nat.add_zero]
  exact h

/-- What a successful decoding says (R305): the opcode's row, and the checks that let it through. -/
theorem decode_eq_ok (p : Packet) (i : Instr) :
    decode p = .ok i ↔
      instrOf (opField p.cmd) (lowField p.cmd) (idxField p.cmd) p.arg = i ∧
        (reservedOp (opField p.cmd) = true ∨
          (rsvField p.cmd = 0#19 ∧ (formatN (opField p.cmd) = true → idxField p.cmd = 0#9))) := by
  unfold decode
  split_ifs with h1 h2 h3
  · simp [h1]
  · simp [h1, h2]
  · simp_all
  · simp_all

/-! ## The fields of an encoded command -/

theorem opField_cmdI (op : BitVec 4) (idx : Index) : opField (cmdI op idx) = op := by
  apply BitVec.eq_of_toNat_eq; rw [opField_toNat, cmdI_toNat]; omega

theorem rsvField_cmdI (op : BitVec 4) (idx : Index) : rsvField (cmdI op idx) = 0#19 := by
  apply BitVec.eq_of_toNat_eq; rw [rsvField_toNat, cmdI_toNat, BitVec.toNat_ofNat, Nat.zero_mod]; omega

theorem idxField_cmdI (op : BitVec 4) (idx : Index) : idxField (cmdI op idx) = idx := by
  apply BitVec.eq_of_toNat_eq; rw [idxField_toNat, cmdI_toNat]; omega

theorem opField_low (op : BitVec 4) (low : BitVec 28) : opField (op ++ low) = op := by
  apply BitVec.eq_of_toNat_eq; rw [opField_toNat, append_toNat]; omega

theorem lowField_low (op : BitVec 4) (low : BitVec 28) : lowField (op ++ low) = low := by
  apply BitVec.eq_of_toNat_eq; rw [lowField_toNat, append_toNat]; omega

/-! ## The masks of the opcode map (R315) -/

theorem and_mask_high (c m : Word) (k : Nat) (hm : ∀ i < 32, m.getLsbD i = decide (k ≤ i)) :
    (c &&& m).toNat = c.toNat / 2 ^ k * 2 ^ k := by
  have h2 : c &&& m = (c >>> k) <<< k := by
    apply BitVec.eq_of_getLsbD_eq
    intro i hi
    simp only [BitVec.getLsbD_and, hm i hi, BitVec.getLsbD_shiftLeft, BitVec.getLsbD_ushiftRight, hi]
    by_cases h : k ≤ i
    · simp [h, Nat.not_lt.2 h, Nat.add_sub_cancel' h]
    · simp [h, Nat.lt_of_not_le h]
  rw [h2, BitVec.toNat_shiftLeft, BitVec.toNat_ushiftRight, Nat.shiftLeft_eq, Nat.shiftRight_eq_div_pow]
  exact Nat.mod_eq_of_lt (Nat.lt_of_le_of_lt (Nat.div_mul_le_self _ _) c.isLt)

/-- When a CMD word matches a row of the opcode map, in terms of its fields. -/
theorem selects_iff (c : Word) (r : OpcodeRow) (hr : r ∈ opcodeRows) :
    r.selects c = true ↔
      opField c = r.op ∧
        (reservedOp r.op = true ∨ (rsvField c = 0#19 ∧ (formatN r.op = true → idxField c = 0#9))) := by
  have e1 := opField_toNat c
  have e2 := rsvField_toNat c
  have e3 := idxField_toNat c
  have m0 := and_mask_high c 0xFFFFFFFF#32 0 (by decide)
  have m1 := and_mask_high c 0xFFFFFE00#32 9 (by decide)
  have m2 := and_mask_high c 0xF0000000#32 28 (by decide)
  simp only [Nat.reducePow, Nat.div_one, Nat.mul_one] at e1 e2 e3 m0 m1 m2
  simp only [opcodeRows, List.mem_cons, List.not_mem_nil, or_false] at hr
  rcases hr with h | h | h | h | h | h | h | h | h | h | h | h | h | h | h | h <;> subst h <;>
    simp only [OpcodeRow.selects, reservedOp, formatN, BitVec.toNat_eq, m0, m1, m2, e1, e2, e3, beq_iff_eq] <;>
    simp <;> omega

end Sys2Proof
end

