-- ==== Sys2Proof/Laws/Builder.lean ====
section
/-! SUPPORT. The tree builder on lists of nodes: the ≺-least element, one merge, the merge loop (R451, R460, R464). -/

namespace Sys2Proof.Machine

/-! ## The priority order (R451) -/

theorem Ranked.before_iff (a b : Ranked) :
    a.before b = true ↔
      a.weight.toNat < b.weight.toNat ∨ (a.weight.toNat = b.weight.toNat ∧ a.idx.toNat < b.idx.toNat) := by
  simp only [Ranked.before, Bool.or_eq_true, decide_eq_true_eq, Bool.and_eq_true, beq_iff_eq, BitVec.toNat_eq]

theorem Ranked.ext_toNat (a b : Ranked) (hw : a.weight.toNat = b.weight.toNat) (hi : a.idx.toNat = b.idx.toNat) :
    a = b := by
  cases a; cases b
  simp only [Ranked.mk.injEq, BitVec.toNat_eq]
  exact ⟨hw, hi⟩

/-- ≺ is total on different elements. -/
theorem Ranked.before_of_not (a b : Ranked) (hne : a ≠ b) (h : ¬ b.before a = true) : a.before b = true := by
  rw [Ranked.before_iff] at h ⊢
  have hi : a.weight.toNat = b.weight.toNat → a.idx.toNat ≠ b.idx.toNat := fun hw hi => hne (a.ext_toNat b hw hi)
  omega

/-- `leastRanked` gives the ≺-least element. -/
theorem leastRanked_spec (pri : List Ranked) (x : Ranked) (h : leastRanked pri = some x) :
    x ∈ pri ∧ ∀ y ∈ pri, y ≠ x → x.before y = true := by
  induction pri generalizing x with
  | nil => simp [leastRanked] at h
  | cons z zs ih =>
    cases hz : leastRanked zs with
    | none =>
      have hn : zs = [] := by
        cases zs with
        | nil => rfl
        | cons w ws =>
          simp only [leastRanked] at hz
          split at hz
          · cases hz
          · split at hz <;> cases hz
      simp only [leastRanked, hz, Option.some.injEq] at h
      subst h; subst hn
      exact ⟨by simp, fun y hy hne => absurd (by simpa using hy) hne⟩
    | some y =>
      obtain ⟨hy, hl⟩ := ih y hz
      simp only [leastRanked, hz] at h
      by_cases hzy : z.before y = true
      · rw [if_pos hzy] at h
        cases h
        refine ⟨by simp, fun w hw hne => ?_⟩
        have hw' : w ∈ zs := by simpa [hne] using hw
        by_cases hwy : w = y
        · exact hwy ▸ hzy
        · have := hl w hw' hwy
          rw [Ranked.before_iff] at this hzy ⊢
          omega
      · rw [if_neg hzy] at h
        cases h
        refine ⟨by simp [hy], fun w hw hne => ?_⟩
        rcases List.mem_cons.1 hw with rfl | hw'
        · exact Ranked.before_of_not _ _ (Ne.symm hne) hzy
        · exact hl w hw' hne

theorem leastRanked_isSome (pri : List Ranked) (h : pri ≠ []) : ∃ x, leastRanked pri = some x := by
  cases pri with
  | nil => exact absurd rfl h
  | cons z zs =>
    cases hz : leastRanked zs with
    | none => exact ⟨z, by simp [leastRanked, hz]⟩
    | some y =>
      by_cases hzy : z.before y = true
      · exact ⟨z, by simp [leastRanked, hz, hzy]⟩
      · exact ⟨y, by simp [leastRanked, hz, hzy]⟩

/-! ## Trees as lists of nodes -/

/-- The weight of entry `j`. -/
def listWeight (nodes : List Node) (j : Nat) : Nat := ((nodes[j]?).map fun nd => nd.weight.toNat).getD 0

/-- Entry `j` is a child of entry `n`. -/
def listChild (nodes : List Node) (j n : Nat) : Prop :=
  ∃ nd, nodes[n]? = some nd ∧ (nd.left.toNat = j ∨ nd.right.toNat = j)

/-- Entry `j` stands before entry `m` and no entry from `k` up to `m` has it as a child. -/
def listUnmerged (nodes : List Node) (k m j : Nat) : Prop :=
  j < m ∧ ∀ n, k ≤ n → n < m → ¬ listChild nodes j n

/-- a ≺ b on entries. -/
def listPrecedes (nodes : List Node) (a b : Nat) : Prop :=
  listWeight nodes a < listWeight nodes b ∨ (listWeight nodes a = listWeight nodes b ∧ a < b)

/-- Entry `m` merges the two ≺-least entries that were unmerged before it. -/
def listMerges (nodes : List Node) (k m : Nat) : Prop :=
  ∃ a b w, nodes[m]? = some ⟨false, 0#9, BitVec.ofNat 9 a, BitVec.ofNat 9 b, w⟩ ∧
    w.toNat = listWeight nodes a + listWeight nodes b ∧
    listUnmerged nodes k m a ∧ listUnmerged nodes k m b ∧ listPrecedes nodes a b ∧
    ∀ j, listUnmerged nodes k m j → j ≠ a → j ≠ b → listPrecedes nodes b j

theorem listWeight_append (nodes more : List Node) (j : Nat) (h : j < nodes.length) :
    listWeight (nodes ++ more) j = listWeight nodes j := by
  simp [listWeight, List.getElem?_append_left h]

theorem listChild_append (nodes more : List Node) (j n : Nat) (h : n < nodes.length) :
    listChild (nodes ++ more) j n ↔ listChild nodes j n := by
  simp [listChild, List.getElem?_append_left h]

theorem listUnmerged_append (nodes more : List Node) (k m j : Nat) (h : m ≤ nodes.length) :
    listUnmerged (nodes ++ more) k m j ↔ listUnmerged nodes k m j := by
  unfold listUnmerged
  constructor
  · exact fun ⟨h1, h2⟩ => ⟨h1, fun n hk hn => by rw [← listChild_append nodes more j n (by omega)]; exact h2 n hk hn⟩
  · exact fun ⟨h1, h2⟩ => ⟨h1, fun n hk hn => by rw [listChild_append nodes more j n (by omega)]; exact h2 n hk hn⟩

theorem listMerges_append (nodes more : List Node) (k m : Nat) (h : m < nodes.length) (hm : listMerges nodes k m) :
    listMerges (nodes ++ more) k m := by
  obtain ⟨a, b, w, hn, hw, ha, hb, hab, hl⟩ := hm
  have ha' := ha.1
  have hb' := hb.1
  refine ⟨a, b, w, ?_, ?_, ?_, ?_, ?_, ?_⟩
  · rw [List.getElem?_append_left h]; exact hn
  · rw [listWeight_append _ _ _ (by omega), listWeight_append _ _ _ (by omega)]; exact hw
  · exact (listUnmerged_append _ _ _ _ _ (by omega)).2 ha
  · exact (listUnmerged_append _ _ _ _ _ (by omega)).2 hb
  · unfold listPrecedes
    rw [listWeight_append _ _ _ (by omega), listWeight_append _ _ _ (by omega)]; exact hab
  · intro j hj hja hjb
    have hj' := (listUnmerged_append _ _ _ _ _ (by omega)).1 hj
    have := hl j hj' hja hjb
    have hjm := hj.1
    unfold listPrecedes
    rw [listWeight_append _ _ _ (by omega), listWeight_append _ _ _ (by omega)]; exact this

/-! ## The merge loop -/

/-- What holds between two merges, over the leaves BUILD started from. -/
structure MergeInv (leaves nodes : List Node) (pri : List Ranked) : Prop where
  /-- The leaves stand first. -/
  begins : ∃ inner, nodes = leaves ++ inner
  /-- Each merge adds one node and takes one element off P. -/
  count : nodes.length + pri.length = 2 * leaves.length
  few : leaves.length ≤ 256
  nonempty : 1 ≤ pri.length
  /-- P is a set of indices. -/
  nodup : (pri.map fun x => x.idx.toNat).Nodup
  /-- Each index in P carries its node's weight. -/
  ranked : ∀ x ∈ pri, listWeight nodes x.idx.toNat = x.weight.toNat
  /-- P is what is not merged yet. -/
  mem : ∀ j, (∃ x ∈ pri, x.idx.toNat = j) ↔ listUnmerged nodes leaves.length nodes.length j
  /-- The weights in P sum to the leaves' weights. -/
  sum : (pri.map fun x => x.weight.toNat).sum = (leaves.map fun nd => nd.weight.toNat).sum
  small : (leaves.map fun nd => nd.weight.toNat).sum < 2 ^ 40
  /-- Every node made is a merge of the two least. -/
  merged : ∀ m, leaves.length ≤ m → m < nodes.length → listMerges nodes leaves.length m

theorem sum_erase (pri : List Ranked) (a : Ranked) (h : a ∈ pri) :
    a.weight.toNat + ((pri.erase a).map fun x => x.weight.toNat).sum = (pri.map fun x => x.weight.toNat).sum := by
  have hp := (List.perm_cons_erase h).map fun x : Ranked => x.weight.toNat
  rw [hp.sum_eq]; simp

/-- One merge keeps the invariant and adds one node. -/
theorem mergeOnce_spec (leaves nodes : List Node) (pri : List Ranked) (hi : MergeInv leaves nodes pri)
    (h2 : 2 ≤ pri.length) :
    ∃ nodes' pri', mergeOnce nodes pri = some (nodes', pri') ∧ MergeInv leaves nodes' pri' ∧
      nodes'.length = nodes.length + 1 := by
  have hlen := hi.count
  have hfew := hi.few
  have hle : leaves.length ≤ nodes.length := by
    obtain ⟨inner, e⟩ := hi.begins
    rw [e, List.length_append]; omega
  obtain ⟨a, hA⟩ := leastRanked_isSome pri (by intro h; simp [h] at h2)
  obtain ⟨hap, hal⟩ := leastRanked_spec _ _ hA
  have hlA := List.length_erase_of_mem hap
  obtain ⟨b, hB⟩ := leastRanked_isSome (pri.erase a) (by intro h; rw [h] at hlA; simp at hlA; omega)
  obtain ⟨hbp, hbl⟩ := leastRanked_spec _ _ hB
  have hlB := List.length_erase_of_mem hbp
  have hnd : pri.Nodup := List.Nodup.of_map _ hi.nodup
  have hmemA : ∀ x, x ∈ pri.erase a ↔ x ≠ a ∧ x ∈ pri := fun x => hnd.mem_erase_iff
  have hmemB : ∀ x, x ∈ (pri.erase a).erase b ↔ x ≠ b ∧ x ≠ a ∧ x ∈ pri := fun x => by
    rw [(hnd.erase a).mem_erase_iff, hmemA]
  have hba : b ≠ a := ((hmemA b).1 hbp).1
  have hbp' : b ∈ pri := ((hmemA b).1 hbp).2
  have hinj : ∀ x ∈ pri, ∀ y ∈ pri, x.idx.toNat = y.idx.toNat → x = y := fun x hx y hy e =>
    List.inj_on_of_nodup_map hi.nodup hx hy e
  have huA := (hi.mem a.idx.toNat).1 ⟨a, hap, rfl⟩
  have huB := (hi.mem b.idx.toNat).1 ⟨b, hbp', rfl⟩
  have hsA := sum_erase pri a hap
  have hsB := sum_erase (pri.erase a) b hbp
  have hsum := hi.sum
  have hsmall := hi.small
  have hw : (a.weight + b.weight).toNat = a.weight.toNat + b.weight.toNat := by
    rw [BitVec.toNat_add]; omega
  have hn9 : (BitVec.ofNat 9 nodes.length).toNat = nodes.length := by
    rw [BitVec.toNat_ofNat]; omega
  refine ⟨nodes ++ [internalNode a b], (pri.erase a).erase b ++ [⟨a.weight + b.weight, BitVec.ofNat 9 nodes.length⟩],
    by simp [mergeOnce, hA, hB], ?_, by simp⟩
  have hchildNew : ∀ j, listChild (nodes ++ [internalNode a b]) j nodes.length ↔
      (a.idx.toNat = j ∨ b.idx.toNat = j) := by
    intro j
    simp [listChild, internalNode]
  constructor
  · obtain ⟨inner, e⟩ := hi.begins
    exact ⟨inner ++ [internalNode a b], by rw [e, List.append_assoc]⟩
  · simp only [List.length_append, List.length_singleton]; omega
  · exact hfew
  · simp only [List.length_append, List.length_singleton]; omega
  · rw [List.map_append, List.nodup_append']
    refine ⟨(((List.erase_sublist).trans List.erase_sublist).map _).nodup hi.nodup, by simp, ?_⟩
    rw [List.disjoint_left]
    intro j hj hj'
    simp only [List.map_cons, List.map_nil, List.mem_singleton, hn9] at hj'
    obtain ⟨x, hx, rfl⟩ := List.mem_map.1 hj
    have := ((hi.mem _).1 ⟨x, ((hmemB x).1 hx).2.2, rfl⟩).1
    omega
  · intro x hx
    rcases List.mem_append.1 hx with hx | hx
    · have hxp := ((hmemB x).1 hx).2.2
      rw [listWeight_append _ _ _ ((hi.mem _).1 ⟨x, hxp, rfl⟩).1]
      exact hi.ranked x hxp
    · simp only [List.mem_singleton] at hx
      subst hx
      simp [listWeight, hn9, internalNode]
  · intro j
    have hstep : listUnmerged (nodes ++ [internalNode a b]) leaves.length (nodes ++ [internalNode a b]).length j ↔
        (j = nodes.length ∨ (listUnmerged nodes leaves.length nodes.length j ∧ a.idx.toNat ≠ j ∧ b.idx.toNat ≠ j)) := by
      constructor
      · rintro ⟨h1, h2⟩
        simp only [List.length_append, List.length_singleton] at h1 h2
        by_cases hj : j = nodes.length
        · exact .inl hj
        · refine .inr ⟨(listUnmerged_append nodes [internalNode a b] _ _ _ (Nat.le_refl _)).1
            ⟨by omega, fun n hk hn => h2 n hk (by omega)⟩, ?_⟩
          have := h2 nodes.length (by omega) (by omega)
          rw [hchildNew] at this
          exact ⟨fun e => this (.inl e), fun e => this (.inr e)⟩
      · intro hj
        rcases hj with rfl | ⟨hu, hja, hjb⟩
        · refine ⟨by simp, fun n hk hn => ?_⟩
          simp only [List.length_append, List.length_singleton] at hn
          by_cases hnn : n = nodes.length
          · subst hnn
            rw [hchildNew]
            have := huA.1; have := huB.1
            omega
          · rw [listChild_append _ _ _ _ (by omega)]
            rintro ⟨nd, hnd', hc⟩
            obtain ⟨a', b', w', hm', -, ha', hb', -⟩ := hi.merged n hk (by omega)
            rw [hm'] at hnd'
            cases hnd'
            have := ha'.1; have := hb'.1
            simp only [BitVec.toNat_ofNat] at hc
            omega
        · refine ⟨by have := hu.1; simp; omega, fun n hk hn => ?_⟩
          simp only [List.length_append, List.length_singleton] at hn
          by_cases hnn : n = nodes.length
          · subst hnn
            rw [hchildNew]
            exact fun e => e.elim hja hjb
          · rw [listChild_append _ _ _ _ (by omega)]
            exact hu.2 n hk (by omega)
    rw [hstep, ← hi.mem]
    constructor
    · rintro ⟨x, hx, rfl⟩
      rcases List.mem_append.1 hx with hx | hx
      · obtain ⟨hxb, hxa, hxp⟩ := (hmemB x).1 hx
        exact .inr ⟨⟨x, hxp, rfl⟩, fun e => hxa (hinj x hxp a hap e.symm), fun e => hxb (hinj x hxp b hbp' e.symm)⟩
      · simp only [List.mem_singleton] at hx
        subst hx
        exact .inl hn9
    · rintro (rfl | ⟨⟨x, hxp, rfl⟩, hxa, hxb⟩)
      · exact ⟨⟨a.weight + b.weight, BitVec.ofNat 9 nodes.length⟩, by simp, hn9⟩
      · exact ⟨x, List.mem_append.2 (.inl ((hmemB x).2 ⟨fun e => hxb (by rw [e]), fun e => hxa (by rw [e]), hxp⟩)), rfl⟩
  · rw [List.map_append, List.sum_append]
    simp only [List.map_cons, List.map_nil, List.sum_cons, List.sum_nil, hw]
    omega
  · exact hsmall
  · intro m hk hm
    simp only [List.length_append, List.length_singleton] at hm
    by_cases hmn : m = nodes.length
    · subst hmn
      refine ⟨a.idx.toNat, b.idx.toNat, a.weight + b.weight, ?_, ?_, ?_, ?_, ?_, ?_⟩
      · simp [internalNode]
      · rw [listWeight_append _ _ _ huA.1, listWeight_append _ _ _ huB.1, hi.ranked a hap, hi.ranked b hbp', hw]
      · exact (listUnmerged_append _ _ _ _ _ (Nat.le_refl _)).2 huA
      · exact (listUnmerged_append _ _ _ _ _ (Nat.le_refl _)).2 huB
      · have := hal b hbp' hba
        rw [Ranked.before_iff] at this
        unfold listPrecedes
        rw [listWeight_append _ _ _ huA.1, listWeight_append _ _ _ huB.1, hi.ranked a hap, hi.ranked b hbp']
        exact this
      · intro j hj hja hjb
        have hj' := (listUnmerged_append _ _ _ _ _ (Nat.le_refl _)).1 hj
        obtain ⟨x, hxp, rfl⟩ := (hi.mem j).2 hj'
        have hxa : x ≠ a := fun e => hja (by rw [e])
        have hxb : x ≠ b := fun e => hjb (by rw [e])
        have := hbl x ((hmemA x).2 ⟨hxa, hxp⟩) hxb
        rw [Ranked.before_iff] at this
        unfold listPrecedes
        rw [listWeight_append _ _ _ huB.1, listWeight_append _ _ _ hj'.1, hi.ranked b hbp', hi.ranked x hxp]
        exact this
    · exact listMerges_append _ _ _ _ (by omega) (hi.merged m hk (by omega))

/-- The loop runs exactly its merges and keeps the invariant. -/
theorem mergeLoop_spec (leaves : List Node) (fuel : Nat) (nodes : List Node) (pri : List Ranked)
    (hi : MergeInv leaves nodes pri) (hf : fuel + 1 ≤ pri.length) :
    ∃ pri', MergeInv leaves (mergeLoop fuel nodes pri) pri' ∧
      (mergeLoop fuel nodes pri).length = nodes.length + fuel := by
  induction fuel generalizing nodes pri with
  | zero => exact ⟨pri, hi, rfl⟩
  | succ f ih =>
    obtain ⟨nodes', pri', he, hi', hl⟩ := mergeOnce_spec leaves nodes pri hi (by omega)
    have := hi.count; have := hi'.count
    obtain ⟨pri'', h1, h2⟩ := ih nodes' pri' hi' (by omega)
    refine ⟨pri'', ?_, ?_⟩
    · simpa [mergeLoop, he] using h1
    · simp only [mergeLoop, he]; omega

/-- The invariant holds before the first merge. -/
theorem rankLeaves_inv (leaves : List Node) (h1 : 1 ≤ leaves.length) (h2 : leaves.length ≤ 256)
    (hs : (leaves.map fun nd => nd.weight.toNat).sum < 2 ^ 40) : MergeInv leaves leaves (rankLeaves leaves) := by
  have hmem : ∀ x, x ∈ rankLeaves leaves ↔ ∃ j nd, leaves[j]? = some nd ∧ x = ⟨nd.weight, BitVec.ofNat 9 j⟩ := by
    intro x
    simp only [rankLeaves, List.mem_map, Prod.exists, List.mem_zipIdx_iff_getElem?]
    constructor
    · rintro ⟨nd, j, h, rfl⟩; exact ⟨j, nd, h, rfl⟩
    · rintro ⟨j, nd, h, rfl⟩; exact ⟨nd, j, h, rfl⟩
  have hidx : ∀ j nd, leaves[j]? = some nd → (BitVec.ofNat 9 j).toNat = j ∧ j < leaves.length := by
    intro j nd h
    have hj := (List.getElem?_eq_some_iff.1 h).1
    rw [BitVec.toNat_ofNat]
    exact ⟨by omega, hj⟩
  constructor
  · exact ⟨[], by simp⟩
  · simp [rankLeaves]; omega
  · exact h2
  · simp [rankLeaves]; omega
  · have he : (rankLeaves leaves).map (fun x => x.idx.toNat) = List.range leaves.length := by
      apply List.ext_getElem?
      intro j
      simp only [rankLeaves, List.map_map, List.getElem?_map, List.getElem?_zipIdx, Nat.zero_add]
      by_cases hj : j < leaves.length
      · simp [List.getElem?_eq_getElem hj, List.getElem?_range hj]; omega
      · simp [Nat.not_lt.1 hj]
    rw [he]; exact List.nodup_range
  · intro x hx
    obtain ⟨j, nd, hj, rfl⟩ := (hmem x).1 hx
    simp [listWeight, (hidx j nd hj).1, hj]
  · intro j
    constructor
    · rintro ⟨x, hx, rfl⟩
      obtain ⟨j, nd, hj, rfl⟩ := (hmem x).1 hx
      rw [(hidx j nd hj).1]
      exact ⟨(hidx j nd hj).2, fun n hk hn => by omega⟩
    · rintro ⟨hj, -⟩
      exact ⟨_, (hmem _).2 ⟨j, leaves[j], List.getElem?_eq_getElem hj, rfl⟩,
        (hidx j _ (List.getElem?_eq_getElem hj)).1⟩
  · congr 1
    apply List.ext_getElem?
    intro j
    simp [rankLeaves, List.getElem?_zipIdx]
    cases leaves[j]? <;> simp
  · exact hs
  · intro m hk hm; omega

/-- The whole construction (R464): k leaves give 2k − 1 nodes, and one element is left in P. -/
theorem treeOver_spec (leaves : List Node) (h1 : 1 ≤ leaves.length) (h2 : leaves.length ≤ 256)
    (hs : (leaves.map fun nd => nd.weight.toNat).sum < 2 ^ 40) :
    (treeOver leaves).length = 2 * leaves.length - 1 ∧ ∃ x, MergeInv leaves (treeOver leaves) [x] := by
  have hi := rankLeaves_inv leaves h1 h2 hs
  have hl : (rankLeaves leaves).length = leaves.length := by simp [rankLeaves]
  obtain ⟨pri', h3, h4⟩ := mergeLoop_spec leaves (leaves.length - 1) leaves _ hi (by omega)
  have hlen : (treeOver leaves).length = 2 * leaves.length - 1 := by unfold treeOver; omega
  refine ⟨hlen, ?_⟩
  have hc := h3.count
  have : pri'.length = 1 := by unfold treeOver at hlen; omega
  obtain ⟨x, rfl⟩ := List.length_eq_one_iff.1 this
  exact ⟨x, h3⟩

end Sys2Proof.Machine
end

