-- ==== Sys2Proof/Laws/Operands.lean ====
section
/-! SUPPORT. The operand forms: when each is in range and what it then is, and the read-back words as numbers. -/

namespace Sys2Proof.Machine

theorem dataSymbol_of_lt (idx : Index) (h : idx.toNat < 256) : dataSymbol idx = some ⟨idx.toNat, h⟩ := dif_pos h

theorem dataSymbol_of_gt (idx : Index) (h : 255 < idx.toNat) : dataSymbol idx = none := dif_neg (by omega)

theorem lutSymbol_of_lt (idx : Index) (h : idx.toNat < 257) : lutSymbol idx = some ⟨idx.toNat, h⟩ := dif_pos h

theorem lutSymbol_of_gt (idx : Index) (h : 256 < idx.toNat) : lutSymbol idx = none := dif_neg (by omega)

theorem markerByte_of_lt (idx : Index) (h : idx.toNat < 256) : markerByte idx = some (idx.setWidth 8) := if_pos h

theorem markerByte_of_gt (idx : Index) (h : 255 < idx.toNat) : markerByte idx = none := if_neg (by omega)

/-- A data symbol's IDX gives the symbol back. -/
theorem dataSymbol_ofNat (y : Fin 256) : dataSymbol (BitVec.ofNat 9 y.val) = some y := by
  have h : (BitVec.ofNat 9 y.val).toNat = y.val := by
    rw [BitVec.toNat_ofNat]; have := y.isLt; omega
  rw [dataSymbol_of_lt _ (by rw [h]; exact y.isLt)]
  simp only [h]

/-- A byte as IDX gives the byte back. -/
theorem markerByte_setWidth (b : Byte) : markerByte (b.setWidth 9) = some b := by
  have hb := b.isLt
  have h : (b.setWidth 9).toNat = b.toNat := by rw [BitVec.toNat_setWidth]; omega
  rw [markerByte_of_lt _ (by omega)]
  congr 1
  apply BitVec.eq_of_toNat_eq
  rw [BitVec.toNat_setWidth, h]
  omega

/-- With W_F = 32 every ARG fits (R402). -/
theorem countFits_params (arg : Word) : countFits Config.params arg = true := by
  have := arg.isLt
  exact decide_eq_true (show arg.toNat ≤ 2 ^ 32 - 1 by omega)

/-- Reading a marker back gives the branch it stands for, whatever the (different) markers are (R16). -/
theorem branchOf_markerOf (p : Params) (h : p.legal = true) (b : Bool) : branchOf p (markerOf p b) = some b := by
  have hne : p.markR ≠ p.markL := by
    simp only [Params.legal, Bool.and_eq_true, bne_iff_ne, ne_eq] at h
    exact fun e => h.2 e.symm
  cases b
  · exact if_pos rfl
  · simp [branchOf, markerOf, hne]

/-- NODE_RD selector 0: bit 31 LEAF, bits 8:0 SYM (R470). -/
theorem nodeField_zero (nd : Node) : (nodeField nd 0#32).toNat = nd.leaf.toNat * 2 ^ 31 + nd.sym.toNat := by
  have h : (BitVec.ofBool nd.leaf ++ 0#22 ++ nd.sym).toNat = nd.leaf.toNat * 2 ^ 31 + nd.sym.toNat := by
    rw [append_toNat, append_toNat, BitVec.toNat_ofBool, BitVec.toNat_ofNat, Nat.zero_mod]
    omega
  exact h

/-- NODE_RD selector 1: bits 24:16 RIGHT, bits 8:0 LEFT (R470). -/
theorem nodeField_one (nd : Node) : (nodeField nd 1#32).toNat = nd.right.toNat * 2 ^ 16 + nd.left.toNat := by
  have h : (0#7 ++ nd.right ++ 0#7 ++ nd.left).toNat = nd.right.toNat * 2 ^ 16 + nd.left.toNat := by
    rw [append_toNat, append_toNat, append_toNat, BitVec.toNat_ofNat, Nat.zero_mod]
    omega
  exact h

/-- NODE_RD selector 2: the low word of WEIGHT (R208). -/
theorem nodeField_two (nd : Node) : (nodeField nd 2#32).toNat = nd.weight.toNat % 2 ^ 32 := by
  have h : ((nd.weight.setWidth 64).extractLsb' 0 32).toNat = nd.weight.toNat % 2 ^ 32 := by
    have := nd.weight.isLt
    rw [BitVec.extractLsb'_toNat, BitVec.toNat_setWidth, Nat.shiftRight_zero]
    omega
  exact h

/-- NODE_RD selector 3: the high bits of WEIGHT (R208). -/
theorem nodeField_three (nd : Node) : (nodeField nd 3#32).toNat = nd.weight.toNat / 2 ^ 32 := by
  have h : ((nd.weight.setWidth 64).extractLsb' 32 32).toNat = nd.weight.toNat / 2 ^ 32 := by
    have := nd.weight.isLt
    rw [BitVec.extractLsb'_toNat, BitVec.toNat_setWidth, Nat.shiftRight_eq_div_pow]
    omega
  exact h

/-- LUT_RD selector 8: LEN (R510). -/
theorem lutField_len (e : LutEntry) : (lutField e 8#32).toNat = e.len.toNat := by
  have h : (e.len.setWidth 32).toNat = e.len.toNat := by
    have := e.len.isLt
    rw [BitVec.toNat_setWidth]
    omega
  exact h

/-- LUT_RD selector w: the code bits 32w..32w+31 (R208). -/
theorem lutField_bit (e : LutEntry) (sel : Word) (j : Nat) (h : sel.toNat ≠ 8) (hs : sel.toNat ≤ 8) (hj : j < 32) :
    (lutField e sel).getLsbD j = e.bits.getLsbD (32 * sel.toNat + j) := by
  have hb : 32 * sel.toNat + j < 256 := by omega
  rw [lutField, if_neg h, BitVec.getLsbD_extractLsb', BitVec.getLsbD_setWidth]
  simp [hj, hb]

end Sys2Proof.Machine
end

