-- ==== Sys2Proof/Laws/State.lean ====
section
/-! SUPPORT. The small lemmas of State: each field after each named update, and what taking a response and RESET leave. -/

namespace Sys2Proof.Machine

/-! ## After `respond` -/

@[simp] theorem State.respond_freq (s : State) (code : Code) (data : Word) : (s.respond code data).freq = s.freq := rfl
@[simp] theorem State.respond_node (s : State) (code : Code) (data : Word) : (s.respond code data).node = s.node := rfl
@[simp] theorem State.respond_leafCount (s : State) (code : Code) (data : Word) : (s.respond code data).leafCount = s.leafCount := rfl
@[simp] theorem State.respond_root (s : State) (code : Code) (data : Word) : (s.respond code data).root = s.root := rfl
@[simp] theorem State.respond_treeValid (s : State) (code : Code) (data : Word) : (s.respond code data).treeValid = s.treeValid := rfl
@[simp] theorem State.respond_lut (s : State) (code : Code) (data : Word) : (s.respond code data).lut = s.lut := rfl
@[simp] theorem State.respond_lutValid (s : State) (code : Code) (data : Word) : (s.respond code data).lutValid = s.lutValid := rfl
@[simp] theorem State.respond_cursor (s : State) (code : Code) (data : Word) : (s.respond code data).cursor = s.cursor := rfl
@[simp] theorem State.respond_decErr (s : State) (code : Code) (data : Word) : (s.respond code data).decErr = s.decErr := rfl
@[simp] theorem State.respond_encErr (s : State) (code : Code) (data : Word) : (s.respond code data).encErr = s.encErr := rfl
@[simp] theorem State.respond_bout (s : State) (code : Code) (data : Word) : (s.respond code data).bout = s.bout := rfl
@[simp] theorem State.respond_cmdch (s : State) (code : Code) (data : Word) : (s.respond code data).cmdch = s.cmdch := rfl
@[simp] theorem State.respond_rspch (s : State) (code : Code) (data : Word) : (s.respond code data).rspch = some ⟨code, data⟩ := rfl
@[simp] theorem State.respond_rspTaken (s : State) (code : Code) (data : Word) : (s.respond code data).rspTaken = s.rspTaken := rfl
@[simp] theorem State.respond_boutTaken (s : State) (code : Code) (data : Word) : (s.respond code data).boutTaken = s.boutTaken := rfl
@[simp] theorem State.respond_resetIn (s : State) (code : Code) (data : Word) : (s.respond code data).resetIn = s.resetIn := rfl
@[simp] theorem State.respond_hostMoves (s : State) (code : Code) (data : Word) : (s.respond code data).hostMoves = s.hostMoves := rfl
@[simp] theorem State.respond_draws (s : State) (code : Code) (data : Word) : (s.respond code data).draws = s.draws := rfl

/-! ## After `setFreq` -/

@[simp] theorem State.setFreq_freq (s : State) (y : Fin 256) (count : Word) : (s.setFreq y count).freq = s.freq.set y.val count := rfl
@[simp] theorem State.setFreq_node (s : State) (y : Fin 256) (count : Word) : (s.setFreq y count).node = s.node := rfl
@[simp] theorem State.setFreq_leafCount (s : State) (y : Fin 256) (count : Word) : (s.setFreq y count).leafCount = s.leafCount := rfl
@[simp] theorem State.setFreq_root (s : State) (y : Fin 256) (count : Word) : (s.setFreq y count).root = s.root := rfl
@[simp] theorem State.setFreq_treeValid (s : State) (y : Fin 256) (count : Word) : (s.setFreq y count).treeValid = s.treeValid := rfl
@[simp] theorem State.setFreq_lut (s : State) (y : Fin 256) (count : Word) : (s.setFreq y count).lut = s.lut := rfl
@[simp] theorem State.setFreq_lutValid (s : State) (y : Fin 256) (count : Word) : (s.setFreq y count).lutValid = s.lutValid := rfl
@[simp] theorem State.setFreq_cursor (s : State) (y : Fin 256) (count : Word) : (s.setFreq y count).cursor = s.cursor := rfl
@[simp] theorem State.setFreq_decErr (s : State) (y : Fin 256) (count : Word) : (s.setFreq y count).decErr = s.decErr := rfl
@[simp] theorem State.setFreq_encErr (s : State) (y : Fin 256) (count : Word) : (s.setFreq y count).encErr = s.encErr := rfl
@[simp] theorem State.setFreq_bout (s : State) (y : Fin 256) (count : Word) : (s.setFreq y count).bout = s.bout := rfl
@[simp] theorem State.setFreq_cmdch (s : State) (y : Fin 256) (count : Word) : (s.setFreq y count).cmdch = s.cmdch := rfl
@[simp] theorem State.setFreq_rspch (s : State) (y : Fin 256) (count : Word) : (s.setFreq y count).rspch = s.rspch := rfl
@[simp] theorem State.setFreq_rspTaken (s : State) (y : Fin 256) (count : Word) : (s.setFreq y count).rspTaken = s.rspTaken := rfl
@[simp] theorem State.setFreq_boutTaken (s : State) (y : Fin 256) (count : Word) : (s.setFreq y count).boutTaken = s.boutTaken := rfl
@[simp] theorem State.setFreq_resetIn (s : State) (y : Fin 256) (count : Word) : (s.setFreq y count).resetIn = s.resetIn := rfl
@[simp] theorem State.setFreq_hostMoves (s : State) (y : Fin 256) (count : Word) : (s.setFreq y count).hostMoves = s.hostMoves := rfl
@[simp] theorem State.setFreq_draws (s : State) (y : Fin 256) (count : Word) : (s.setFreq y count).draws = s.draws := rfl

/-! ## After `clearFreq` -/

@[simp] theorem State.clearFreq_freq (s : State) : s.clearFreq.freq = Vector.replicate 256 0 := rfl
@[simp] theorem State.clearFreq_node (s : State) : s.clearFreq.node = s.node := rfl
@[simp] theorem State.clearFreq_leafCount (s : State) : s.clearFreq.leafCount = s.leafCount := rfl
@[simp] theorem State.clearFreq_root (s : State) : s.clearFreq.root = s.root := rfl
@[simp] theorem State.clearFreq_treeValid (s : State) : s.clearFreq.treeValid = s.treeValid := rfl
@[simp] theorem State.clearFreq_lut (s : State) : s.clearFreq.lut = s.lut := rfl
@[simp] theorem State.clearFreq_lutValid (s : State) : s.clearFreq.lutValid = s.lutValid := rfl
@[simp] theorem State.clearFreq_cursor (s : State) : s.clearFreq.cursor = s.cursor := rfl
@[simp] theorem State.clearFreq_decErr (s : State) : s.clearFreq.decErr = s.decErr := rfl
@[simp] theorem State.clearFreq_encErr (s : State) : s.clearFreq.encErr = s.encErr := rfl
@[simp] theorem State.clearFreq_bout (s : State) : s.clearFreq.bout = s.bout := rfl
@[simp] theorem State.clearFreq_cmdch (s : State) : s.clearFreq.cmdch = s.cmdch := rfl
@[simp] theorem State.clearFreq_rspch (s : State) : s.clearFreq.rspch = s.rspch := rfl
@[simp] theorem State.clearFreq_rspTaken (s : State) : s.clearFreq.rspTaken = s.rspTaken := rfl
@[simp] theorem State.clearFreq_boutTaken (s : State) : s.clearFreq.boutTaken = s.boutTaken := rfl
@[simp] theorem State.clearFreq_resetIn (s : State) : s.clearFreq.resetIn = s.resetIn := rfl
@[simp] theorem State.clearFreq_hostMoves (s : State) : s.clearFreq.hostMoves = s.hostMoves := rfl
@[simp] theorem State.clearFreq_draws (s : State) : s.clearFreq.draws = s.draws := rfl

/-! ## After `commitTree` -/

@[simp] theorem State.commitTree_freq (s : State) (nodes : List Node) (k r : Index) : (s.commitTree nodes k r).freq = s.freq := rfl
@[simp] theorem State.commitTree_node (s : State) (nodes : List Node) (k r : Index) : (s.commitTree nodes k r).node = fillNodes s.draws nodes := rfl
@[simp] theorem State.commitTree_leafCount (s : State) (nodes : List Node) (k r : Index) : (s.commitTree nodes k r).leafCount = k := rfl
@[simp] theorem State.commitTree_root (s : State) (nodes : List Node) (k r : Index) : (s.commitTree nodes k r).root = r := rfl
@[simp] theorem State.commitTree_treeValid (s : State) (nodes : List Node) (k r : Index) : (s.commitTree nodes k r).treeValid = true := rfl
@[simp] theorem State.commitTree_lut (s : State) (nodes : List Node) (k r : Index) : (s.commitTree nodes k r).lut = s.lut := rfl
@[simp] theorem State.commitTree_lutValid (s : State) (nodes : List Node) (k r : Index) : (s.commitTree nodes k r).lutValid = false := rfl
@[simp] theorem State.commitTree_cursor (s : State) (nodes : List Node) (k r : Index) : (s.commitTree nodes k r).cursor = r := rfl
@[simp] theorem State.commitTree_decErr (s : State) (nodes : List Node) (k r : Index) : (s.commitTree nodes k r).decErr = 0 := rfl
@[simp] theorem State.commitTree_encErr (s : State) (nodes : List Node) (k r : Index) : (s.commitTree nodes k r).encErr = 0 := rfl
@[simp] theorem State.commitTree_bout (s : State) (nodes : List Node) (k r : Index) : (s.commitTree nodes k r).bout = s.bout := rfl
@[simp] theorem State.commitTree_cmdch (s : State) (nodes : List Node) (k r : Index) : (s.commitTree nodes k r).cmdch = s.cmdch := rfl
@[simp] theorem State.commitTree_rspch (s : State) (nodes : List Node) (k r : Index) : (s.commitTree nodes k r).rspch = s.rspch := rfl
@[simp] theorem State.commitTree_rspTaken (s : State) (nodes : List Node) (k r : Index) : (s.commitTree nodes k r).rspTaken = s.rspTaken := rfl
@[simp] theorem State.commitTree_boutTaken (s : State) (nodes : List Node) (k r : Index) : (s.commitTree nodes k r).boutTaken = s.boutTaken := rfl
@[simp] theorem State.commitTree_resetIn (s : State) (nodes : List Node) (k r : Index) : (s.commitTree nodes k r).resetIn = s.resetIn := rfl
@[simp] theorem State.commitTree_hostMoves (s : State) (nodes : List Node) (k r : Index) : (s.commitTree nodes k r).hostMoves = s.hostMoves := rfl
@[simp] theorem State.commitTree_draws (s : State) (nodes : List Node) (k r : Index) : (s.commitTree nodes k r).draws = s.draws + 1 := rfl

/-! ## After `discardTree` -/

@[simp] theorem State.discardTree_freq (s : State) : s.discardTree.freq = s.freq := rfl
@[simp] theorem State.discardTree_node (s : State) : s.discardTree.node = fillNodes s.draws [] := rfl
@[simp] theorem State.discardTree_leafCount (s : State) : s.discardTree.leafCount = 0 := rfl
@[simp] theorem State.discardTree_root (s : State) : s.discardTree.root = 0 := rfl
@[simp] theorem State.discardTree_treeValid (s : State) : s.discardTree.treeValid = false := rfl
@[simp] theorem State.discardTree_lut (s : State) : s.discardTree.lut = s.lut := rfl
@[simp] theorem State.discardTree_lutValid (s : State) : s.discardTree.lutValid = false := rfl
@[simp] theorem State.discardTree_cursor (s : State) : s.discardTree.cursor = 0 := rfl
@[simp] theorem State.discardTree_decErr (s : State) : s.discardTree.decErr = 0 := rfl
@[simp] theorem State.discardTree_encErr (s : State) : s.discardTree.encErr = 0 := rfl
@[simp] theorem State.discardTree_bout (s : State) : s.discardTree.bout = s.bout := rfl
@[simp] theorem State.discardTree_cmdch (s : State) : s.discardTree.cmdch = s.cmdch := rfl
@[simp] theorem State.discardTree_rspch (s : State) : s.discardTree.rspch = s.rspch := rfl
@[simp] theorem State.discardTree_rspTaken (s : State) : s.discardTree.rspTaken = s.rspTaken := rfl
@[simp] theorem State.discardTree_boutTaken (s : State) : s.discardTree.boutTaken = s.boutTaken := rfl
@[simp] theorem State.discardTree_resetIn (s : State) : s.discardTree.resetIn = s.resetIn := rfl
@[simp] theorem State.discardTree_hostMoves (s : State) : s.discardTree.hostMoves = s.hostMoves := rfl
@[simp] theorem State.discardTree_draws (s : State) : s.discardTree.draws = s.draws + 1 := rfl

/-! ## After `commitLut` -/

@[simp] theorem State.commitLut_freq (s : State) (lut : Vector LutEntry 257) : (s.commitLut lut).freq = s.freq := rfl
@[simp] theorem State.commitLut_node (s : State) (lut : Vector LutEntry 257) : (s.commitLut lut).node = s.node := rfl
@[simp] theorem State.commitLut_leafCount (s : State) (lut : Vector LutEntry 257) : (s.commitLut lut).leafCount = s.leafCount := rfl
@[simp] theorem State.commitLut_root (s : State) (lut : Vector LutEntry 257) : (s.commitLut lut).root = s.root := rfl
@[simp] theorem State.commitLut_treeValid (s : State) (lut : Vector LutEntry 257) : (s.commitLut lut).treeValid = s.treeValid := rfl
@[simp] theorem State.commitLut_lut (s : State) (lut : Vector LutEntry 257) : (s.commitLut lut).lut = lut := rfl
@[simp] theorem State.commitLut_lutValid (s : State) (lut : Vector LutEntry 257) : (s.commitLut lut).lutValid = true := rfl
@[simp] theorem State.commitLut_cursor (s : State) (lut : Vector LutEntry 257) : (s.commitLut lut).cursor = s.cursor := rfl
@[simp] theorem State.commitLut_decErr (s : State) (lut : Vector LutEntry 257) : (s.commitLut lut).decErr = s.decErr := rfl
@[simp] theorem State.commitLut_encErr (s : State) (lut : Vector LutEntry 257) : (s.commitLut lut).encErr = s.encErr := rfl
@[simp] theorem State.commitLut_bout (s : State) (lut : Vector LutEntry 257) : (s.commitLut lut).bout = s.bout := rfl
@[simp] theorem State.commitLut_cmdch (s : State) (lut : Vector LutEntry 257) : (s.commitLut lut).cmdch = s.cmdch := rfl
@[simp] theorem State.commitLut_rspch (s : State) (lut : Vector LutEntry 257) : (s.commitLut lut).rspch = s.rspch := rfl
@[simp] theorem State.commitLut_rspTaken (s : State) (lut : Vector LutEntry 257) : (s.commitLut lut).rspTaken = s.rspTaken := rfl
@[simp] theorem State.commitLut_boutTaken (s : State) (lut : Vector LutEntry 257) : (s.commitLut lut).boutTaken = s.boutTaken := rfl
@[simp] theorem State.commitLut_resetIn (s : State) (lut : Vector LutEntry 257) : (s.commitLut lut).resetIn = s.resetIn := rfl
@[simp] theorem State.commitLut_hostMoves (s : State) (lut : Vector LutEntry 257) : (s.commitLut lut).hostMoves = s.hostMoves := rfl
@[simp] theorem State.commitLut_draws (s : State) (lut : Vector LutEntry 257) : (s.commitLut lut).draws = s.draws := rfl

/-! ## After `setCursor` -/

@[simp] theorem State.setCursor_freq (s : State) (n : Index) : (s.setCursor n).freq = s.freq := rfl
@[simp] theorem State.setCursor_node (s : State) (n : Index) : (s.setCursor n).node = s.node := rfl
@[simp] theorem State.setCursor_leafCount (s : State) (n : Index) : (s.setCursor n).leafCount = s.leafCount := rfl
@[simp] theorem State.setCursor_root (s : State) (n : Index) : (s.setCursor n).root = s.root := rfl
@[simp] theorem State.setCursor_treeValid (s : State) (n : Index) : (s.setCursor n).treeValid = s.treeValid := rfl
@[simp] theorem State.setCursor_lut (s : State) (n : Index) : (s.setCursor n).lut = s.lut := rfl
@[simp] theorem State.setCursor_lutValid (s : State) (n : Index) : (s.setCursor n).lutValid = s.lutValid := rfl
@[simp] theorem State.setCursor_cursor (s : State) (n : Index) : (s.setCursor n).cursor = n := rfl
@[simp] theorem State.setCursor_decErr (s : State) (n : Index) : (s.setCursor n).decErr = s.decErr := rfl
@[simp] theorem State.setCursor_encErr (s : State) (n : Index) : (s.setCursor n).encErr = s.encErr := rfl
@[simp] theorem State.setCursor_bout (s : State) (n : Index) : (s.setCursor n).bout = s.bout := rfl
@[simp] theorem State.setCursor_cmdch (s : State) (n : Index) : (s.setCursor n).cmdch = s.cmdch := rfl
@[simp] theorem State.setCursor_rspch (s : State) (n : Index) : (s.setCursor n).rspch = s.rspch := rfl
@[simp] theorem State.setCursor_rspTaken (s : State) (n : Index) : (s.setCursor n).rspTaken = s.rspTaken := rfl
@[simp] theorem State.setCursor_boutTaken (s : State) (n : Index) : (s.setCursor n).boutTaken = s.boutTaken := rfl
@[simp] theorem State.setCursor_resetIn (s : State) (n : Index) : (s.setCursor n).resetIn = s.resetIn := rfl
@[simp] theorem State.setCursor_hostMoves (s : State) (n : Index) : (s.setCursor n).hostMoves = s.hostMoves := rfl
@[simp] theorem State.setCursor_draws (s : State) (n : Index) : (s.setCursor n).draws = s.draws := rfl

/-! ## After `setDecErr` -/

@[simp] theorem State.setDecErr_freq (s : State) (code : Code) : (s.setDecErr code).freq = s.freq := rfl
@[simp] theorem State.setDecErr_node (s : State) (code : Code) : (s.setDecErr code).node = s.node := rfl
@[simp] theorem State.setDecErr_leafCount (s : State) (code : Code) : (s.setDecErr code).leafCount = s.leafCount := rfl
@[simp] theorem State.setDecErr_root (s : State) (code : Code) : (s.setDecErr code).root = s.root := rfl
@[simp] theorem State.setDecErr_treeValid (s : State) (code : Code) : (s.setDecErr code).treeValid = s.treeValid := rfl
@[simp] theorem State.setDecErr_lut (s : State) (code : Code) : (s.setDecErr code).lut = s.lut := rfl
@[simp] theorem State.setDecErr_lutValid (s : State) (code : Code) : (s.setDecErr code).lutValid = s.lutValid := rfl
@[simp] theorem State.setDecErr_cursor (s : State) (code : Code) : (s.setDecErr code).cursor = s.cursor := rfl
@[simp] theorem State.setDecErr_decErr (s : State) (code : Code) : (s.setDecErr code).decErr = code := rfl
@[simp] theorem State.setDecErr_encErr (s : State) (code : Code) : (s.setDecErr code).encErr = s.encErr := rfl
@[simp] theorem State.setDecErr_bout (s : State) (code : Code) : (s.setDecErr code).bout = s.bout := rfl
@[simp] theorem State.setDecErr_cmdch (s : State) (code : Code) : (s.setDecErr code).cmdch = s.cmdch := rfl
@[simp] theorem State.setDecErr_rspch (s : State) (code : Code) : (s.setDecErr code).rspch = s.rspch := rfl
@[simp] theorem State.setDecErr_rspTaken (s : State) (code : Code) : (s.setDecErr code).rspTaken = s.rspTaken := rfl
@[simp] theorem State.setDecErr_boutTaken (s : State) (code : Code) : (s.setDecErr code).boutTaken = s.boutTaken := rfl
@[simp] theorem State.setDecErr_resetIn (s : State) (code : Code) : (s.setDecErr code).resetIn = s.resetIn := rfl
@[simp] theorem State.setDecErr_hostMoves (s : State) (code : Code) : (s.setDecErr code).hostMoves = s.hostMoves := rfl
@[simp] theorem State.setDecErr_draws (s : State) (code : Code) : (s.setDecErr code).draws = s.draws := rfl

/-! ## After `setEncErr` -/

@[simp] theorem State.setEncErr_freq (s : State) (code : Code) : (s.setEncErr code).freq = s.freq := rfl
@[simp] theorem State.setEncErr_node (s : State) (code : Code) : (s.setEncErr code).node = s.node := rfl
@[simp] theorem State.setEncErr_leafCount (s : State) (code : Code) : (s.setEncErr code).leafCount = s.leafCount := rfl
@[simp] theorem State.setEncErr_root (s : State) (code : Code) : (s.setEncErr code).root = s.root := rfl
@[simp] theorem State.setEncErr_treeValid (s : State) (code : Code) : (s.setEncErr code).treeValid = s.treeValid := rfl
@[simp] theorem State.setEncErr_lut (s : State) (code : Code) : (s.setEncErr code).lut = s.lut := rfl
@[simp] theorem State.setEncErr_lutValid (s : State) (code : Code) : (s.setEncErr code).lutValid = s.lutValid := rfl
@[simp] theorem State.setEncErr_cursor (s : State) (code : Code) : (s.setEncErr code).cursor = s.cursor := rfl
@[simp] theorem State.setEncErr_decErr (s : State) (code : Code) : (s.setEncErr code).decErr = s.decErr := rfl
@[simp] theorem State.setEncErr_encErr (s : State) (code : Code) : (s.setEncErr code).encErr = code := rfl
@[simp] theorem State.setEncErr_bout (s : State) (code : Code) : (s.setEncErr code).bout = s.bout := rfl
@[simp] theorem State.setEncErr_cmdch (s : State) (code : Code) : (s.setEncErr code).cmdch = s.cmdch := rfl
@[simp] theorem State.setEncErr_rspch (s : State) (code : Code) : (s.setEncErr code).rspch = s.rspch := rfl
@[simp] theorem State.setEncErr_rspTaken (s : State) (code : Code) : (s.setEncErr code).rspTaken = s.rspTaken := rfl
@[simp] theorem State.setEncErr_boutTaken (s : State) (code : Code) : (s.setEncErr code).boutTaken = s.boutTaken := rfl
@[simp] theorem State.setEncErr_resetIn (s : State) (code : Code) : (s.setEncErr code).resetIn = s.resetIn := rfl
@[simp] theorem State.setEncErr_hostMoves (s : State) (code : Code) : (s.setEncErr code).hostMoves = s.hostMoves := rfl
@[simp] theorem State.setEncErr_draws (s : State) (code : Code) : (s.setEncErr code).draws = s.draws := rfl

/-! ## After `emit` -/

@[simp] theorem State.emit_freq (s : State) (bytes : List Byte) : (s.emit bytes).freq = s.freq := rfl
@[simp] theorem State.emit_node (s : State) (bytes : List Byte) : (s.emit bytes).node = s.node := rfl
@[simp] theorem State.emit_leafCount (s : State) (bytes : List Byte) : (s.emit bytes).leafCount = s.leafCount := rfl
@[simp] theorem State.emit_root (s : State) (bytes : List Byte) : (s.emit bytes).root = s.root := rfl
@[simp] theorem State.emit_treeValid (s : State) (bytes : List Byte) : (s.emit bytes).treeValid = s.treeValid := rfl
@[simp] theorem State.emit_lut (s : State) (bytes : List Byte) : (s.emit bytes).lut = s.lut := rfl
@[simp] theorem State.emit_lutValid (s : State) (bytes : List Byte) : (s.emit bytes).lutValid = s.lutValid := rfl
@[simp] theorem State.emit_cursor (s : State) (bytes : List Byte) : (s.emit bytes).cursor = s.cursor := rfl
@[simp] theorem State.emit_decErr (s : State) (bytes : List Byte) : (s.emit bytes).decErr = s.decErr := rfl
@[simp] theorem State.emit_encErr (s : State) (bytes : List Byte) : (s.emit bytes).encErr = s.encErr := rfl
@[simp] theorem State.emit_bout (s : State) (bytes : List Byte) : (s.emit bytes).bout = s.bout ++ bytes := rfl
@[simp] theorem State.emit_cmdch (s : State) (bytes : List Byte) : (s.emit bytes).cmdch = s.cmdch := rfl
@[simp] theorem State.emit_rspch (s : State) (bytes : List Byte) : (s.emit bytes).rspch = s.rspch := rfl
@[simp] theorem State.emit_rspTaken (s : State) (bytes : List Byte) : (s.emit bytes).rspTaken = s.rspTaken := rfl
@[simp] theorem State.emit_boutTaken (s : State) (bytes : List Byte) : (s.emit bytes).boutTaken = s.boutTaken := rfl
@[simp] theorem State.emit_resetIn (s : State) (bytes : List Byte) : (s.emit bytes).resetIn = s.resetIn := rfl
@[simp] theorem State.emit_hostMoves (s : State) (bytes : List Byte) : (s.emit bytes).hostMoves = s.hostMoves := rfl
@[simp] theorem State.emit_draws (s : State) (bytes : List Byte) : (s.emit bytes).draws = s.draws := rfl

/-! ## After `takeResponse` -/

@[simp] theorem State.takeResponse_freq (s : State) : s.takeResponse.freq = s.freq := by
  unfold State.takeResponse; split <;> rfl
@[simp] theorem State.takeResponse_node (s : State) : s.takeResponse.node = s.node := by
  unfold State.takeResponse; split <;> rfl
@[simp] theorem State.takeResponse_leafCount (s : State) : s.takeResponse.leafCount = s.leafCount := by
  unfold State.takeResponse; split <;> rfl
@[simp] theorem State.takeResponse_root (s : State) : s.takeResponse.root = s.root := by
  unfold State.takeResponse; split <;> rfl
@[simp] theorem State.takeResponse_treeValid (s : State) : s.takeResponse.treeValid = s.treeValid := by
  unfold State.takeResponse; split <;> rfl
@[simp] theorem State.takeResponse_lut (s : State) : s.takeResponse.lut = s.lut := by
  unfold State.takeResponse; split <;> rfl
@[simp] theorem State.takeResponse_lutValid (s : State) : s.takeResponse.lutValid = s.lutValid := by
  unfold State.takeResponse; split <;> rfl
@[simp] theorem State.takeResponse_cursor (s : State) : s.takeResponse.cursor = s.cursor := by
  unfold State.takeResponse; split <;> rfl
@[simp] theorem State.takeResponse_decErr (s : State) : s.takeResponse.decErr = s.decErr := by
  unfold State.takeResponse; split <;> rfl
@[simp] theorem State.takeResponse_encErr (s : State) : s.takeResponse.encErr = s.encErr := by
  unfold State.takeResponse; split <;> rfl
@[simp] theorem State.takeResponse_bout (s : State) : s.takeResponse.bout = s.bout := by
  unfold State.takeResponse; split <;> rfl
@[simp] theorem State.takeResponse_cmdch (s : State) : s.takeResponse.cmdch = s.cmdch := by
  unfold State.takeResponse; split <;> rfl
@[simp] theorem State.takeResponse_boutTaken (s : State) : s.takeResponse.boutTaken = s.boutTaken := by
  unfold State.takeResponse; split <;> rfl
@[simp] theorem State.takeResponse_resetIn (s : State) : s.takeResponse.resetIn = s.resetIn := by
  unfold State.takeResponse; split <;> rfl
@[simp] theorem State.takeResponse_hostMoves (s : State) : s.takeResponse.hostMoves = s.hostMoves := by
  unfold State.takeResponse; split <;> rfl
@[simp] theorem State.takeResponse_draws (s : State) : s.takeResponse.draws = s.draws := by
  unfold State.takeResponse; split <;> rfl

@[simp] theorem State.takeResponse_rspch (s : State) : s.takeResponse.rspch = none := by
  unfold State.takeResponse; split <;> simp_all

theorem State.takeResponse_of_waiting (s : State) (r : Response) (h : s.rspch = some r) :
    s.takeResponse = { s with rspch := none, rspTaken := s.rspTaken ++ [r] } := by
  simp [State.takeResponse, h]

theorem State.takeResponse_of_none (s : State) (h : s.rspch = none) : s.takeResponse = s := by
  simp [State.takeResponse, h]

/-! ## After `afterReset` -/

@[simp] theorem State.afterReset_freq (s : State) : s.afterReset.freq = State.reset.freq := rfl
@[simp] theorem State.afterReset_node (s : State) : s.afterReset.node = State.reset.node := rfl
@[simp] theorem State.afterReset_leafCount (s : State) : s.afterReset.leafCount = State.reset.leafCount := rfl
@[simp] theorem State.afterReset_root (s : State) : s.afterReset.root = State.reset.root := rfl
@[simp] theorem State.afterReset_treeValid (s : State) : s.afterReset.treeValid = State.reset.treeValid := rfl
@[simp] theorem State.afterReset_lut (s : State) : s.afterReset.lut = State.reset.lut := rfl
@[simp] theorem State.afterReset_lutValid (s : State) : s.afterReset.lutValid = State.reset.lutValid := rfl
@[simp] theorem State.afterReset_cursor (s : State) : s.afterReset.cursor = State.reset.cursor := rfl
@[simp] theorem State.afterReset_decErr (s : State) : s.afterReset.decErr = State.reset.decErr := rfl
@[simp] theorem State.afterReset_encErr (s : State) : s.afterReset.encErr = State.reset.encErr := rfl
@[simp] theorem State.afterReset_bout (s : State) : s.afterReset.bout = State.reset.bout := rfl
@[simp] theorem State.afterReset_cmdch (s : State) : s.afterReset.cmdch = s.cmdch := rfl
@[simp] theorem State.afterReset_rspch (s : State) : s.afterReset.rspch = State.reset.rspch := rfl
@[simp] theorem State.afterReset_rspTaken (s : State) : s.afterReset.rspTaken = s.rspTaken := rfl
@[simp] theorem State.afterReset_boutTaken (s : State) : s.afterReset.boutTaken = State.reset.boutTaken := rfl
@[simp] theorem State.afterReset_resetIn (s : State) : s.afterReset.resetIn = true := rfl
@[simp] theorem State.afterReset_hostMoves (s : State) : s.afterReset.hostMoves = s.hostMoves := rfl
@[simp] theorem State.afterReset_draws (s : State) : s.afterReset.draws = s.draws := rfl

/-- RESET twice is RESET once. -/
@[simp] theorem State.afterReset_afterReset (s : State) : s.afterReset.afterReset = s.afterReset := rfl

end Sys2Proof.Machine
end

