-- ==== Sys2Proof/Laws/Exec.lean ====
section
/-! SUPPORT. What a command can do, said once: `AnswersWith p i s u c d` lists the ways command `i` of the block
built with parameters `p` completes on `s`, writing `u` and answering code `c` with data `d`. `exec_next_iff` says these are all. -/

namespace Sys2Proof.Machine

/-- The leaves BUILD starts from: the symbols that occur, and the synthetic one beside a single symbol (R460, R453). -/
def buildLeaves (s : State) : List Node := withSynthetic (symbolLeaves s.freq)

/-- LEAF_COUNT after a successful BUILD. -/
def buildCount (s : State) : Index := BitVec.ofNat 9 (buildLeaves s).length

/-- The valid region of NODE after a successful BUILD. -/
def buildNodes (s : State) : List Node := treeOver (buildLeaves s)

/-- ROOT after a successful BUILD. -/
def buildRoot (s : State) : Index := BitVec.ofNat 9 ((buildNodes s).length - 1)

/-- The LUT entry ENC_SYM reads. -/
def State.entryOfSymbol (s : State) (y : Fin 256) : LutEntry := s.lutAt (y.castLE (by decide))

/-- The ways a command completes: the state it leaves before answering, the code and the data it answers. -/
inductive AnswersWith (p : Params) : Instr → State → State → Code → Word → Prop
  | nop (s) : AnswersWith p .nop s s 0#4 0#32
  | statusRd (s) : AnswersWith p .statusRd s s 0#4 s.status
  | reservedE (s low) : AnswersWith p (.reservedE low) s s 6#4 0#32
  | reservedF (s low) : AnswersWith p (.reservedF low) s s 6#4 0#32
  | freqClr (s) : AnswersWith p .freqClr s s.clearFreq 0#4 0#32
  | freqWr (s idx arg y) : dataSymbol idx = some y → countFits p arg = true →
      AnswersWith p (.freqWr idx arg) s (s.setFreq y arg) 0#4 0#32
  | freqWrRange (s idx arg) : (dataSymbol idx = none ∨ countFits p arg = false) →
      AnswersWith p (.freqWr idx arg) s s 7#4 0#32
  | freqRd (s idx y) : dataSymbol idx = some y → AnswersWith p (.freqRd idx) s s 0#4 (s.freqAt y)
  | freqRdRange (s idx) : dataSymbol idx = none → AnswersWith p (.freqRd idx) s s 7#4 0#32
  | buildEmpty (s) : buildLeaves s = [] → AnswersWith p .build s s.discardTree 1#4 0#32
  | build (s) : buildLeaves s ≠ [] →
      AnswersWith p .build s (s.commitTree (buildNodes s) (buildCount s) (buildRoot s)) 0#4
        (buildData (buildCount s) (buildRoot s))
  | genlutNotReady (s) : s.treeValid = false → AnswersWith p .genlut s s 5#4 0#32
  | genlut (s leaves) : s.treeValid = true → walk s.node (Config.lenMax + 1) s.root [] = .ok leaves →
      AnswersWith p .genlut s (s.commitLut (tableOf leaves)) 0#4 0#32
  | nodeRdNotReady (s idx arg) : s.treeValid = false → AnswersWith p (.nodeRd idx arg) s s 5#4 0#32
  | nodeRdRange (s idx arg) : s.treeValid = true → nodeOperandsInRange s idx arg = false →
      AnswersWith p (.nodeRd idx arg) s s 7#4 0#32
  | nodeRd (s idx arg nd) : s.treeValid = true → nodeOperandsInRange s idx arg = true → s.nodeAt idx = some nd →
      AnswersWith p (.nodeRd idx arg) s s 0#4 (nodeField nd arg)
  | lutRdNotReady (s idx arg) : s.lutValid = false → AnswersWith p (.lutRd idx arg) s s 5#4 0#32
  | lutRdRange (s idx arg) : s.lutValid = true → (lutSymbol idx = none ∨ 8 < arg.toNat) →
      AnswersWith p (.lutRd idx arg) s s 7#4 0#32
  | lutRd (s idx arg y) : s.lutValid = true → lutSymbol idx = some y → arg.toNat ≤ 8 →
      AnswersWith p (.lutRd idx arg) s s 0#4 (lutField (s.lutAt y) arg)
  | encStart (s) : AnswersWith p .encStart s (s.setEncErr 0#4) 0#4 0#32
  | encSymNotReady (s idx) : s.lutValid = false → AnswersWith p (.encSym idx) s s 5#4 0#32
  | encSymRange (s idx) : s.lutValid = true → dataSymbol idx = none → AnswersWith p (.encSym idx) s s 7#4 0#32
  | encSymSticky (s idx y) : s.lutValid = true → dataSymbol idx = some y → s.encErr ≠ 0#4 →
      AnswersWith p (.encSym idx) s s s.encErr 0#32
  | encSymUnknown (s idx y) : s.lutValid = true → dataSymbol idx = some y → s.encErr = 0#4 →
      (s.entryOfSymbol y).len = 0#8 → AnswersWith p (.encSym idx) s (s.setEncErr 4#4) 4#4 0#32
  | encSym (s idx y) : s.lutValid = true → dataSymbol idx = some y → s.encErr = 0#4 → (s.entryOfSymbol y).len ≠ 0#8 →
      AnswersWith p (.encSym idx) s (s.emit ((s.entryOfSymbol y).code.map (markerOf p))) 0#4
        ((s.entryOfSymbol y).len.setWidth 32)
  | decStart (s) : AnswersWith p .decStart s ((s.setCursor s.root).setDecErr 0#4) 0#4 0#32
  | decBitNotReady (s idx) : s.treeValid = false → AnswersWith p (.decBit idx) s s 5#4 0#32
  | decBitRange (s idx) : s.treeValid = true → markerByte idx = none → AnswersWith p (.decBit idx) s s 7#4 0#32
  | decBitSticky (s idx b) : s.treeValid = true → markerByte idx = some b → s.decErr ≠ 0#4 →
      AnswersWith p (.decBit idx) s s s.decErr 0#32
  | decBitInvalid (s idx b) : s.treeValid = true → markerByte idx = some b → s.decErr = 0#4 →
      branchOf p b = none → AnswersWith p (.decBit idx) s (s.setDecErr 2#4) 2#4 0#32
  | decBitLeaf (s idx b branch here nxt) : s.treeValid = true → markerByte idx = some b → s.decErr = 0#4 →
      branchOf p b = some branch → s.nodeAt s.cursor = some here →
      s.nodeAt (here.child branch) = some nxt → nxt.leaf = true →
      AnswersWith p (.decBit idx) s (s.setCursor s.root) 0#4 (emitData nxt.sym)
  | decBitInner (s idx b branch here nxt) : s.treeValid = true → markerByte idx = some b → s.decErr = 0#4 →
      branchOf p b = some branch → s.nodeAt s.cursor = some here →
      s.nodeAt (here.child branch) = some nxt → nxt.leaf = false →
      AnswersWith p (.decBit idx) s (s.setCursor (here.child branch)) 0#4 0#32
  | decEndNotReady (s) : s.treeValid = false → AnswersWith p .decEnd s s 5#4 0#32
  | decEndSticky (s) : s.treeValid = true → s.decErr ≠ 0#4 → AnswersWith p .decEnd s s s.decErr 0#32
  | decEndTruncated (s) : s.treeValid = true → s.decErr = 0#4 → s.cursor ≠ s.root →
      AnswersWith p .decEnd s (s.setDecErr 3#4) 3#4 0#32
  | decEnd (s) : s.treeValid = true → s.decErr = 0#4 → s.cursor = s.root → AnswersWith p .decEnd s s 0#4 0#32

/-- The ways a command of this hardware completes. -/
abbrev Answers (i : Instr) (s u : State) (c : Code) (d : Word) : Prop := AnswersWith Config.params i s u c d

/-- At this hardware's parameters the commands are those of `exec`. -/
theorem execWith_params (i : Instr) (s : State) : execWith Config.params i s = exec i s := by cases i <;> rfl

/-- BUILD over named leaves. -/
theorem execBuild_eq (s : State) :
    execBuild s =
      if buildLeaves s = [] then raise 1#4 s.discardTree
      else answer (buildData (buildCount s) (buildRoot s))
        (s.commitTree (buildNodes s) (buildCount s) (buildRoot s)) := by
  unfold execBuild buildCount buildRoot buildNodes buildLeaves
  split
  · next h => simp [h, StatusCode.bits]
  · next x xs h => simp [h]

/-- A listed way is what the command answers. -/
theorem execWith_of_answers (p : Params) (i : Instr) (s u : State) (c : Code) (d : Word) (h : AnswersWith p i s u c d) :
    execWith p i s = .next (u.respond c d) := by
  induction h
  case build h => simp [execWith, exec, execBuild_eq, h, answer, StatusCode.bits]
  case buildEmpty h => simp [execWith, exec, execBuild_eq, h, raise]
  case freqWrRange idx arg hr =>
    rcases hr with hr | hr
    · simp [execWith, freqWrWith, hr, raise, StatusCode.bits]
    · cases hy : dataSymbol idx <;> simp [execWith, freqWrWith, hy, hr, raise, StatusCode.bits]
  case lutRdRange idx arg hv hr =>
    rcases hr with hr | hr
    · simp [execWith, exec, execLutRd, hv, hr, raise, StatusCode.bits]
    · cases hl : lutSymbol idx with
      | none => simp [execWith, exec, execLutRd, hv, hl, raise, StatusCode.bits]
      | some y => simp [execWith, exec, execLutRd, hv, hl, Nat.not_le.2 hr, raise, StatusCode.bits]
  all_goals
    simp_all [execWith, exec, execNop, execStatusRd, execReservedE, execReservedF, illegalCommand, execFreqClr,
      freqWrWith, execFreqRd, execGenlut, execNodeRd, execLutRd, execEncStart, encSymWith,
      execDecStart, decBitWith, decodeStep, execDecEnd, answer, raise, StatusCode.bits,
      State.entryOfSymbol]

/-- Whatever the command answers is a listed way. -/
theorem answers_of_execWith (p : Params) (i : Instr) (s t : State) (h : execWith p i s = .next t) :
    ∃ u c d, AnswersWith p i s u c d ∧ t = u.respond c d := by
  cases i with
  | nop => cases h; exact ⟨_, _, _, .nop s, rfl⟩
  | statusRd => cases h; exact ⟨_, _, _, .statusRd s, rfl⟩
  | reservedE low => cases h; exact ⟨_, _, _, .reservedE s low, rfl⟩
  | reservedF low => cases h; exact ⟨_, _, _, .reservedF s low, rfl⟩
  | freqClr => cases h; exact ⟨_, _, _, .freqClr s, rfl⟩
  | encStart => cases h; exact ⟨_, _, _, .encStart s, rfl⟩
  | decStart => cases h; exact ⟨_, _, _, .decStart s, rfl⟩
  | freqWr idx arg =>
    cases hy : dataSymbol idx with
    | none =>
      simp only [execWith, freqWrWith, hy] at h; cases h
      exact ⟨_, _, _, .freqWrRange s idx arg (.inl hy), rfl⟩
    | some y =>
      cases hc : countFits p arg with
      | true =>
        simp only [execWith, freqWrWith, hy, hc, if_true] at h; cases h
        exact ⟨_, _, _, .freqWr s idx arg y hy hc, rfl⟩
      | false =>
        simp only [execWith, freqWrWith, hy, hc, Bool.false_eq_true, if_false] at h; cases h
        exact ⟨_, _, _, .freqWrRange s idx arg (.inr hc), rfl⟩
  | freqRd idx =>
    cases hy : dataSymbol idx with
    | none => simp only [execWith, exec, execFreqRd, hy] at h; cases h; exact ⟨_, _, _, .freqRdRange s idx hy, rfl⟩
    | some y => simp only [execWith, exec, execFreqRd, hy] at h; cases h; exact ⟨_, _, _, .freqRd s idx y hy, rfl⟩
  | build =>
    by_cases hl : buildLeaves s = []
    · simp only [execWith, exec, execBuild_eq, hl, if_true] at h; cases h; exact ⟨_, _, _, .buildEmpty s hl, rfl⟩
    · simp only [execWith, exec, execBuild_eq, hl, if_false] at h; cases h; exact ⟨_, _, _, .build s hl, rfl⟩
  | genlut =>
    cases hv : s.treeValid with
    | false =>
      simp only [execWith, exec, execGenlut, hv, Bool.not_false, if_true] at h; cases h
      exact ⟨_, _, _, .genlutNotReady s hv, rfl⟩
    | true =>
      cases hw : walk s.node (Config.lenMax + 1) s.root [] with
      | error e => simp [execWith, exec, execGenlut, hv, hw] at h
      | ok leaves =>
        simp only [execWith, exec, execGenlut, hv, hw, Bool.not_true, Bool.false_eq_true, if_false] at h; cases h
        exact ⟨_, _, _, .genlut s leaves hv hw, rfl⟩
  | nodeRd idx arg =>
    cases hv : s.treeValid with
    | false =>
      simp only [execWith, exec, execNodeRd, hv, Bool.not_false, if_true] at h; cases h
      exact ⟨_, _, _, .nodeRdNotReady s idx arg hv, rfl⟩
    | true =>
      cases hr : nodeOperandsInRange s idx arg with
      | false =>
        simp only [execWith, exec, execNodeRd, hv, hr, Bool.not_true, Bool.false_eq_true, if_false] at h; cases h
        exact ⟨_, _, _, .nodeRdRange s idx arg hv hr, rfl⟩
      | true =>
        cases hn : s.nodeAt idx with
        | none => simp [execWith, exec, execNodeRd, hv, hr, hn] at h
        | some nd =>
          simp only [execWith, exec, execNodeRd, hv, hr, hn, Bool.not_true, Bool.false_eq_true, if_false, if_true] at h
          cases h; exact ⟨_, _, _, .nodeRd s idx arg nd hv hr hn, rfl⟩
  | lutRd idx arg =>
    cases hv : s.lutValid with
    | false =>
      simp only [execWith, exec, execLutRd, hv, Bool.not_false, if_true] at h; cases h
      exact ⟨_, _, _, .lutRdNotReady s idx arg hv, rfl⟩
    | true =>
      cases hy : lutSymbol idx with
      | none =>
        simp only [execWith, exec, execLutRd, hv, hy, Bool.not_true, Bool.false_eq_true, if_false] at h; cases h
        exact ⟨_, _, _, .lutRdRange s idx arg hv (.inl hy), rfl⟩
      | some y =>
        by_cases ha : arg.toNat ≤ 8
        · simp only [execWith, exec, execLutRd, hv, hy, ha, Bool.not_true, Bool.false_eq_true, if_false, if_true] at h
          cases h; exact ⟨_, _, _, .lutRd s idx arg y hv hy ha, rfl⟩
        · simp only [execWith, exec, execLutRd, hv, hy, ha, Bool.not_true, Bool.false_eq_true, if_false] at h
          cases h; exact ⟨_, _, _, .lutRdRange s idx arg hv (.inr (by omega)), rfl⟩
  | encSym idx =>
    cases hv : s.lutValid with
    | false =>
      simp only [execWith, encSymWith, hv, Bool.not_false, if_true] at h; cases h
      exact ⟨_, _, _, .encSymNotReady s idx hv, rfl⟩
    | true =>
      cases hy : dataSymbol idx with
      | none =>
        simp only [execWith, encSymWith, hv, hy, Bool.not_true, Bool.false_eq_true, if_false] at h; cases h
        exact ⟨_, _, _, .encSymRange s idx hv hy, rfl⟩
      | some y =>
        by_cases he : s.encErr = 0#4
        · by_cases hl : (s.entryOfSymbol y).len = 0#8
          · have hl' := hl
            unfold State.entryOfSymbol at hl'
            simp only [execWith, encSymWith, hv, hy, he, hl', Bool.not_true, Bool.false_eq_true, if_false,
              if_true, ne_eq, not_true_eq_false] at h
            cases h; exact ⟨_, _, _, .encSymUnknown s idx y hv hy he hl, rfl⟩
          · have hl' := hl
            unfold State.entryOfSymbol at hl'
            simp only [execWith, encSymWith, hv, hy, he, hl', Bool.not_true, Bool.false_eq_true, if_false,
              ne_eq, not_true_eq_false] at h
            cases h; exact ⟨_, _, _, .encSym s idx y hv hy he hl, rfl⟩
        · simp only [execWith, encSymWith, hv, hy, he, Bool.not_true, Bool.false_eq_true, if_false, if_true,
            ne_eq, not_false_eq_true] at h
          cases h; exact ⟨_, _, _, .encSymSticky s idx y hv hy he, rfl⟩
  | decBit idx =>
    cases hv : s.treeValid with
    | false =>
      simp only [execWith, decBitWith, hv, Bool.not_false, if_true] at h; cases h
      exact ⟨_, _, _, .decBitNotReady s idx hv, rfl⟩
    | true =>
      cases hb : markerByte idx with
      | none =>
        simp only [execWith, decBitWith, hv, hb, Bool.not_true, Bool.false_eq_true, if_false] at h; cases h
        exact ⟨_, _, _, .decBitRange s idx hv hb, rfl⟩
      | some b =>
        by_cases he : s.decErr = 0#4
        · simp only [execWith, decBitWith, hv, hb, he, Bool.not_true, Bool.false_eq_true, if_false, ne_eq,
            not_true_eq_false] at h
          cases hr : branchOf p b with
          | none => simp only [hr] at h; cases h; exact ⟨_, _, _, .decBitInvalid s idx b hv hb he hr, rfl⟩
          | some branch =>
            simp only [hr, decodeStep] at h
            cases hc : s.nodeAt s.cursor with
            | none => simp [hc] at h
            | some here =>
              simp only [hc] at h
              cases hn : s.nodeAt (here.child branch) with
              | none => simp [hn] at h
              | some nxt =>
                simp only [hn] at h
                cases hl : nxt.leaf with
                | true =>
                  simp only [hl, if_true] at h; cases h
                  exact ⟨_, _, _, .decBitLeaf s idx b branch here nxt hv hb he hr hc hn hl, rfl⟩
                | false =>
                  simp only [hl, Bool.false_eq_true, if_false] at h; cases h
                  exact ⟨_, _, _, .decBitInner s idx b branch here nxt hv hb he hr hc hn hl, rfl⟩
        · simp only [execWith, decBitWith, hv, hb, he, Bool.not_true, Bool.false_eq_true, if_false, if_true,
            ne_eq, not_false_eq_true] at h
          cases h; exact ⟨_, _, _, .decBitSticky s idx b hv hb he, rfl⟩
  | decEnd =>
    cases hv : s.treeValid with
    | false =>
      simp only [execWith, exec, execDecEnd, hv, Bool.not_false, if_true] at h; cases h
      exact ⟨_, _, _, .decEndNotReady s hv, rfl⟩
    | true =>
      by_cases he : s.decErr = 0#4
      · by_cases hc : s.cursor = s.root
        · simp only [execWith, exec, execDecEnd, hv, he, hc, Bool.not_true, Bool.false_eq_true, if_false, ne_eq,
            not_true_eq_false] at h
          cases h; exact ⟨_, _, _, .decEnd s hv he hc, rfl⟩
        · simp only [execWith, exec, execDecEnd, hv, he, hc, Bool.not_true, Bool.false_eq_true, if_false, if_true, ne_eq,
            not_true_eq_false, not_false_eq_true] at h
          cases h; exact ⟨_, _, _, .decEndTruncated s hv he hc, rfl⟩
      · simp only [execWith, exec, execDecEnd, hv, he, Bool.not_true, Bool.false_eq_true, if_false, if_true, ne_eq,
          not_false_eq_true] at h
        cases h; exact ⟨_, _, _, .decEndSticky s hv he, rfl⟩

/-- `execWith_of_answers` at this hardware's parameters. -/
theorem exec_of_answers (i : Instr) (s u : State) (c : Code) (d : Word) (h : Answers i s u c d) :
    exec i s = .next (u.respond c d) := by rw [← execWith_params]; exact execWith_of_answers _ _ _ _ _ _ h

/-- `answers_of_execWith` at this hardware's parameters. -/
theorem answers_of_exec (i : Instr) (s t : State) (h : exec i s = .next t) :
    ∃ u c d, Answers i s u c d ∧ t = u.respond c d := by
  rw [← execWith_params] at h; exact answers_of_execWith _ _ _ _ h

/-- What no command touches: the channels but RSPCH, RESET and the host's moves (R161). -/
theorem AnswersWith.channels {p : Params} {i : Instr} {s u : State} {c : Code} {d : Word} (h : AnswersWith p i s u c d) :
    u.cmdch = s.cmdch ∧ u.rspch = s.rspch ∧ u.rspTaken = s.rspTaken ∧ u.boutTaken = s.boutTaken ∧
      u.resetIn = s.resetIn ∧ u.hostMoves = s.hostMoves := by
  induction h <;> exact ⟨rfl, rfl, rfl, rfl, rfl, rfl⟩

/-- What a command does, both ways: provers cite this and split `Answers` by its cases. -/
theorem exec_next_iff (i : Instr) (s t : State) :
    exec i s = .next t ↔ ∃ u c d, Answers i s u c d ∧ t = u.respond c d :=
  ⟨answers_of_exec i s t, fun ⟨_, _, _, h, e⟩ => e ▸ exec_of_answers _ _ _ _ _ h⟩

end Sys2Proof.Machine
end

