-- ==== Sys2Proof/Laws/Leaves.lean ====
section
/-! SUPPORT. NODE after a BUILD entry by entry, and the leaves BUILD starts from (R116, R453, R460). -/

namespace Sys2Proof.Machine

/-! ## NODE after a BUILD -/

/-- What `fillNodes` holds: the valid region, then the free value (R116). -/
theorem fillNodes_getElem (draw : Nat) (nodes : List Node) (i : Nat) (h : i < 511) :
    (fillNodes draw nodes)[i] = nodes[i]?.getD (Node.ofBits (Config.freeNodeBits draw i)) := by
  unfold fillNodes
  rw [Vector.getElem_ofFn]

/-- Inside the valid region `fillNodes` holds the node BUILD made. -/
theorem fillNodes_getElem_valid (draw : Nat) (nodes : List Node) (i : Nat) (h : i < 511) (hi : i < nodes.length) :
    (fillNodes draw nodes)[i] = nodes[i] := by
  rw [fillNodes_getElem, List.getElem?_eq_getElem hi, Option.getD_some]

/-! ## The leaves (R460 steps 1 and 3, R453) -/

/-- The leaf of a symbol with its count, if it occurs. -/
def leafOf (c : Word × Nat) : Option Node :=
  if c.1 = 0#32 then none else some (leafNode (BitVec.ofNat 9 c.2) (c.1.setWidth 40))

theorem symbolLeaves_eq (freq : Vector Word 256) : symbolLeaves freq = freq.toList.zipIdx.filterMap leafOf := rfl

theorem leafOf_eq_some (c : Word × Nat) (nd : Node) :
    leafOf c = some nd ↔ c.1 ≠ 0#32 ∧ nd = leafNode (BitVec.ofNat 9 c.2) (c.1.setWidth 40) := by
  unfold leafOf
  split_ifs with h
  · simp [h]
  · simp [h, eq_comm]

/-- The leaves are the symbols that occur, each with its frequency. -/
theorem mem_symbolLeaves (freq : Vector Word 256) (nd : Node) :
    nd ∈ symbolLeaves freq ↔
      ∃ y : Fin 256, freq[y] ≠ 0#32 ∧ nd = leafNode (BitVec.ofNat 9 y.val) (freq[y].setWidth 40) := by
  rw [symbolLeaves_eq, List.mem_filterMap]
  constructor
  · rintro ⟨⟨w, n⟩, hm, hl⟩
    rw [List.mem_zipIdx_iff_getElem?] at hm
    obtain ⟨hn, he⟩ := List.getElem?_eq_some_iff.1 hm
    simp only [Vector.length_toList] at hn
    obtain ⟨h0, rfl⟩ := (leafOf_eq_some _ _).1 hl
    simp only [Vector.getElem_toList] at he
    exact ⟨⟨n, hn⟩, by simpa [he] using h0, by simp [he]⟩
  · rintro ⟨y, h0, rfl⟩
    refine ⟨(freq[y], y.val), ?_, (leafOf_eq_some _ _).2 ⟨h0, rfl⟩⟩
    rw [List.mem_zipIdx_iff_getElem?]
    simp

/-- No symbol occurs exactly when there is no leaf. -/
theorem symbolLeaves_eq_nil (freq : Vector Word 256) : symbolLeaves freq = [] ↔ ∀ y : Fin 256, freq[y] = 0#32 := by
  constructor
  · intro h y
    by_contra hy
    have := (mem_symbolLeaves freq _).2 ⟨y, hy, rfl⟩
    rw [h] at this
    simp at this
  · intro h
    rw [List.eq_nil_iff_forall_not_mem]
    intro nd hnd
    obtain ⟨y, hy, -⟩ := (mem_symbolLeaves freq nd).1 hnd
    exact hy (h y)

/-- What the leaves of a stretch of the table are, in one induction. -/
theorem leavesFrom_spec (l : List Word) (n : Nat) (hn : n + l.length ≤ 256) :
    ((l.zipIdx n).filterMap leafOf).Pairwise (fun a b => a.sym.toNat < b.sym.toNat) ∧
    (∀ nd ∈ (l.zipIdx n).filterMap leafOf, n ≤ nd.sym.toNat ∧ nd.sym.toNat < 256) ∧
    ((l.zipIdx n).filterMap leafOf).length = (l.filter (· ≠ 0#32)).length ∧
    (((l.zipIdx n).filterMap leafOf).map fun nd => nd.weight.toNat).sum = (l.map BitVec.toNat).sum := by
  induction l generalizing n with
  | nil => simp
  | cons w ws ih =>
    simp only [List.length_cons] at hn
    obtain ⟨h1, h2, h3, h4⟩ := ih (n + 1) (by omega)
    have hsym : (BitVec.ofNat 9 n).toNat = n := by rw [BitVec.toNat_ofNat]; omega
    by_cases hw : w = 0#32
    · have hl : leafOf (w, n) = none := if_pos hw
      simp only [List.zipIdx_cons, List.filterMap_cons, hl]
      refine ⟨h1, fun nd hnd => ⟨by have := h2 nd hnd; omega, (h2 nd hnd).2⟩, ?_, ?_⟩
      · rw [h3]; simp [hw]
      · rw [h4]; simp [hw]
    · have hl : leafOf (w, n) = some (leafNode (BitVec.ofNat 9 n) (w.setWidth 40)) := if_neg hw
      simp only [List.zipIdx_cons, List.filterMap_cons, hl]
      refine ⟨List.pairwise_cons.2 ⟨fun nd hnd => ?_, h1⟩, fun nd hnd => ?_, ?_, ?_⟩
      · have := h2 nd hnd
        simp only [leafNode, hsym]; omega
      · rcases List.mem_cons.1 hnd with rfl | hnd
        · simp only [leafNode, hsym]; omega
        · have := h2 nd hnd; omega
      · simp [hw, h3]
      · have := w.isLt
        simp only [List.map_cons, List.sum_cons, h4, leafNode, BitVec.toNat_setWidth]
        omega

theorem symbolLeaves_ascending (freq : Vector Word 256) :
    (symbolLeaves freq).Pairwise (fun a b => a.sym.toNat < b.sym.toNat) :=
  (leavesFrom_spec freq.toList 0 (by simp)).1

theorem symbolLeaves_length (freq : Vector Word 256) :
    (symbolLeaves freq).length = (freq.toList.filter (· ≠ 0#32)).length :=
  (leavesFrom_spec freq.toList 0 (by simp)).2.2.1

theorem symbolLeaves_sum (freq : Vector Word 256) :
    ((symbolLeaves freq).map fun nd => nd.weight.toNat).sum = (freq.toList.map BitVec.toNat).sum :=
  (leavesFrom_spec freq.toList 0 (by simp)).2.2.2

/-- 256 counts of 32 bits sum to less than 2^40 (R15). -/
theorem sum_le (l : List Word) : (l.map BitVec.toNat).sum ≤ l.length * (2 ^ 32 - 1) := by
  induction l with
  | nil => simp
  | cons w ws ih =>
    have := w.isLt
    simp only [List.map_cons, List.sum_cons, List.length_cons]
    omega

theorem symbolLeaves_sum_lt (freq : Vector Word 256) :
    ((symbolLeaves freq).map fun nd => nd.weight.toNat).sum ≤ 256 * (2 ^ 32 - 1) := by
  rw [symbolLeaves_sum]
  have := sum_le freq.toList
  simpa using this

/-- What BUILD's leaves are: the symbols that occur, with the synthetic leaf exactly when one occurs. -/
structure LeavesOk (freq : Vector Word 256) (leaves : List Node) : Prop where
  few : 2 ≤ leaves.length ∧ leaves.length ≤ 256
  ascending : leaves.Pairwise fun a b => a.sym.toNat < b.sym.toNat
  shape : ∀ nd ∈ leaves, nd.leaf = true ∧ nd.left = 0#9 ∧ nd.right = 0#9 ∧ 1 ≤ nd.weight.toNat ∧ nd.sym.toNat ≤ 256
  small : (leaves.map fun nd => nd.weight.toNat).sum < 2 ^ 40
  sum : (leaves.map fun nd => nd.weight.toNat).sum =
    (freq.toList.map BitVec.toNat).sum + (if (freq.toList.filter (· ≠ 0#32)).length = 1 then 1 else 0)
  complete : ∀ y : Fin 256, freq[y] ≠ 0#32 → leafNode (BitVec.ofNat 9 y.val) (freq[y].setWidth 40) ∈ leaves
  sound : ∀ (i : Nat) (nd : Node), leaves[i]? = some nd →
    (∃ y : Fin 256, freq[y] ≠ 0#32 ∧ nd = leafNode (BitVec.ofNat 9 y.val) (freq[y].setWidth 40)) ∨
    (nd = leafNode 256#9 1#40 ∧ i = 1 ∧ leaves.length = 2 ∧
      ∃ y : Fin 256, freq[y] ≠ 0#32 ∧ ∀ z : Fin 256, freq[z] ≠ 0#32 → z = y)

theorem leafNode_ok (freq : Vector Word 256) (nd : Node) (h : nd ∈ symbolLeaves freq) :
    nd.leaf = true ∧ nd.left = 0#9 ∧ nd.right = 0#9 ∧ 1 ≤ nd.weight.toNat ∧ nd.sym.toNat < 256 := by
  obtain ⟨y, hy, rfl⟩ := (mem_symbolLeaves freq nd).1 h
  have h0 : freq[y].toNat ≠ 0 := fun e => hy (BitVec.eq_of_toNat_eq e)
  have := freq[y].isLt
  have := y.isLt
  refine ⟨rfl, rfl, rfl, ?_, ?_⟩
  · simp only [leafNode, BitVec.toNat_setWidth]; omega
  · simp only [leafNode, BitVec.toNat_ofNat]; omega

theorem leavesOk (freq : Vector Word 256) (h : ∃ y : Fin 256, freq[y] ≠ 0#32) :
    LeavesOk freq (withSynthetic (symbolLeaves freq)) := by
  have hasc := symbolLeaves_ascending freq
  have hlen := symbolLeaves_length freq
  have hsum := symbolLeaves_sum freq
  have hlt := symbolLeaves_sum_lt freq
  have hok := leafNode_ok freq
  have hmem := mem_symbolLeaves freq
  have hfew : (symbolLeaves freq).length ≤ 256 := by
    rw [hlen]; exact (List.length_filter_le _ _).trans (by simp)
  have hne : symbolLeaves freq ≠ [] := by
    intro e
    obtain ⟨y, hy⟩ := h
    exact hy ((symbolLeaves_eq_nil freq).1 e y)
  have hinj : ∀ y z : Fin 256, BitVec.ofNat 9 y.val = BitVec.ofNat 9 z.val → y = z := by
    intro y z e
    have := congrArg BitVec.toNat e
    simp only [BitVec.toNat_ofNat] at this
    have := y.isLt; have := z.isLt
    exact Fin.ext (by omega)
  generalize hL : symbolLeaves freq = L at *
  match L, hne with
  | [x], _ =>
    obtain ⟨y, hy, hx⟩ := (hmem x).1 (by simp)
    have hone : ∀ z : Fin 256, freq[z] ≠ 0#32 → z = y := by
      intro z hz
      have := (hmem _).2 ⟨z, hz, rfl⟩
      simp only [List.mem_singleton, hx, leafNode, Node.mk.injEq, true_and] at this
      exact hinj _ _ this.1
    have hx' := hok x (by simp)
    simp only [List.length_singleton] at hlen
    constructor
    · simp [withSynthetic]
    · simp only [withSynthetic, List.pairwise_cons, List.mem_singleton]
      refine ⟨fun nd hnd => ?_, by simp⟩
      subst hnd
      exact hx'.2.2.2.2
    · intro nd hnd
      simp only [withSynthetic, List.mem_cons, List.not_mem_nil, or_false] at hnd
      rcases hnd with rfl | rfl
      · exact ⟨hx'.1, hx'.2.1, hx'.2.2.1, hx'.2.2.2.1, by omega⟩
      · exact ⟨rfl, rfl, rfl, by decide, by decide⟩
    · simp [withSynthetic, leafNode] at hlt ⊢
      omega
    · rw [← hlen, ← hsum]
      simp [withSynthetic, leafNode]
    · intro z hz
      rw [hone z hz, ← hx]
      simp [withSynthetic]
    · intro i nd hi
      match i with
      | 0 =>
        simp only [withSynthetic, List.getElem?_cons_zero, Option.some.injEq] at hi
        exact .inl ⟨y, hy, hi ▸ hx⟩
      | 1 =>
        simp only [withSynthetic, List.getElem?_cons_succ, List.getElem?_cons_zero, Option.some.injEq] at hi
        exact .inr ⟨hi.symm, rfl, rfl, y, hy, hone⟩
      | i + 2 => simp [withSynthetic] at hi
  | x :: x' :: xs, _ =>
    have hw : withSynthetic (x :: x' :: xs) = x :: x' :: xs := rfl
    rw [hw]
    constructor
    · exact ⟨by simp, hfew⟩
    · exact hasc
    · exact fun nd hnd => by
        have := hok nd hnd
        exact ⟨this.1, this.2.1, this.2.2.1, this.2.2.2.1, by omega⟩
    · omega
    · rw [hsum, ← hlen]; simp
    · exact fun z hz => (hmem _).2 ⟨z, hz, rfl⟩
    · intro i nd hi
      exact .inl ((hmem nd).1 (List.mem_of_getElem? hi))

end Sys2Proof.Machine
end

