-- ==== Sys2Proof/Laws/Tree.lean ====
section
/-! SUPPORT. The tree a successful BUILD leaves, carried from lists of nodes to the state (R117, R460, R464). -/

namespace Sys2Proof.Machine

/-- What a successful BUILD leaves: NODE begins with the nodes merged over the leaves of FREQ (R460, R464). -/
structure Built (freq : Vector Word 256) (leaves nodes : List Node) (t : State) : Prop where
  leavesOk : LeavesOk freq leaves
  length : nodes.length = 2 * leaves.length - 1
  merges : ∃ x, MergeInv leaves nodes [x]
  count : t.leafCount.toNat = leaves.length
  rootIs : t.root.toNat = 2 * leaves.length - 2
  holds : ∀ i : Fin 511, i.val < nodes.length → nodes[i.val]? = some t.node[i]

/-- BUILD over a table that is not empty, as lists. -/
theorem built_commit (s : State) (h : ∃ y : Fin 256, s.freq[y] ≠ 0#32) :
    Built s.freq (buildLeaves s) (buildNodes s)
      ((s.commitTree (buildNodes s) (buildCount s) (buildRoot s)).respond 0#4 (buildData (buildCount s) (buildRoot s))) := by
  have hok : LeavesOk s.freq (buildLeaves s) := Machine.leavesOk s.freq h
  obtain ⟨hlen, hm⟩ := treeOver_spec (buildLeaves s) (by have := hok.few; omega) hok.few.2 hok.small
  have hlen' : (buildNodes s).length = 2 * (buildLeaves s).length - 1 := hlen
  have := hok.few
  refine ⟨hok, hlen, hm, ?_, ?_, fun i hi => ?_⟩
  · show (BitVec.ofNat 9 _).toNat = _
    rw [BitVec.toNat_ofNat]; omega
  · show (BitVec.ofNat 9 _).toNat = _
    rw [BitVec.toNat_ofNat]; omega
  · show _ = some (fillNodes s.draws (buildNodes s))[i.val]
    rw [fillNodes_getElem_valid _ _ _ _ hi, List.getElem?_eq_getElem hi]

theorem buildLeaves_eq_nil (s : State) : buildLeaves s = [] ↔ ∀ y : Fin 256, s.freq[y] = 0#32 := by
  rw [← symbolLeaves_eq_nil]
  unfold buildLeaves withSynthetic
  split
  · next h => simp [h]
  · rfl

/-- The two ways BUILD answers. -/
theorem exec_build_cases (s : State) :
    ((∀ y : Fin 256, s.freq[y] = 0#32) ∧ exec .build s = .next (s.discardTree.respond 1#4 0#32)) ∨
    ((∃ y : Fin 256, s.freq[y] ≠ 0#32) ∧ exec .build s =
      .next ((s.commitTree (buildNodes s) (buildCount s) (buildRoot s)).respond 0#4
        (buildData (buildCount s) (buildRoot s)))) := by
  by_cases h : ∀ y : Fin 256, s.freq[y] = 0#32
  · exact .inl ⟨h, exec_of_answers _ _ _ _ _ (.buildEmpty s ((buildLeaves_eq_nil s).2 h))⟩
  · exact .inr ⟨by simpa using h, exec_of_answers _ _ _ _ _ (.build s (fun e => h ((buildLeaves_eq_nil s).1 e)))⟩

/-- A BUILD that leaves a tree. -/
theorem built_of_build (s t : State) (h : exec .build s = .next t) (hv : t.treeValid = true) :
    (∃ y : Fin 256, s.freq[y] ≠ 0#32) ∧
      t = (s.commitTree (buildNodes s) (buildCount s) (buildRoot s)).respond 0#4 (buildData (buildCount s) (buildRoot s)) ∧
      Built s.freq (buildLeaves s) (buildNodes s) t := by
  rcases exec_build_cases s with ⟨h0, he⟩ | ⟨h0, he⟩
  · rw [he] at h
    cases h
    simp [State.respond, State.discardTree] at hv
  · rw [he] at h
    cases h
    exact ⟨h0, rfl, built_commit s h0⟩

variable {freq : Vector Word 256} {leaves nodes : List Node} {t : State}

theorem Built.nodeIs (b : Built freq leaves nodes t) (i : Fin 511) (hi : i.val < nodes.length) :
    nodes[i.val] = t.node[i] := by
  have := b.holds i hi
  rwa [List.getElem?_eq_getElem hi, Option.some.injEq] at this

theorem Built.length_le (b : Built freq leaves nodes t) : nodes.length ≤ 511 := by
  have := b.length; have := b.leavesOk.few; omega

theorem Built.weight (b : Built freq leaves nodes t) (i : Fin 511) (hi : i.val < nodes.length) :
    listWeight nodes i.val = t.node[i].weight.toNat := by
  rw [listWeight, b.holds i hi]; rfl

theorem Built.child (b : Built freq leaves nodes t) (j : Nat) (n : Fin 511) (hn : n.val < nodes.length) :
    listChild nodes j n.val ↔ (t.node[n].left.toNat = j ∨ t.node[n].right.toNat = j) := by
  unfold listChild
  rw [b.holds n hn]
  simp

/-- Every internal node is a merge, in terms of the state. -/
theorem Built.mergesTwoLeast (b : Built freq leaves nodes t) (m : Fin 511) (hm : t.innerAt m.val) :
    t.mergesTwoLeast m := by
  obtain ⟨x, hx⟩ := b.merges
  have hlen := b.length; have hfew := b.leavesOk.few; have hc := b.count; have hr := b.rootIs
  obtain ⟨hm1, hm2⟩ := hm
  have hml : m.val < nodes.length := by omega
  obtain ⟨a, c, w, hn, hw, ha, hb, hab, hl⟩ := hx.merged m.val (by omega) hml
  have ha' := ha.1; have hb' := hb.1
  have hun : ∀ j : Fin 511, listUnmerged nodes leaves.length m.val j.val ↔ t.unmergedAt m j := by
    intro j
    unfold listUnmerged State.unmergedAt State.childOf
    constructor
    · exact fun ⟨h1, h2⟩ => ⟨h1, fun n hk hn hc' => h2 n.val (by omega) hn ((b.child _ n (by omega)).2 hc')⟩
    · exact fun ⟨h1, h2⟩ => ⟨h1, fun n hk hn hc' =>
        h2 ⟨n, by omega⟩ (by simpa [hc] using hk) hn ((b.child j.val ⟨n, by omega⟩ (by simp; omega)).1 hc')⟩
  have hpre : ∀ i j : Fin 511, i.val < nodes.length → j.val < nodes.length →
      (listPrecedes nodes i.val j.val ↔ t.precedes i j) := by
    intro i j hi hj
    unfold listPrecedes State.precedes
    rw [b.weight i hi, b.weight j hj]
  have hnode : t.node[m] = ⟨false, 0#9, BitVec.ofNat 9 a, BitVec.ofNat 9 c, w⟩ := by
    have := b.holds m hml
    rw [hn] at this
    exact (Option.some.inj this).symm
  refine ⟨⟨a, by omega⟩, ⟨c, by omega⟩, ?_, ?_, (hun _).1 ha, (hun _).1 hb, (hpre ⟨a, _⟩ ⟨c, _⟩ (by simp; omega) (by simp; omega)).1 hab, ?_⟩
  · rw [hnode]
  · rw [hnode, ← b.weight ⟨a, by omega⟩ (by simp; omega), ← b.weight ⟨c, by omega⟩ (by simp; omega)]
    exact hw
  · intro j hj hja hjb
    have hj1 := hj.1
    exact (hpre ⟨c, _⟩ j (by simp; omega) (by omega)).1 (hl j.val ((hun j).2 hj) (fun e => hja (Fin.ext e)) (fun e => hjb (Fin.ext e)))

/-- Every entry but the last is the child of exactly one internal node. -/
theorem Built.oneParent (b : Built freq leaves nodes t) (m : Fin 511) (hm : m.val < t.root.toNat) :
    ∃ n : Fin 511, t.innerAt n.val ∧ t.childOf m n ∧ ∀ n' : Fin 511, t.innerAt n'.val → t.childOf m n' → n' = n := by
  obtain ⟨x, hx⟩ := b.merges
  have hlen := b.length; have hfew := b.leavesOk.few; have hc := b.count; have hr := b.rootIs
  have hlast : listUnmerged nodes leaves.length nodes.length (2 * leaves.length - 2) := by
    refine ⟨by omega, fun n hk hn => ?_⟩
    rintro ⟨nd, hnd, hch⟩
    obtain ⟨a, c, w, hn', -, ha, hb, -⟩ := hx.merged n hk hn
    have := ha.1; have := hb.1
    rw [hn'] at hnd
    cases hnd
    simp only [BitVec.toNat_ofNat] at hch
    omega
  have hnot : ¬ listUnmerged nodes leaves.length nodes.length m.val := by
    intro hu
    obtain ⟨y, hy, hym⟩ := (hx.mem _).2 hu
    obtain ⟨z, hz, hzl⟩ := (hx.mem _).2 hlast
    simp only [List.mem_singleton] at hy hz
    subst hy; subst hz
    omega
  have huniq : ∀ n n' : Fin 511, t.innerAt n.val → t.innerAt n'.val → t.childOf m n → t.childOf m n' → ¬ n.val < n'.val := by
    intro n n' hn hn' hcn hcn' hlt
    obtain ⟨hn1, hn2⟩ := hn
    obtain ⟨a, c, heq, -, ha, hb, -⟩ := b.mergesTwoLeast n' hn'
    have ha1 := a.isLt; have hc1 := c.isLt
    have hml := m.isLt
    rcases hcn' with e | e
    · rw [heq, BitVec.toNat_ofNat, Nat.mod_eq_of_lt (by omega)] at e
      exact ha.2 n hn1 hlt (Fin.ext e ▸ hcn)
    · rw [heq, BitVec.toNat_ofNat, Nat.mod_eq_of_lt (by omega)] at e
      exact hb.2 n hn1 hlt (Fin.ext e ▸ hcn)
  have : ∃ n, leaves.length ≤ n ∧ n < nodes.length ∧ listChild nodes m.val n := by
    by_contra hcon
    push Not at hcon
    exact hnot ⟨by omega, fun n hk hn => hcon n hk hn⟩
  obtain ⟨n, hk, hn, hch⟩ := this
  have hin : t.innerAt n := ⟨by omega, by omega⟩
  refine ⟨⟨n, by omega⟩, hin, (b.child _ ⟨n, by omega⟩ hn).1 hch, fun n' hn' hc' => ?_⟩
  have h1 := huniq ⟨n, by omega⟩ n' hin hn' ((b.child _ ⟨n, by omega⟩ hn).1 hch) hc'
  have h2 := huniq n' ⟨n, by omega⟩ hn' hin hc' ((b.child _ ⟨n, by omega⟩ hn).1 hch)
  exact Fin.ext (by simp only at *; omega)

/-- The first entries are the leaves. -/
theorem Built.leafIs (b : Built freq leaves nodes t) (i : Fin 511) (hi : i.val < leaves.length) :
    leaves[i.val]? = some t.node[i] := by
  obtain ⟨x, hx⟩ := b.merges
  obtain ⟨inner, e⟩ := hx.begins
  have := b.length
  rw [← b.holds i (by omega), e, List.getElem?_append_left hi]

theorem nodeAt_eq (s : State) (n : Index) (j : Fin 511) (h : n.toNat = j.val) : s.nodeAt n = some s.node[j] := by
  simp [State.nodeAt, h]

theorem weightOf_eq (s : State) (n : Index) (j : Fin 511) (h : n.toNat = j.val) :
    s.weightOf n = s.node[j].weight.toNat := by
  simp only [State.weightOf, nodeAt_eq s n j h]

/-- The tree of a successful BUILD. -/
theorem Built.treeOk (b : Built freq leaves nodes t) : TreeOk t := by
  have hlen := b.length; have hfew := b.leavesOk.few; have hc := b.count; have hr := b.rootIs
  constructor
  · omega
  · omega
  · intro i hi
    have := b.leavesOk.shape _ (List.mem_of_getElem? (b.leafIs i (by omega)))
    exact this
  · intro i j hij hj
    have h1 := b.leafIs i (by omega)
    have h2 := b.leafIs j (by omega)
    obtain ⟨h3, h4⟩ := List.getElem?_eq_some_iff.1 h1
    obtain ⟨h5, h6⟩ := List.getElem?_eq_some_iff.1 h2
    have := List.pairwise_iff_getElem.1 b.leavesOk.ascending i.val j.val h3 h5 hij
    rwa [h4, h6] at this
  · intro n hn
    obtain ⟨a, c, he, hw, ha, hb, hpre, -⟩ := b.mergesTwoLeast n hn
    have ha1 := ha.1; have hb1 := hb.1; have := n.isLt
    have hal : t.node[n].left.toNat = a.val := by rw [he, BitVec.toNat_ofNat]; omega
    have hcl : t.node[n].right.toNat = c.val := by rw [he, BitVec.toNat_ofNat]; omega
    refine ⟨by rw [he], by rw [he], by omega, by omega, ?_, ?_⟩
    · intro e
      rw [e] at hal
      have : a = c := Fin.ext (by omega)
      subst this
      unfold State.precedes at hpre
      omega
    · rw [weightOf_eq _ _ a hal, weightOf_eq _ _ c hcl, hw]
  · exact fun m hm => b.oneParent m hm

end Sys2Proof.Machine
end

