-- ==== Sys2Proof/Laws/CodeTable.lean ====
section
/-! SUPPORT. Code words, paths in the tree, the walk of GENLUT and the table it writes (R126, R501). -/

namespace Sys2Proof.Machine

/-! ## Code words as numbers -/

theorem bitsValue_testBit (code : List Bool) (i : Nat) : (bitsValue code).testBit i = code[i]?.getD false := by
  induction code generalizing i with
  | nil => simp [bitsValue]
  | cons b bs ih =>
    cases i with
    | zero => cases b <;> simp [bitsValue, Nat.testBit_zero]
    | succ i =>
      rw [Nat.testBit_succ]
      have : bitsValue (b :: bs) / 2 = bitsValue bs := by
        simp only [bitsValue]; cases b <;> simp; omega
      rw [this, ih]; simp

theorem entryOf_len (code : List Bool) (h : code.length ≤ 255) : (entryOf code).len.toNat = code.length := by
  simp only [entryOf, BitVec.toNat_ofNat]; omega

/-- The entry of a code word holds that code word. -/
theorem entryOf_code (code : List Bool) (h : code.length ≤ 255) : (entryOf code).code = code := by
  unfold LutEntry.code
  rw [entryOf_len code h]
  apply List.ext_getElem
  · simp
  · intro i h1 h2
    simp only [List.getElem_map, List.getElem_range, entryOf, BitVec.getLsbD_ofNat, bitsValue_testBit]
    simp [h2]
    omega

/-! ## Paths in the tree -/

theorem descend_append (s : State) (n : Index) (p q : List Bool) :
    s.descend n (p ++ q) = (s.descend n p).bind fun m => s.descend m q := by
  induction p generalizing n with
  | nil => rfl
  | cons b bs ih =>
    simp only [List.cons_append, State.descend]
    cases s.nodeAt n with
    | none => rfl
    | some nd =>
      simp only
      split
      · rfl
      · exact ih _

theorem descend_single (s : State) (n m : Index) (b : Bool) :
    s.descend n [b] = some m ↔ ∃ nd, s.nodeAt n = some nd ∧ nd.leaf = false ∧ nd.child b = m := by
  simp only [State.descend]
  cases s.nodeAt n with
  | none => simp
  | some nd => cases hl : nd.leaf <;> simp [hl]

variable {s : State}

theorem TreeOk.root_le (h : TreeOk s) : s.root.toNat ≤ 510 := by
  have := h.count; have := h.rootIs; omega

/-- An entry of the valid region is a leaf or an internal node. -/
theorem TreeOk.entry (h : TreeOk s) (n : Index) (hn : n.toNat ≤ s.root.toNat) :
    ∃ i : Fin 511, i.val = n.toNat ∧ s.nodeAt n = some s.node[i] ∧
      ((i.val < s.leafCount.toNat ∧ s.node[i].leaf = true) ∨ (s.innerAt i.val ∧ s.node[i].leaf = false)) := by
  have hr := h.root_le
  refine ⟨⟨n.toNat, by omega⟩, rfl, nodeAt_eq s n ⟨n.toNat, by omega⟩ rfl, ?_⟩
  by_cases hl : n.toNat < s.leafCount.toNat
  · exact .inl ⟨hl, (h.leaves ⟨n.toNat, by omega⟩ hl).1⟩
  · have hin : s.innerAt n.toNat := ⟨by omega, hn⟩
    exact .inr ⟨hin, (h.inner ⟨n.toNat, by omega⟩ hin).1⟩

/-- A child of an internal node stands before it, and is its child in the sense of `childOf`. -/
theorem TreeOk.child (h : TreeOk s) (i : Fin 511) (hi : s.innerAt i.val) (b : Bool) :
    (s.node[i].child b).toNat < i.val ∧
      ∀ j : Fin 511, j.val = (s.node[i].child b).toNat → s.childOf j i := by
  have := h.inner i hi
  cases b
  · exact ⟨this.2.2.1, fun j hj => .inl hj.symm⟩
  · exact ⟨this.2.2.2.1, fun j hj => .inr hj.symm⟩

/-- Where a path leads, and how long it can be. -/
theorem TreeOk.descend_le (h : TreeOk s) (p : List Bool) (n m : Index) (hn : n.toNat ≤ s.root.toNat)
    (hd : s.descend n p = some m) :
    m.toNat + p.length ≤ n.toNat ∧ (p ≠ [] → s.leafCount.toNat ≤ n.toNat ∧ p.length + s.leafCount.toNat ≤ n.toNat + 1) := by
  induction p generalizing n with
  | nil => simp [State.descend] at hd; subst hd; simp
  | cons b bs ih =>
    obtain ⟨i, hi, hnode, hk⟩ := h.entry n hn
    simp only [State.descend, hnode] at hd
    rcases hk with ⟨_, hl⟩ | ⟨hin, hl⟩
    · rw [if_pos hl] at hd; cases hd
    · rw [if_neg (by rw [hl]; exact Bool.false_ne_true)] at hd
      obtain ⟨hc, -⟩ := h.child i hin b
      obtain ⟨h1, h2⟩ := ih _ (by omega) hd
      have := hin.1
      refine ⟨by simp only [List.length_cons]; omega, fun _ => ⟨by omega, ?_⟩⟩
      simp only [List.length_cons]
      cases bs with
      | nil => simp; omega
      | cons c cs => have := h2 (by simp); simp only [List.length_cons] at *; omega

/-- One path leads from ROOT to an entry. -/
theorem TreeOk.path_unique (h : TreeOk s) (p q : List Bool) (m : Index) (hp : s.descend s.root p = some m)
    (hq : s.descend s.root q = some m) : p = q := by
  induction p using List.reverseRecOn generalizing q m with
  | nil =>
    simp only [State.descend, Option.some.injEq] at hp
    subst hp
    have := (h.descend_le q _ _ (Nat.le_refl _) hq).1
    exact (List.length_eq_zero_iff.1 (by omega)).symm
  | append_singleton p b ih =>
    have hpl := (h.descend_le _ _ _ (Nat.le_refl _) hp).1
    have hrt := h.root_le
    cases q using List.reverseRecOn with
    | nil =>
      simp only [State.descend, Option.some.injEq] at hq
      subst hq
      simp at hpl
    | append_singleton q c =>
      rw [descend_append] at hp hq
      obtain ⟨n, hn, hs⟩ := Option.bind_eq_some_iff.1 hp
      obtain ⟨n', hn', hs'⟩ := Option.bind_eq_some_iff.1 hq
      have hnl := (h.descend_le _ _ _ (Nat.le_refl _) hn).1
      have hnl' := (h.descend_le _ _ _ (Nat.le_refl _) hn').1
      obtain ⟨i, hi, hnode, hk⟩ := h.entry n (by omega)
      obtain ⟨i', hi', hnode', hk'⟩ := h.entry n' (by omega)
      obtain ⟨nd, e1, hl, hcm⟩ := (descend_single _ _ _ _).1 hs
      obtain ⟨nd', e1', hl', hcm'⟩ := (descend_single _ _ _ _).1 hs'
      rw [hnode] at e1; cases e1
      rw [hnode'] at e1'; cases e1'
      have hin : s.innerAt i.val := hk.elim (fun e => by rw [hl] at e; exact absurd e.2 Bool.false_ne_true) (·.1)
      have hin' : s.innerAt i'.val := hk'.elim (fun e => by rw [hl'] at e; exact absurd e.2 Bool.false_ne_true) (·.1)
      obtain ⟨hc1, hc2⟩ := h.child i hin b
      obtain ⟨hc1', hc2'⟩ := h.child i' hin' c
      rw [hcm] at hc1 hc2
      rw [hcm'] at hc1' hc2'
      have hi2 := hin.2
      have hmr : m.toNat < s.root.toNat := by omega
      obtain ⟨par, -, -, hu⟩ := h.oneParent ⟨m.toNat, by omega⟩ hmr
      have hii : i = i' := (hu i hin (hc2 _ rfl)).trans (hu i' hin' (hc2' _ rfl)).symm
      subst hii
      have hnn : n = n' := BitVec.eq_of_toNat_eq (by omega)
      subst hnn
      have hne := (h.inner i hin).2.2.2.2.1
      have hbc : b = c := by
        cases b <;> cases c <;> first | rfl | exact absurd (hcm.trans hcm'.symm) hne | exact absurd (hcm'.trans hcm.symm) hne
      rw [ih q n hn hn', hbc]

/-- A path leads from ROOT to every entry. -/
theorem TreeOk.path_exists (h : TreeOk s) (d : Nat) (m : Index) (hm : m.toNat ≤ s.root.toNat)
    (hd : s.root.toNat - m.toNat ≤ d) : ∃ p, s.descend s.root p = some m := by
  induction d generalizing m with
  | zero => exact ⟨[], by simp only [State.descend, Option.some.injEq]; exact BitVec.eq_of_toNat_eq (by omega)⟩
  | succ d ih =>
    by_cases hmr : m.toNat = s.root.toNat
    · exact ⟨[], by simp only [State.descend, Option.some.injEq]; exact BitVec.eq_of_toNat_eq (by omega)⟩
    · have hr := h.root_le
      obtain ⟨n, hin, hc, -⟩ := h.oneParent ⟨m.toNat, by omega⟩ (by simp; omega)
      have hn1 := hin.2
      have hnl := n.isLt
      have hne : (BitVec.ofNat 9 n.val).toNat = n.val := by rw [BitVec.toNat_ofNat]; omega
      have hin' := h.inner n hin
      have hlt : m.toNat < n.val := by
        rcases hc with e | e <;> simp at e <;> [have := hin'.2.2.1; have := hin'.2.2.2.1] <;> simp at this <;> omega
      obtain ⟨p, hp⟩ := ih (BitVec.ofNat 9 n.val) (by omega) (by omega)
      obtain ⟨b, hb⟩ : ∃ b, s.node[n].child b = m := by
        rcases hc with e | e
        · exact ⟨false, BitVec.eq_of_toNat_eq e⟩
        · exact ⟨true, BitVec.eq_of_toNat_eq e⟩
      refine ⟨p ++ [b], ?_⟩
      rw [descend_append, hp]
      exact (descend_single _ _ _ _).2 ⟨_, nodeAt_eq s _ n hne, hin'.1, hb⟩

/-! ## The walk of GENLUT (R501) -/

theorem TreeOk.walk_spec (h : TreeOk s) (fuel : Nat) (n : Index) (path : List Bool) (hn : n.toNat ≤ s.root.toNat)
    (h1 : 1 ≤ fuel) (h2 : s.leafCount.toNat ≤ n.toNat → n.toNat - s.leafCount.toNat + 2 ≤ fuel) :
    ∃ found, walk s.node fuel n path = .ok found ∧
      (∀ y p, (y, p) ∈ found ↔
        ∃ q m, p = path ++ q ∧ s.descend n q = some m ∧ m.toNat < s.leafCount.toNat ∧
          ∃ nd, s.nodeAt m = some nd ∧ nd.sym = y) ∧
      (found.map Prod.snd).Nodup ∧
      ∀ d, path.length + fuel ≤ d + 1 → (found.map fun c => 2 ^ (d - c.2.length)).sum = 2 ^ (d - path.length) := by
  induction fuel generalizing n path with
  | zero => omega
  | succ fuel ih =>
    obtain ⟨i, hi, hnode, hk⟩ := h.entry n hn
    have hget : s.node[n.toNat]? = some s.node[i] := hnode
    rcases hk with ⟨hil, hl⟩ | ⟨hin, hl⟩
    · have hsym := (h.leaves i hil).2.2.2.2
      refine ⟨[(s.node[i].sym, path)], by simp only [walk, hget, hl, if_true, hsym], ?_, by simp, by simp⟩
      intro y p
      simp only [List.mem_singleton, Prod.mk.injEq]
      constructor
      · rintro ⟨rfl, rfl⟩
        exact ⟨[], n, by simp, rfl, by omega, _, hnode, rfl⟩
      · rintro ⟨q, m, rfl, hd, hm, nd, hnd, rfl⟩
        have hq : q = [] := by
          by_contra hq
          have := (h.descend_le q n m hn hd).2 hq
          omega
        subst hq
        simp only [State.descend, Option.some.injEq] at hd
        subst hd
        rw [hnode] at hnd; cases hnd
        simp
    · have hin1 := hin.1
      have hc0 : s.node[i].left.toNat < i.val := (h.child i hin false).1
      have hc1 : s.node[i].right.toNat < i.val := (h.child i hin true).1
      obtain ⟨ls, hls, hlm, hln, hlk⟩ := ih s.node[i].left (path ++ [false]) (by omega)
        (by have := h2 (by omega); omega) (by intro _; have := h2 (by omega); omega)
      obtain ⟨rs, hrs, hrm, hrn, hrk⟩ := ih s.node[i].right (path ++ [true]) (by omega)
        (by have := h2 (by omega); omega) (by intro _; have := h2 (by omega); omega)
      refine ⟨ls ++ rs, by simp only [walk, hget, hl, Bool.false_eq_true, if_false, hls, hrs], ?_, ?_, ?_⟩
      · intro y p
        rw [List.mem_append, hlm, hrm]
        constructor
        · rintro (⟨q, m, rfl, hd, hm⟩ | ⟨q, m, rfl, hd, hm⟩)
          · exact ⟨false :: q, m, by simp, by simp only [State.descend, hnode, hl, Bool.false_eq_true, if_false]; exact hd, hm⟩
          · exact ⟨true :: q, m, by simp, by simp only [State.descend, hnode, hl, Bool.false_eq_true, if_false]; exact hd, hm⟩
        · rintro ⟨q, m, rfl, hd, hm⟩
          cases q with
          | nil => simp only [State.descend, Option.some.injEq] at hd; subst hd; omega
          | cons b q =>
            simp only [State.descend, hnode, hl, Bool.false_eq_true, if_false] at hd
            cases b
            · exact .inl ⟨q, m, by simp, hd, hm⟩
            · exact .inr ⟨q, m, by simp, hd, hm⟩
      · rw [List.map_append, List.nodup_append']
        refine ⟨hln, hrn, ?_⟩
        rw [List.disjoint_left]
        intro p hp hp'
        obtain ⟨⟨y, _⟩, hy, rfl⟩ := List.mem_map.1 hp
        obtain ⟨⟨y', p'⟩, hy', e⟩ := List.mem_map.1 hp'
        obtain ⟨q, -, rfl, -⟩ := (hlm _ _).1 hy
        obtain ⟨q', -, rfl, -⟩ := (hrm _ _).1 hy'
        simp at e
      · intro d hd
        rw [List.map_append, List.sum_append, hlk d (by simp; omega), hrk d (by simp; omega)]
        simp only [List.length_append, List.length_singleton]
        have h2' := h2 (by omega)
        obtain ⟨k, hk⟩ : ∃ k, d - path.length = k + 1 := ⟨d - path.length - 1, by omega⟩
        have : d - (path.length + 1) = k := by omega
        rw [this, hk, Nat.pow_succ]; omega

/-! ## The table (R501) -/

theorem tableFold_getElem (found : List (Index × List Bool)) (t : Vector LutEntry 257) (y : Nat) (hy : y < 257) :
    ((∀ c ∈ found, c.1.toNat ≠ y) →
      (found.foldl (fun t c => t.setIfInBounds c.1.toNat (entryOf c.2)) t)[y] = t[y]) ∧
    (∀ p, (∃ c ∈ found, c.1.toNat = y) → (∀ c ∈ found, c.1.toNat = y → c.2 = p) →
      (found.foldl (fun t c => t.setIfInBounds c.1.toNat (entryOf c.2)) t)[y] = entryOf p) := by
  induction found generalizing t with
  | nil => simp
  | cons c cs ih =>
    simp only [List.foldl_cons]
    obtain ⟨h1, h2⟩ := ih (t.setIfInBounds c.1.toNat (entryOf c.2))
    constructor
    · intro hn
      rw [h1 fun d hd => hn d (by simp [hd])]
      rw [Vector.getElem_setIfInBounds, if_neg (hn c (by simp))]
    · intro p he hu
      by_cases hcs : ∃ d ∈ cs, d.1.toNat = y
      · exact h2 p hcs fun d hd => hu d (by simp [hd])
      · rw [h1 fun d hd e => hcs ⟨d, hd, e⟩]
        have hc : c.1.toNat = y := by
          obtain ⟨d, hd, e⟩ := he
          rcases List.mem_cons.1 hd with rfl | hd
          · exact e
          · exact absurd ⟨d, hd, e⟩ hcs
        rw [Vector.getElem_setIfInBounds, if_pos hc, hu c (by simp) hc]

theorem tableOf_absent (found : List (Index × List Bool)) (y : Nat) (hy : y < 257) (h : ∀ c ∈ found, c.1.toNat ≠ y) :
    (tableOf found)[y] = ⟨0#8, 0#255⟩ := by
  unfold tableOf
  rw [(tableFold_getElem found _ y hy).1 h, Vector.getElem_replicate]

theorem tableOf_present (found : List (Index × List Bool)) (y : Nat) (hy : y < 257) (p : List Bool)
    (h : ∃ c ∈ found, c.1.toNat = y) (hu : ∀ c ∈ found, c.1.toNat = y → c.2 = p) : (tableOf found)[y] = entryOf p :=
  (tableFold_getElem found _ y hy).2 p h hu

/-! ## GENLUT over a tree (R501, R126) -/

/-- The walk from ROOT meets each leaf once, with its path. -/
theorem TreeOk.walk_root (h : TreeOk s) :
    ∃ found, walk s.node (Config.lenMax + 1) s.root [] = .ok found ∧
      (∀ y p, (y, p) ∈ found ↔ ∃ i : Fin 511, i.val < s.leafCount.toNat ∧ s.node[i].sym = y ∧
        s.descend s.root p = some (BitVec.ofNat 9 i.val)) ∧
      (found.map Prod.fst).Nodup ∧ (found.map fun c => 2 ^ (255 - c.2.length)).sum = 2 ^ 255 := by
  have hc := h.count; have hri := h.rootIs; have hr := h.root_le
  obtain ⟨found, hw, hm, hn, hk⟩ := h.walk_spec (Config.lenMax + 1) s.root [] (Nat.le_refl _) (by decide)
    (by intro _; simp only [Config.lenMax]; omega)
  have hm' : ∀ y p, (y, p) ∈ found ↔ ∃ i : Fin 511, i.val < s.leafCount.toNat ∧ s.node[i].sym = y ∧
        s.descend s.root p = some (BitVec.ofNat 9 i.val) := by
    intro y p
    rw [hm]
    constructor
    · rintro ⟨q, m, rfl, hd, hl, nd, hnd, rfl⟩
      rw [nodeAt_eq s m ⟨m.toNat, by omega⟩ rfl] at hnd
      cases hnd
      exact ⟨⟨m.toNat, by omega⟩, hl, rfl, by simpa using hd⟩
    · rintro ⟨i, hi, rfl, hd⟩
      have hin : (BitVec.ofNat 9 i.val).toNat = i.val := by rw [BitVec.toNat_ofNat]; omega
      exact ⟨p, _, by simp, hd, by omega, _, nodeAt_eq s _ i hin, rfl⟩
  refine ⟨found, hw, hm', ?_, ?_⟩
  · refine List.Nodup.map_on ?_ (List.Nodup.of_map _ hn)
    rintro ⟨y, p⟩ hx ⟨y', p'⟩ hx' (rfl : y = y')
    obtain ⟨i, hi, hs, hd⟩ := (hm' _ _).1 hx
    obtain ⟨i', hi', hs', hd'⟩ := (hm' _ _).1 hx'
    have hii : i.val = i'.val := by
      rcases Nat.lt_trichotomy i.val i'.val with hlt | he | hlt
      · have := h.ascending i i' hlt hi'
        rw [hs, hs'] at this; omega
      · exact he
      · have := h.ascending i' i hlt hi
        rw [hs, hs'] at this; omega
    rw [← hii] at hd'
    rw [h.path_unique p p' _ hd hd']
  · simpa using hk 255 (by simp [Config.lenMax])

/-- The lengths of the paths to leaves (R465, R502). -/
theorem TreeOk.leaf_depth (h : TreeOk s) (i : Fin 511) (hi : i.val < s.leafCount.toNat) (p : List Bool)
    (hd : s.descend s.root p = some (BitVec.ofNat 9 i.val)) : 1 ≤ p.length ∧ p.length < s.leafCount.toNat := by
  have hc := h.count; have hri := h.rootIs
  have hin : (BitVec.ofNat 9 i.val).toNat = i.val := by rw [BitVec.toNat_ofNat]; omega
  have hp : p ≠ [] := by
    rintro rfl
    simp only [State.descend, Option.some.injEq] at hd
    rw [hd, hin] at hri
    omega
  have := (h.descend_le p _ _ (Nat.le_refl _) hd).2 hp
  have := List.length_pos_iff.2 hp
  omega

/-- GENLUT over a tree writes its code table. -/
theorem TreeOk.genlut (h : TreeOk s) : ∃ found, walk s.node (Config.lenMax + 1) s.root [] = .ok found ∧
    ∀ t : State, t.node = s.node → t.leafCount = s.leafCount → t.root = s.root → t.lut = tableOf found → LutOk t := by
  obtain ⟨found, hw, hm, hn, -⟩ := h.walk_root
  refine ⟨found, hw, fun t e1 e2 e3 e4 => ?_⟩
  have hdesc : ∀ p n, t.descend n p = s.descend n p := by
    intro p
    induction p with
    | nil => intro n; rfl
    | cons b bs ih => intro n; simp only [State.descend, State.nodeAt, e1, ih]
  have hc := h.count; have hri := h.rootIs
  constructor
  · intro i hi
    rw [e2] at hi
    have hin : (BitVec.ofNat 9 i.val).toNat = i.val := by rw [BitVec.toNat_ofNat]; omega
    obtain ⟨p, hp⟩ := h.path_exists _ (BitVec.ofNat 9 i.val) (by omega) (Nat.le_refl _)
    have hlen := h.leaf_depth i hi p hp
    refine ⟨p, hlen.1, by omega, by rw [hdesc, e3]; exact hp, ?_⟩
    have hsym := (h.leaves i hi).2.2.2.2
    simp only [e4, e1]
    rw [Vector.getElem?_eq_getElem (by omega), tableOf_present found _ _ p]
    · exact ⟨(s.node[i].sym, p), (hm _ _).2 ⟨i, hi, rfl, hp⟩, rfl⟩
    · rintro ⟨y, q⟩ hq he
      obtain ⟨j, hj, hs, hd⟩ := (hm _ _).1 hq
      have hij : i.val = j.val := by
        rcases Nat.lt_trichotomy i.val j.val with hlt | he' | hlt
        · have := h.ascending i j hlt hj
          simp only at he; rw [hs, he] at this; omega
        · exact he'
        · have := h.ascending j i hlt hi
          simp only at he; rw [hs, he] at this; omega
      rw [← hij] at hd
      exact h.path_unique q p _ hd hp
  · intro y hy
    show t.lut[y.val] = _
    simp only [e4]
    apply tableOf_absent
    rintro ⟨z, q⟩ hq he
    obtain ⟨j, hj, hs, hd⟩ := (hm _ _).1 hq
    refine hy j (by rw [e2]; exact hj) ?_
    simp only [e1]
    rw [hs]; exact he

end Sys2Proof.Machine
end

