-- ==== Sys2Proof/Laws/Flags.lean ====
section
/-! SUPPORT. The STATUS word as a number (R145). -/

namespace Sys2Proof.Machine

/-- STATUS is the sum of its fields, each at its place (R145). -/
theorem State.status_toNat (s : State) :
    s.status.toNat = s.treeValid.toNat + 2 * s.lutValid.toNat + 4 * s.decAtRoot.toNat + 16 * s.decErr.toNat +
      256 * s.encErr.toNat + 4096 * s.leafCount.toNat + 2097152 * s.cursor.toNat := by
  have h : s.status.toNat = ((((((((0 * 2 ^ 9 + s.cursor.toNat) * 2 ^ 9 + s.leafCount.toNat) * 2 ^ 4 + s.encErr.toNat) * 2 ^ 4 +
      s.decErr.toNat) * 2 ^ 1 + 0) * 2 ^ 1 + s.decAtRoot.toNat) * 2 ^ 1 + s.lutValid.toNat) * 2 ^ 1 + s.treeValid.toNat) := by
    unfold State.status
    simp only [append_toNat, BitVec.toNat_ofBool, BitVec.toNat_ofNat, Nat.zero_mod]
  omega

end Sys2Proof.Machine
end

