-- ==== Sys2Proof/Laws/PerInstr.lean ====
section
/-! SUPPORT. Facts stated instruction by instruction: the row of the opcode map a command's packet selects (R315). -/

namespace Sys2Proof.Laws.OwnRow

/-- The packet of a command matches its own row of the opcode map, and that row only (R315). -/
def Statement (i : Instr) : Prop :=
  ∀ r ∈ opcodeRows, r.selects (encode i).cmd = (r.op == i.op)

/-- The packet of a format-I command. -/
theorem selects_indexed (op : BitVec 4) (idx : Index) (ho : formatN op = false) :
    ∀ r ∈ opcodeRows, r.selects (cmdI op idx) = (r.op == op) := by
  intro r h
  rw [Bool.eq_iff_iff, selects_iff _ r h, opField_cmdI, rsvField_cmdI, beq_iff_eq]
  constructor
  · exact fun e => e.1.symm
  · rintro rfl
    exact ⟨rfl, .inr ⟨rfl, fun e => absurd (ho.symm.trans e) Bool.false_ne_true⟩⟩

/-- The packet of a reserved opcode. -/
theorem selects_reserved (op : BitVec 4) (low : BitVec 28) (hr : reservedOp op = true) :
    ∀ r ∈ opcodeRows, r.selects (op ++ low) = (r.op == op) := by
  intro r h
  rw [Bool.eq_iff_iff, selects_iff _ r h, opField_low, beq_iff_eq]
  constructor
  · exact fun e => e.1.symm
  · rintro rfl
    exact ⟨rfl, .inl hr⟩

theorem nop : Statement .nop := by
  unfold Statement; decide

theorem freqClr : Statement .freqClr := by
  unfold Statement; decide

theorem freqWr (idx : Index) (arg : Word) : Statement (.freqWr idx arg) :=
  selects_indexed 0x2#4 idx rfl

theorem freqRd (idx : Index) : Statement (.freqRd idx) :=
  selects_indexed 0x3#4 idx rfl

theorem build : Statement .build := by
  unfold Statement; decide

theorem genlut : Statement .genlut := by
  unfold Statement; decide

theorem nodeRd (idx : Index) (arg : Word) : Statement (.nodeRd idx arg) :=
  selects_indexed 0x6#4 idx rfl

theorem lutRd (idx : Index) (arg : Word) : Statement (.lutRd idx arg) :=
  selects_indexed 0x7#4 idx rfl

theorem encStart : Statement .encStart := by
  unfold Statement; decide

theorem encSym (idx : Index) : Statement (.encSym idx) :=
  selects_indexed 0x9#4 idx rfl

theorem decStart : Statement .decStart := by
  unfold Statement; decide

theorem decBit (idx : Index) : Statement (.decBit idx) :=
  selects_indexed 0xB#4 idx rfl

theorem decEnd : Statement .decEnd := by
  unfold Statement; decide

theorem statusRd : Statement .statusRd := by
  unfold Statement; decide

theorem reservedE (low : BitVec 28) : Statement (.reservedE low) :=
  selects_reserved 0xE#4 low rfl

theorem reservedF (low : BitVec 28) : Statement (.reservedF low) :=
  selects_reserved 0xF#4 low rfl

end Sys2Proof.Laws.OwnRow
end

