-- ==== Sys2Proof/Laws/Protocol.lean ====
section
/-! SUPPORT. Runs of commands and of packets (R743). -/

namespace Sys2Proof.Machine

/-! ## When a run can go on -/

/-- What `ready` says. -/
theorem State.ready_iff (s : State) : s.ready = true ↔ s.resetIn = false ∧ s.rspch = none ∧ s.cmdch = [] := by
  simp [State.ready, State.idle, and_assoc]

/-- The state after a command that left `u` answered and the host took the response. -/
def took (u : State) (c : Code) (d : Word) : State := { u with rspch := none, rspTaken := u.rspTaken ++ [⟨c, d⟩] }

/-- Taking the response of a command that was accepted makes the block ready again. -/
theorem AnswersWith.ready {p : Params} {i : Instr} {s u : State} {c : Code} {d : Word} (h : AnswersWith p i s u c d)
    (hs : s.ready = true) : (took u c d).ready = true := by
  obtain ⟨h1, -, h3⟩ := s.ready_iff.1 hs
  obtain ⟨e1, -, -, -, e2, -⟩ := h.channels
  exact (State.ready_iff _).2 ⟨e2.trans h1, rfl, e1.trans h3⟩

/-! ## Runs, whatever is performed -/

variable {α : Type} {perform : α → State → Result}

/-- A block that is not ready accepts none of them, and the run does not end. -/
theorem runBy_not_ready (a : α) (as : List α) (s : State) (h : s.ready = false) : runBy perform (a :: as) s = none := by
  simp [runBy, h]

/-- One more in front. -/
theorem runBy_cons (a : α) (as : List α) (s u v : State) (c : Code) (d : Word) (rs : List Response) (hs : s.ready = true)
    (h : perform a s = .next (u.respond c d)) (h' : runBy perform as (took u c d) = some (rs, v)) :
    runBy perform (a :: as) s = some (⟨c, d⟩ :: rs, v) := by
  have e : (u.respond c d).takeResponse = took u c d := rfl
  simp only [runBy, hs, if_true, h]
  rw [show (u.respond c d).rspch = some ⟨c, d⟩ from rfl, e, h']

/-- Running one sequence after another. -/
theorem runBy_append (a b : List α) (s t u : State) (rs rs' : List Response) (h : runBy perform a s = some (rs, t))
    (h' : runBy perform b t = some (rs', u)) : runBy perform (a ++ b) s = some (rs ++ rs', u) := by
  induction a generalizing s rs with
  | nil => simp only [runBy, Option.some.injEq, Prod.mk.injEq] at h; obtain ⟨rfl, rfl⟩ := h; simpa using h'
  | cons i is ih =>
    cases hs : s.ready with
    | false => rw [runBy_not_ready i is s hs] at h; cases h
    | true =>
      simp only [runBy, hs, if_true] at h
      cases he : perform i s with
      | fault f => simp [he] at h
      | refused f => simp [he] at h
      | next v =>
        simp only [he] at h
        cases hr : v.rspch with
        | none => simp [hr] at h
        | some r =>
          cases hk : runBy perform is v.takeResponse with
          | none => simp [hr, hk] at h
          | some q =>
            obtain ⟨qs, w⟩ := q
            simp only [hr, hk, Option.some.injEq, Prod.mk.injEq] at h
            obtain ⟨rfl, rfl⟩ := h
            have := ih _ _ hk
            simp only [List.cons_append, runBy, hs, if_true, he, hr, this]

/-! ## Runs of commands -/

/-- Running a command that answers in a listed way, then the rest. -/
theorem run_cons (i : Instr) (is : List Instr) (s u v : State) (c : Code) (d : Word) (rs : List Response)
    (hs : s.ready = true) (h : Answers i s u c d) (h' : runCommands is (took u c d) = some (rs, v)) :
    runCommands (i :: is) s = some (⟨c, d⟩ :: rs, v) :=
  runBy_cons i is s u v c d rs hs (exec_of_answers _ _ _ _ _ h) h'

/-- Running one sequence of commands after another. -/
theorem run_append (a b : List Instr) (s t u : State) (rs rs' : List Response) (h : runCommands a s = some (rs, t))
    (h' : runCommands b t = some (rs', u)) : runCommands (a ++ b) s = some (rs ++ rs', u) :=
  runBy_append a b s t u rs rs' h h'

/-- Running one command. -/
theorem run_one (i : Instr) (s u : State) (c : Code) (d : Word) (hs : s.ready = true) (h : Answers i s u c d) :
    runCommands [i] s = some ([⟨c, d⟩], took u c d) := run_cons _ _ _ _ _ _ _ _ hs h rfl

end Sys2Proof.Machine
end

