-- ==== Sys2Proof/Laws/Step.lean ====
section
/-! SUPPORT. What a step can do, said once, and how TreeOk, LutOk and Inv carry over to a state with the same tree, LUT
and session. -/

namespace Sys2Proof.Machine

/-- TreeOk reads NODE, LEAF_COUNT and ROOT only. -/
theorem TreeOk.congr {s t : State} (h : TreeOk s) (e1 : t.node = s.node) (e2 : t.leafCount = s.leafCount)
    (e3 : t.root = s.root) : TreeOk t := by
  cases s; cases t
  simp only at e1 e2 e3
  subst e1; subst e2; subst e3
  exact ⟨h.count, h.rootIs, h.leaves, h.ascending, h.inner, h.oneParent⟩

/-- A path reads NODE only. -/
theorem descend_congr {s t : State} (e : t.node = s.node) (p : List Bool) (n : Index) : t.descend n p = s.descend n p := by
  induction p generalizing n with
  | nil => rfl
  | cons b bs ih => simp only [State.descend, State.nodeAt, e, ih]

/-- LutOk reads the tree and LUT only. -/
theorem LutOk.congr {s t : State} (h : LutOk s) (e1 : t.node = s.node) (e2 : t.leafCount = s.leafCount)
    (e3 : t.root = s.root) (e4 : t.lut = s.lut) : LutOk t := by
  constructor
  · intro i hi
    rw [e2] at hi
    obtain ⟨p, h1, h2, h3, h4⟩ := h.present i hi
    refine ⟨p, h1, h2, ?_, ?_⟩
    · rw [descend_congr e1, e3, h3]
    · simp only [e1, e4]; exact h4
  · intro y hy
    simp only [e1, e2, e4] at hy ⊢
    exact h.absent y hy

/-- The invariant carries over to a state with the same tree, LUT and session, if the other clauses hold. -/
theorem InvWith.of_core {p : Params} {s t : State} (h : InvWith p s) (hn : t.node = s.node) (hl : t.leafCount = s.leafCount)
    (hr : t.root = s.root) (hv : t.treeValid = s.treeValid) (hu : t.lut = s.lut) (hw : t.lutValid = s.lutValid)
    (freqFits : ∀ y : Fin 256, t.freq[y].toNat < 2 ^ p.wF)
    (cursor : t.treeValid = true → t.decErr = 0#4 → t.innerAt t.cursor.toNat)
    (noTree : t.treeValid = false → t.cursor = 0#9 ∧ t.decErr = 0#4)
    (noLut : t.lutValid = false → t.encErr = 0#4)
    (decErr : t.decErr = 0#4 ∨ t.decErr = 2#4 ∨ t.decErr = 3#4)
    (encErr : t.encErr = 0#4 ∨ t.encErr = 4#4)
    (bout : ∀ b ∈ t.bout, b = p.markL ∨ b = p.markR)
    (taken : t.boutTaken ≤ t.bout.length)
    (waiting : ∀ r, t.rspch = some r → r.legal)
    (answered : ∀ r ∈ t.rspTaken, r.legal)
    (inReset : t.resetIn = true → t = { t.afterReset with node := t.node, lut := t.lut }) : InvWith p t where
  freqFits := freqFits
  weightsFit := fun e i hi => by
    simp only [hn]
    exact h.weightsFit (hv ▸ e) i (by rw [← hr]; exact hi)
  tree := fun e => (h.tree (hv ▸ e)).congr hn hl hr
  noTree := fun e => by
    have := h.noTree (hv ▸ e)
    exact ⟨by rw [hl]; exact this.1, by rw [hr]; exact this.2.1, noTree e⟩
  lutNeedsTree := fun e => by rw [hv]; exact h.lutNeedsTree (hw ▸ e)
  lut := fun e => (h.lut (hw ▸ e)).congr hn hl hr hu
  noLut := noLut
  cursor := cursor
  decErr := decErr
  encErr := encErr
  bout := bout
  taken := taken
  waiting := waiting
  answered := answered
  inReset := inReset

/-- When the core accepts a packet, and what it leaves (R164). -/
theorem accept_some (s : State) (p : Packet) (s' : State) (h : s.accept = some (p, s')) :
    s.resetIn = false ∧ s.rspch = none ∧ ∃ rest, s.cmdch = p :: rest ∧ s' = { s with cmdch := rest } := by
  unfold State.accept at h
  split at h
  · next hid hc =>
    simp only [Option.some.injEq, Prod.mk.injEq] at h
    obtain ⟨rfl, rfl⟩ := h
    simp only [State.idle, Bool.and_eq_true, Bool.not_eq_true', Option.isNone_iff_eq_none] at hid
    exact ⟨hid.1, hid.2, _, hc, rfl⟩
  · cases h
  · cases h

/-- The two ways a step goes: a packet performed, or the host's move. -/
theorem stepBy_cases (perform : Instr → State → Result) (s : State) :
    (∃ p rest, s.resetIn = false ∧ s.rspch = none ∧ s.cmdch = p :: rest ∧
      stepBy perform s = packetBy perform p { s with cmdch := rest }) ∨
    (s.accept = none ∧ stepBy perform s = hostStep s) := by
  cases ha : s.accept with
  | none => exact .inr ⟨rfl, by simp only [stepBy, ha]⟩
  | some ps =>
    obtain ⟨p, s'⟩ := ps
    obtain ⟨h1, h2, rest, h3, rfl⟩ := accept_some s p s' ha
    exact .inl ⟨p, rest, h1, h2, h3, by simp only [stepBy, ha]⟩

/-- A packet performed is a decoded command performed, or an illegal packet. -/
theorem packetBy_cases (perform : Instr → State → Result) (p : Packet) (s : State) :
    (∃ i, decode p = .ok i ∧ packetBy perform p s = perform i s) ∨
    (∃ e, decode p = .error e ∧ packetBy perform p s = illegalCommand s) := by
  cases hd : decode p with
  | ok i => exact .inl ⟨i, rfl, by simp only [packetBy, hd]⟩
  | error e => exact .inr ⟨e, rfl, by simp only [packetBy, hd]⟩

/-- At this hardware's parameters a step is `step`. -/
theorem stepWith_params (s : State) : stepWith Config.params s = step s := by
  have h : execWith Config.params = exec := funext fun i => funext fun s => execWith_params i s
  simp only [stepWith, step, h]

end Sys2Proof.Machine
end

