-- ==== Sys2Proof/Tests/Slice0.lean ====
section
/-! SUPPORT. The model's tests: well-formedness, decoding, one step per command against the spec's own vectors
(spec/95_test_vectors.md), and for each obligation with hypotheses a witness that meets them. -/

set_option Elab.async false

namespace Sys2Proof.Tests

open Sys2Proof.Machine

/-! ## Well-formedness (R303): an ill-formed command for each check -/

theorem test_wf_accepts : ([Instr.nop, .freqClr, .freqWr 255#9 0xFFFFFFFF#32, .freqRd 255#9, .build, .genlut,
    .nodeRd 510#9 3#32, .lutRd 256#9 8#32, .encStart, .encSym 255#9, .decStart, .decBit 255#9, .decEnd, .statusRd].all
    Instr.wellFormed) = true := by decide

theorem test_wf_freqWr : (Instr.freqWr 256#9 1#32).wellFormed = false := by decide
theorem test_wf_width : (Instr.freqWr 0#9 256#32).wellFormedWith ⟨8, 0x30#8, 0x31#8⟩ = false := by decide
theorem test_wf_freqRd : (Instr.freqRd 256#9).wellFormed = false := by decide
theorem test_wf_nodeRd_index : (Instr.nodeRd 511#9 0#32).wellFormed = false := by decide
theorem test_wf_nodeRd_selector : (Instr.nodeRd 0#9 4#32).wellFormed = false := by decide
theorem test_wf_lutRd_symbol : (Instr.lutRd 257#9 0#32).wellFormed = false := by decide
theorem test_wf_lutRd_selector : (Instr.lutRd 0#9 9#32).wellFormed = false := by decide
theorem test_wf_encSym : (Instr.encSym 256#9).wellFormed = false := by decide
theorem test_wf_decBit : (Instr.decBit 256#9).wellFormed = false := by decide
theorem test_wf_reservedE : (Instr.reservedE 0#28).wellFormed = false := by decide
theorem test_wf_reservedF : (Instr.reservedF 0#28).wellFormed = false := by decide

/-! ## Decoding: the packets of spec/95_test_vectors.md, written out from R301 and R315 -/

theorem test_decode_nop : decode ⟨0x00000000#32, 0x12345678#32⟩ = .ok .nop := by decide
theorem test_decode_freqClr : decode ⟨0x10000000#32, 0#32⟩ = .ok .freqClr := by decide
theorem test_decode_freqWr : decode ⟨0x20000041#32, 0xFFFFFFFF#32⟩ = .ok (.freqWr 0x41#9 0xFFFFFFFF#32) := by decide
theorem test_decode_freqRd : decode ⟨0x300001FF#32, 0#32⟩ = .ok (.freqRd 0x1FF#9) := by decide
theorem test_decode_build : decode ⟨0x40000000#32, 0#32⟩ = .ok .build := by decide
theorem test_decode_genlut : decode ⟨0x50000000#32, 0#32⟩ = .ok .genlut := by decide
theorem test_decode_nodeRd : decode ⟨0x60000010#32, 1#32⟩ = .ok (.nodeRd 16#9 1#32) := by decide
theorem test_decode_lutRd : decode ⟨0x70000100#32, 8#32⟩ = .ok (.lutRd 256#9 8#32) := by decide
theorem test_decode_encStart : decode ⟨0x80000000#32, 0#32⟩ = .ok .encStart := by decide
theorem test_decode_encSym : decode ⟨0x90000068#32, 0#32⟩ = .ok (.encSym 0x68#9) := by decide
theorem test_decode_decStart : decode ⟨0xA0000000#32, 0#32⟩ = .ok .decStart := by decide
theorem test_decode_decBit : decode ⟨0xB0000132#32, 0#32⟩ = .ok (.decBit 0x132#9) := by decide
theorem test_decode_decEnd : decode ⟨0xC0000000#32, 0#32⟩ = .ok .decEnd := by decide
theorem test_decode_statusRd : decode ⟨0xD0000000#32, 0#32⟩ = .ok .statusRd := by decide
theorem test_decode_reservedE : decode ⟨0xE0000001#32, 0#32⟩ = .ok (.reservedE 1#28) := by decide
theorem test_decode_reservedF : decode ⟨0xF0000000#32, 0#32⟩ = .ok (.reservedF 0#28) := by decide
/-- Vectors I5, I7: RSV bit 9, RSV bit 27. -/
theorem test_decode_reserved_bits : decode ⟨0x20000200#32, 5#32⟩ = .error .reservedBits ∧
    decode ⟨0x98000061#32, 0#32⟩ = .error .reservedBits := by decide
/-- Vectors I4, I6, I8, L2. -/
theorem test_decode_format_n : decode ⟨0x00000001#32, 0#32⟩ = .error .indexInFormatN ∧
    decode ⟨0x40000005#32, 0#32⟩ = .error .indexInFormatN ∧ decode ⟨0xD0000010#32, 0#32⟩ = .error .indexInFormatN ∧
    decode ⟨0x50000001#32, 0#32⟩ = .error .indexInFormatN := by decide
/-- The table's numbering: bit 0 of CMD first, ARG's bits from bit 32 on. -/
theorem test_table_word : decodeTableWord 64 0x0000000320000041 = some (.freqWr 0x41#9 3#32) ∧
    decodeTableWord 32 0x60000010 = some (.nodeRd 16#9 0#32) := by decide

/-! ## The assembler (R320, R321): lines of spec/95_test_vectors.md -/

/-- F1's line and F6's. -/
theorem test_assemble_line : assembleLine "FREQ_WR 'A', 0xFFFFFFFF ; maximum".toList = some [.freqWr 0x41#9 0xFFFFFFFF#32] ∧
    assembleLine "FREQ_RD 511".toList = some [.freqRd 511#9] := by decide +kernel
/-- `LUT_LEN s` is `LUT_RD s, 8`; `DEC_STR "01"` is DEC_BIT 0x30, DEC_BIT 0x31. -/
theorem test_assemble_pseudo : assembleLine "LUT_LEN 'o'".toList = some [.lutRd 0x6F#9 8#32] ∧
    assembleLine "DEC_STR \"01\"".toList = some [.decBit 0x30#9, .decBit 0x31#9] := by decide +kernel
/-- ND2's packet as text. -/
theorem test_assemble_text : (assemblePackets "NODE_RD 16, 1".toList).map (List.map renderPacket) =
    some ["60000010 00000001".toList] := by decide +kernel

/-! ## States for the steps -/

/-- What an outcome's next state answers. -/
def answerOf : Result → Option Response
  | .next t => t.rspch
  | .fault _ => none
  | .refused _ => none

/-- A part of an outcome's next state. -/
def partOf {α : Type} (f : State → α) : Result → Option α
  | .next t => some (f t)
  | .fault _ => none
  | .refused _ => none

/-- The reset state with some FREQ entries loaded. -/
def withFreq (l : List (Fin 256 × Word)) : State :=
  { State.reset with freq := l.foldl (fun v c => v.set c.1.val c.2) State.reset.freq }

/-- Vector 1.1, the tree of "aaaa", right after BUILD. -/
def treeA : State :=
  { withFreq [(0x61, 4#32)] with
    node := ((State.reset.node.set 0 ⟨true, 0x61#9, 0#9, 0#9, 4#40⟩).set 1 ⟨true, 256#9, 0#9, 0#9, 1#40⟩).set 2
      ⟨false, 0#9, 1#9, 0#9, 5#40⟩
    leafCount := 2#9, root := 2#9, treeValid := true, cursor := 2#9 }

/-- The same after GENLUT: 'a' has "1", 256 has "0". -/
def tableA : State :=
  { treeA with
    lut := (State.reset.lut.set 0x61 ⟨1#8, 1#255⟩).set 256 ⟨1#8, 0#255⟩
    lutValid := true }

/-- Program P3's tree, of "abc": codes a 10, b 11, c 0. -/
def treeABC : State :=
  { withFreq [(0x61, 1#32), (0x62, 1#32), (0x63, 1#32)] with
    node := ((((State.reset.node.set 0 ⟨true, 0x61#9, 0#9, 0#9, 1#40⟩).set 1 ⟨true, 0x62#9, 0#9, 0#9, 1#40⟩).set 2
      ⟨true, 0x63#9, 0#9, 0#9, 1#40⟩).set 3 ⟨false, 0#9, 0#9, 1#9, 2#40⟩).set 4 ⟨false, 0#9, 2#9, 3#9, 3#40⟩
    leafCount := 3#9, root := 4#9, treeValid := true, cursor := 4#9 }

/-! ## One step per command -/

/-- P4 step 1: STATUS after reset, by a whole step of the machine. -/
theorem test_step_statusRd : answerOf (step (State.reset.withFetchWord 32 0xD0000000)) = some ⟨0#4, 0#32⟩ := by
  decide +kernel
/-- S4. -/
theorem test_statusRd : answerOf (exec .statusRd treeA) = some ⟨0#4, 0x00402005#32⟩ := by decide +kernel
/-- S6. -/
theorem test_nop : answerOf (exec .nop treeA) = some ⟨0#4, 0#32⟩ := by decide +kernel
/-- F9: the tree and the LUT stay valid. -/
theorem test_freqClr : partOf (fun t => (t.freq, t.treeValid, t.lutValid)) (exec .freqClr tableA) =
    some (Vector.replicate 256 0#32, true, true) := by decide +kernel
/-- F1. -/
theorem test_freqWr : partOf (fun t => t.freq.toList[0x41]?) (exec (.freqWr 0x41#9 0xFFFFFFFF#32) State.reset) =
    some (some 0xFFFFFFFF#32) := by decide +kernel
/-- F7 and F8, W_F = 8. -/
theorem test_freqWr_width : answerOf (freqWrWith ⟨8, 0x30#8, 0x31#8⟩ 0x61#9 256#32 State.reset) = some ⟨7#4, 0#32⟩ ∧
    answerOf (freqWrWith ⟨8, 0x30#8, 0x31#8⟩ 0x61#9 255#32 State.reset) = some ⟨0#4, 0#32⟩ := by decide +kernel
/-- P1's table read back. -/
theorem test_freqRd : answerOf (exec (.freqRd 0x61#9) treeA) = some ⟨0#4, 4#32⟩ := by decide +kernel
/-- F6. -/
theorem test_freqRd_range : answerOf (exec (.freqRd 511#9) State.reset) = some ⟨7#4, 0#32⟩ := by decide +kernel
/-- B5, "abcc": the leaf 'c' ranks before the internal node of equal weight. -/
theorem test_build_tie : partOf (fun t => (t.rspch, t.nodeAt 3#9, t.nodeAt 4#9))
    (exec .build (withFreq [(0x61, 1#32), (0x62, 1#32), (0x63, 2#32)])) =
    some (some ⟨0#4, 0x00030004#32⟩, some ⟨false, 0#9, 0#9, 1#9, 2#40⟩, some ⟨false, 0#9, 2#9, 3#9, 4#40⟩) := by
  decide +kernel
/-- B7, FREQ[0xFF] = 5 only: the synthetic leaf is LEFT. -/
theorem test_build_single : partOf (fun t => (t.rspch, t.nodeAt 1#9, t.nodeAt 2#9)) (exec .build (withFreq [(0xFF, 5#32)])) =
    some (some ⟨0#4, 0x00020002#32⟩, some ⟨true, 256#9, 0#9, 0#9, 1#40⟩, some ⟨false, 0#9, 1#9, 0#9, 6#40⟩) := by
  decide +kernel
/-- ND12's field and P1 step 10. -/
theorem test_nodeRd : answerOf (exec (.nodeRd 1#9 0#32) treeA) = some ⟨0#4, 0x80000100#32⟩ ∧
    answerOf (exec (.nodeRd 2#9 1#32) treeA) = some ⟨0#4, 1#32⟩ := by decide +kernel
/-- P3 step 7. -/
theorem test_nodeRd_children : answerOf (exec (.nodeRd 4#9 1#32) treeABC) = some ⟨0#4, 0x00030002#32⟩ := by decide +kernel
/-- P3's codes: a 10, b 11, c 0, and nothing else. -/
theorem test_genlut : partOf (fun t => (t.lutAt 0x61, t.lutAt 0x62, t.lutAt 0x63, t.lutAt 256)) (exec .genlut treeABC) =
    some (⟨2#8, 1#255⟩, ⟨2#8, 3#255⟩, ⟨1#8, 0#255⟩, ⟨0#8, 0#255⟩) := by decide +kernel
/-- P1 steps 11 and 13. -/
theorem test_lutRd : answerOf (exec (.lutRd 0x61#9 8#32) tableA) = some ⟨0#4, 1#32⟩ ∧
    answerOf (exec (.lutRd 256#9 8#32) tableA) = some ⟨0#4, 1#32⟩ := by decide +kernel
/-- P1's table: the code word of 'a' is "1". -/
theorem test_lutRd_bits : answerOf (exec (.lutRd 0x61#9 0#32) tableA) = some ⟨0#4, 1#32⟩ := by decide +kernel
/-- P5 step 11's effect. -/
theorem test_encStart : partOf (fun t => (t.encErr, t.rspch)) (exec .encStart { tableA with encErr := 4#4 }) =
    some (0#4, some ⟨0#4, 0#32⟩) := by decide +kernel
/-- P1 step 6. -/
theorem test_encSym : partOf (fun t => (t.bout, t.rspch)) (exec (.encSym 0x61#9) tableA) =
    some ([0x31#8], some ⟨0#4, 1#32⟩) := by decide +kernel
/-- P5 step 8's effect. -/
theorem test_encSym_unknown : partOf (fun t => (t.bout, t.encErr, t.rspch)) (exec (.encSym 0x7A#9) tableA) =
    some ([], 4#4, some ⟨4#4, 0#32⟩) := by decide +kernel
/-- P3 step 16. -/
theorem test_decStart : partOf (fun t => (t.cursor, t.decErr)) (exec .decStart { treeABC with cursor := 3#9, decErr := 2#4 }) =
    some (4#9, 0#4) := by decide +kernel
/-- P3 step 10: one step into the tree. -/
theorem test_decBit_inner : partOf (fun t => (t.cursor, t.rspch)) (exec (.decBit 0x31#9) treeABC) =
    some (3#9, some ⟨0#4, 0#32⟩) := by decide +kernel
/-- DC17: the synthetic leaf. -/
theorem test_decBit_leaf : partOf (fun t => (t.cursor, t.rspch)) (exec (.decBit 0x30#9) treeA) =
    some (2#9, some ⟨0#4, 0x300#32⟩) := by decide +kernel
/-- P3 step 18. -/
theorem test_decEnd : partOf (fun t => (t.decErr, t.rspch)) (exec .decEnd { treeABC with cursor := 3#9 }) =
    some (3#4, some ⟨3#4, 0#32⟩) := by decide +kernel
/-- I1, I2. -/
theorem test_reserved : answerOf (step (State.reset.withFetchWord 32 0xE0000000)) = some ⟨6#4, 0#32⟩ ∧
    answerOf (step (State.reset.withFetchWord 32 0xF0000000)) = some ⟨6#4, 0#32⟩ := by decide +kernel
/-- R321: "aab" has two a and one b. -/
theorem test_countsOf : pseudoFreqLoad [0x61#8, 0x61#8, 0x62#8] = [.freqClr, .freqWr 0x61#9 2#32, .freqWr 0x62#9 1#32] := by
  decide +kernel

/-! ## Witnesses: states that meet the invariant -/

theorem fin_lt_two (i : Fin 511) (h : i.val < 2) : i = 0 ∨ i = 1 := by
  simp only [Fin.ext_iff]; simp; omega

theorem treeA_inner (n : Fin 511) (h : treeA.innerAt n.val) : n = 2 := by
  have h1 : 2 ≤ n.val := h.1
  have h2 : n.val ≤ 2 := h.2
  exact Fin.ext (by simp; omega)

theorem treeA_ok : TreeOk treeA where
  count := by decide
  rootIs := by decide
  leaves := fun i hi => by rcases fin_lt_two i hi with rfl | rfl <;> decide +kernel
  ascending := fun i j hij hj => by
    rcases fin_lt_two j hj with rfl | rfl
    · exact absurd hij (by simp)
    · rcases fin_lt_two i (by simp at hij; omega) with rfl | rfl
      · decide +kernel
      · exact absurd hij (by simp)
  inner := fun n hn => by rw [treeA_inner n hn]; decide +kernel
  oneParent := fun m hm => by
    refine ⟨2, ⟨by decide, by decide⟩, ?_, fun n' hn' _ => treeA_inner n' hn'⟩
    rcases fin_lt_two m hm with rfl | rfl
    · exact .inr (by decide +kernel)
    · exact .inl (by decide +kernel)

theorem tableA_lut : LutOk tableA where
  present := fun i hi => by
    rcases fin_lt_two i hi with rfl | rfl
    · exact ⟨[true], by decide +kernel⟩
    · exact ⟨[false], by decide +kernel⟩
  absent := fun y hy => by
    have h0 : (0x61 : Nat) ≠ y.val := hy 0 (by decide)
    have h1 : (256 : Nat) ≠ y.val := hy 1 (by decide)
    show ((State.reset.lut.set 0x61 ⟨1#8, 1#255⟩).set 256 ⟨1#8, 0#255⟩)[y.val] = _
    rw [Vector.getElem_set, if_neg h1, Vector.getElem_set, if_neg h0]
    simp [State.reset]

theorem inv_of_idle (s : State) (ht : TreeOk s) (hv : s.treeValid = true) (hl : s.lutValid = true → LutOk s)
    (hc : s.cursor = s.root) (h : s.decErr = 0#4 ∧ s.encErr = 0#4 ∧ s.bout = [] ∧ s.boutTaken = 0 ∧ s.rspch = none ∧
      s.rspTaken = [] ∧ s.resetIn = false) : Inv s where
  freqFits := fun y => s.freq[y].isLt
  weightsFit := fun _ i _ => s.node[i].weight.isLt
  tree := fun _ => ht
  noTree := fun e => absurd (hv.symm.trans e) (by decide)
  lutNeedsTree := fun _ => hv
  lut := hl
  noLut := fun _ => h.2.1
  cursor := fun _ _ => by
    have := ht.count; have := ht.rootIs
    rw [hc]
    exact ⟨by omega, Nat.le_refl _⟩
  decErr := .inl h.1
  encErr := .inl h.2.1
  bout := fun b hb => by rw [h.2.2.1] at hb; cases hb
  taken := by rw [h.2.2.2.1]; exact Nat.zero_le _
  waiting := fun r e => by rw [h.2.2.2.2.1] at e; cases e
  answered := fun r e => by rw [h.2.2.2.2.2.1] at e; cases e
  inReset := fun e => by rw [h.2.2.2.2.2.2] at e; cases e

theorem treeA_inv : Inv treeA := inv_of_idle treeA treeA_ok rfl (fun e => by cases e) rfl (by decide)

theorem tableA_treeOk : TreeOk tableA :=
  ⟨treeA_ok.count, treeA_ok.rootIs, treeA_ok.leaves, treeA_ok.ascending, treeA_ok.inner, treeA_ok.oneParent⟩

theorem tableA_inv : Inv tableA := inv_of_idle tableA tableA_treeOk rfl (fun _ => tableA_lut) rfl (by decide)

/-- `treeA` in the middle of a decode session that has ended with an error. -/
def endedA : State := { treeA with decErr := 2#4 }

/-- `tableA` after an encode session that met an unknown symbol. -/
def unknownA : State := { tableA with encErr := 4#4 }

/-- One packet offered to the idle core. -/
def offered (cmd arg : Word) : State := { State.reset with cmdch := [⟨cmd, arg⟩] }

/-- A response waits and a packet is offered behind it. -/
def waiting : State := { offered 0#32 0#32 with rspch := some ⟨0#4, 0#32⟩, hostMoves := [.offer ⟨0x40000000#32, 0#32⟩] }

/-- RESET asserted, a packet offered. -/
def inReset : State := { offered 0#32 0#32 with resetIn := true, hostMoves := [.releaseReset] }

/-- The outcome is a next state. -/
def goesOn : Result → Bool
  | .next _ => true
  | .fault _ => false
  | .refused _ => false

theorem next_of_goesOn (r : Result) (h : goesOn r = true) : ∃ t, r = .next t := by
  cases r with
  | next t => exact ⟨t, rfl⟩
  | fault f => cases h
  | refused f => cases h

/-! ## Witnesses, in the order of the obligations -/

theorem witness_EncodeOfDecodeKeepsPacket : decode ⟨0x20000041#32, 7#32⟩ = .ok (.freqWr 0x41#9 7#32) ∧
    (Instr.freqWr 0x41#9 7#32).readsArg = true := by decide

theorem witness_OpcodeMapSelectsTheCommand :
    (⟨0x6#4, 0x60000000#32, 0xFFFFFE00#32⟩ : OpcodeRow) ∈ opcodeRows ∧
      (⟨0x6#4, 0x60000000#32, 0xFFFFFE00#32⟩ : OpcodeRow).selects 0x600001FF#32 = true ∧
      decode ⟨0x600001FF#32, 4#32⟩ = .ok (.nodeRd 511#9 4#32) := by decide

/-- F4. -/
theorem witness_IgnoredArgDoesNotChangeDecoding :
    decode ⟨0x3000006C#32, 0xDEAD#32⟩ = .ok (.freqRd 0x6C#9) ∧ (Instr.freqRd 0x6C#9).readsArg = false := by decide

theorem witness_StepPerformsTheDecodedCommand :
    (offered 0x40000000#32 0#32).resetIn = false ∧ (offered 0x40000000#32 0#32).rspch = none ∧
      (offered 0x40000000#32 0#32).cmdch = [⟨0x40000000#32, 0#32⟩] ∧ decode ⟨0x40000000#32, 0#32⟩ = .ok .build := by decide

/-- Each form of illegal packet at its edge: opcode 14, CMD[9] set, IDX 1 in format N (NOP). -/
theorem witness_IllegalPacketsAnswerIllegalCmd :
    (offered 0x00000001#32 0#32).resetIn = false ∧ (offered 0x00000001#32 0#32).rspch = none ∧
      (offered 0x00000001#32 0#32).cmdch = [⟨0x00000001#32, 0#32⟩] ∧ 14 ≤ (0xE0000000#32 : Word).toNat / 2 ^ 28 ∧
      (0x20000200#32 : Word).toNat / 2 ^ 9 % 2 ^ 19 ≠ 0 ∧ (0x00000001#32 : Word).toNat / 2 ^ 28 = 0 ∧
      (0x00000001#32 : Word).toNat % 2 ^ 9 ≠ 0 := by decide

theorem witness_BusyCoreKeepsOfferedPackets :
    (inReset.resetIn = true ∧ goesOn (step inReset) = true) ∧
      (waiting.rspch.isSome = true ∧ goesOn (step waiting) = true) := by decide +kernel

theorem witness_WaitingBlockHoldsItsState :
    (State.reset.rspch = none ∧ State.reset.hostMoves = [] ∧ State.reset.cmdch = []) ∧
      (({ inReset with hostMoves := [] } : State).rspch = none ∧ ({ inReset with hostMoves := [] } : State).resetIn = true) ∧
      (({ waiting with hostMoves := [] } : State).rspch = some ⟨0#4, 0#32⟩) := by decide

theorem witness_HostMovesLeaveTheCoreState :
    HostMove.takeBytes 3 ≠ .assertReset ∧ waiting.rspch = some ⟨0#4, 0#32⟩ := by decide

/-- A next state of a command: what EveryCommandAnswersOnce and the statements on who writes what assume. -/
theorem witness_EveryCommandAnswersOnce : ∃ t, exec .statusRd treeA = .next t := next_of_goesOn _ (by decide +kernel)

/-- Both clauses at the edge: 255 and 256. -/
theorem witness_FreqWrWritesOneEntry : (255#9 : Index).toNat < 256 ∧ 255 < (256#9 : Index).toNat := by decide

/-- W_F = 8: both clauses at the edge, 255 and 256. -/
theorem witness_FreqWrChecksTheCountWidth : (⟨8, 0x30#8, 0x31#8⟩ : Params).legal = true ∧ (0x61#9 : Index).toNat ≤ 255 ∧
    (255#32 : Word).toNat < 2 ^ 8 ∧ 2 ^ 8 ≤ (256#32 : Word).toNat := by decide

theorem witness_FreqRdReadsOneEntry : (255#9 : Index).toNat < 256 ∧ 255 < (256#9 : Index).toNat := by decide

theorem witness_BuildOnEmptyTableDiscardsTheTree : ∀ y : Fin 256, State.reset.freq[y] = 0#32 := by
  intro y; simp [State.reset]

theorem witness_BuildCommitsAndAnswers : ∃ y : Fin 256, treeA.freq[y] ≠ 0#32 := ⟨0x61, by decide +kernel⟩

/-- What the statements on a successful BUILD assume. -/
theorem witness_successful_build : ∃ t, exec .build treeA = .next t ∧ t.treeValid = true := by
  rcases exec_build_cases treeA with ⟨h, -⟩ | ⟨-, h⟩
  · exact absurd (h 0x61) (by decide +kernel)
  · exact ⟨_, h, rfl⟩

/-- One symbol only: the last clause of BuildLeavesAreTheSymbolsThatOccur. -/
theorem witness_one_symbol : treeA.freq[(0x61 : Fin 256)] ≠ 0#32 ∧ ∀ z : Fin 256, treeA.freq[z] ≠ 0#32 → z = 0x61 := by
  refine ⟨by decide +kernel, fun z hz => Fin.ext ?_⟩
  by_contra h
  apply hz
  show (State.reset.freq.set 0x61 _)[z.val] = _
  rw [Vector.getElem_set, if_neg (fun e => h e.symm)]
  simp [State.reset]

/-- A leaf and an internal node of the tree, as the clauses of the statements on BUILD range over them. -/
theorem witness_entries : (0 : Fin 511).val < treeA.leafCount.toNat ∧ treeA.innerAt 2 ∧ (1 : Fin 511).val < treeA.root.toNat :=
  ⟨by decide, ⟨by decide, by decide⟩, by decide⟩

/-- Both weights: 1 (code "0") and at least 2 (code "1"). -/
theorem witness_SingleSymbolGetsASyntheticSibling :
    ((withFreq [(0xFF, 1#32)]).freq[0xFF].toNat = 1 ∧ 2 ≤ (withFreq [(0xFF, 5#32)]).freq[0xFF].toNat) ∧
      ∀ w : Word, ∀ z : Fin 256, z ≠ 0xFF → (withFreq [(0xFF, w)]).freq[z] = 0#32 := by
  refine ⟨by decide +kernel, fun w z hz => ?_⟩
  have h : 255 ≠ z.val := fun e => hz (Fin.ext e.symm)
  show (State.reset.freq.set 255 w)[z.val] = _
  rw [Vector.getElem_set, if_neg h]
  simp [State.reset]

/-- Two states with equal FREQ and different trees. -/
theorem witness_BuildDependsOnFreqAlone : treeA.freq = (withFreq [(0x61, 4#32)]).freq ∧
    (∃ t, exec .build treeA = .next t) ∧ ∃ t, exec .build (withFreq [(0x61, 4#32)]) = .next t :=
  ⟨rfl, next_of_goesOn _ (by decide +kernel), next_of_goesOn _ (by decide +kernel)⟩

/-- Each clause: no tree; above ROOT; selector 4; the last entry and each selector. -/
theorem witness_NodeRdReadsOneFieldGroup : State.reset.treeValid = false ∧ treeA.treeValid = true ∧
    treeA.root.toNat < (3#9 : Index).toNat ∧ 3 < (4#32 : Word).toNat ∧
    (2#9 : Index).toNat < 511 ∧ (2#9 : Index).toNat ≤ treeA.root.toNat ∧ (3#32 : Word).toNat ≤ 3 := by decide

theorem witness_GenlutWritesTheCodeTable : State.reset.treeValid = false ∧ treeA.treeValid = true ∧ TreeOk treeA :=
  ⟨rfl, rfl, treeA_ok⟩

theorem witness_CodeLengthsAreBounded : Inv tableA ∧ tableA.lutValid = true ∧ (1 : Fin 511).val < tableA.leafCount.toNat :=
  ⟨tableA_inv, rfl, by decide⟩

/-- Two code words of one table. -/
theorem witness_NoCodeWordBeginsAnother : Inv tableA ∧ tableA.lutValid = true ∧ (0x61 : Fin 257) ≠ 256 ∧
    tableA.lut[(0x61 : Fin 257)].len ≠ 0#8 ∧ tableA.lut[(256 : Fin 257)].len ≠ 0#8 :=
  ⟨tableA_inv, rfl, by decide, by decide +kernel, by decide +kernel⟩

theorem witness_CodeWordsAreComplete : Inv tableA ∧ tableA.lutValid = true := ⟨tableA_inv, rfl⟩

/-- Each clause: no LUT; symbol 257; selector 9; symbol 256 and selectors 0 and 8. -/
theorem witness_LutRdReadsOnePart : treeA.lutValid = false ∧ tableA.lutValid = true ∧ 256 < (257#9 : Index).toNat ∧
    8 < (9#32 : Word).toNat ∧ (256#9 : Index).toNat < 257 ∧ (8#32 : Word).toNat ≤ 8 ∧ (0#32 : Word) ≠ 8#32 := by decide

/-- Each clause: no LUT; 256; an ended session; a symbol without an entry (0xFF); one with an entry. -/
theorem witness_EncSymAppendsTheCodeWord : treeA.lutValid = false ∧ tableA.lutValid = true ∧ 255 < (256#9 : Index).toNat ∧
    (255#9 : Index).toNat ≤ 255 ∧ unknownA.encErr ≠ 0#4 ∧ tableA.encErr = 0#4 ∧ tableA.lut[(255#9 : Index).toNat].len = 0#8 ∧
    tableA.lut[(0x61#9 : Index).toNat].len ≠ 0#8 := by decide +kernel

/-- Each clause: no tree; 256; an ended session; bytes 0x2F and 0x32; a leaf and an inner child. -/
theorem witness_DecBitWalksOneBranch : State.reset.treeValid = false ∧ treeA.treeValid = true ∧ 255 < (256#9 : Index).toNat ∧
    endedA.decErr ≠ 0#4 ∧ ((0x2F#9 : Index).toNat ≠ 0x30 ∧ (0x32#9 : Index).toNat ≠ 0x31) ∧
    (treeABC.nodeAt treeABC.cursor = some ⟨false, 0#9, 2#9, 3#9, 3#40⟩ ∧
      treeABC.nodeAt 2#9 = some ⟨true, 0x63#9, 0#9, 0#9, 1#40⟩ ∧
      treeABC.nodeAt 3#9 = some ⟨false, 0#9, 0#9, 1#9, 2#40⟩) := by decide +kernel

/-- Each clause: no tree; an ended session; off the root; at the root. -/
theorem witness_DecEndChecksTheCursor : State.reset.treeValid = false ∧ endedA.decErr ≠ 0#4 ∧
    (treeABC.treeValid = true ∧ treeABC.decErr = 0#4 ∧ treeABC.cursor = treeABC.root) ∧
    ({ treeABC with cursor := 3#9 } : State).cursor ≠ treeABC.root := by decide

theorem witness_EmptyDecodeSessionIsOk : treeA.ready = true ∧ treeA.treeValid = true := by decide

/-- FREQ changes: OnlyFrequencyCommandsWriteFreq's premise is met by a command that does change it. -/
theorem witness_OnlyFrequencyCommandsWriteFreq :
    partOf (fun t => decide (t.freq ≠ treeA.freq)) (exec .freqClr treeA) = some true := by decide +kernel

theorem witness_OnlyBuildWritesTheTree : (∃ t, exec .genlut treeA = .next t) ∧ Instr.genlut ≠ .build :=
  ⟨next_of_goesOn _ (by decide +kernel), by decide⟩

theorem witness_OnlyGenlutWritesTheLut : (∃ t, exec .build treeA = .next t) ∧ Instr.build ≠ .genlut :=
  ⟨next_of_goesOn _ (by decide +kernel), by decide⟩

theorem witness_OnlyDecoderCommandsWriteTheSession :
    partOf (fun t => decide (t.cursor ≠ treeABC.cursor)) (exec (.decBit 0x31#9) treeABC) = some true ∧
      partOf (fun t => decide (t.decErr ≠ treeABC.decErr)) (exec (.decBit 0x32#9) treeABC) = some true := by decide +kernel

theorem witness_OnlyEncoderCommandsWriteEncErr :
    partOf (fun t => decide (t.encErr ≠ unknownA.encErr)) (exec .encStart unknownA) = some true ∧
      partOf (fun t => decide (t.encErr ≠ tableA.encErr)) (exec (.encSym 0x62#9) tableA) = some true := by decide +kernel

theorem witness_OnlyEncSymAppendsToBout : ∃ t, exec (.encSym 0x61#9) tableA = .next t :=
  next_of_goesOn _ (by decide +kernel)

theorem witness_NotReadyExactlyWhereTheRuleSays : State.reset.treeValid = false ∧ State.reset.lutValid = false ∧
    answerOf (exec .genlut State.reset) = some ⟨5#4, 0#32⟩ ∧ Inv treeA ∧
    answerOf (exec (.encSym 0x61#9) treeA) = some ⟨5#4, 0#32⟩ :=
  ⟨by decide, by decide, by decide +kernel, treeA_inv, by decide +kernel⟩

/-- RANGE at the edge of each range, and a well-formed NODE_RD above ROOT. -/
theorem witness_RangeExactlyWhereTheRuleSays : Inv tableA ∧
    answerOf (exec (.freqWr 256#9 0#32) tableA) = some ⟨7#4, 0#32⟩ ∧
    answerOf (exec (.encSym 256#9) tableA) = some ⟨7#4, 0#32⟩ ∧ answerOf (exec (.decBit 256#9) tableA) = some ⟨7#4, 0#32⟩ ∧
    answerOf (exec (.lutRd 257#9 0#32) tableA) = some ⟨7#4, 0#32⟩ ∧
    answerOf (exec (.nodeRd 3#9 0#32) tableA) = some ⟨7#4, 0#32⟩ ∧ (Instr.nodeRd 3#9 0#32).wellFormed = true :=
  ⟨tableA_inv, by decide +kernel⟩

/-- Each of the errors that changes something. -/
theorem witness_ErrorsChangeOnlyWhatTheRuleLists :
    answerOf (exec (.decBit 0x32#9) treeA) = some ⟨2#4, 0#32⟩ ∧
      answerOf (exec .decEnd { treeABC with cursor := 3#9 }) = some ⟨3#4, 0#32⟩ ∧
      answerOf (exec (.encSym 0x62#9) tableA) = some ⟨4#4, 0#32⟩ ∧
      answerOf (exec .build State.reset) = some ⟨1#4, 0#32⟩ := by decide +kernel

/-- Each clause: an ended session of each kind; a command and a move of the host that clear the error. -/
theorem witness_StickyErrorsAnswerAgain : (endedA.treeValid = true ∧ endedA.decErr ≠ 0#4) ∧
    (unknownA.lutValid = true ∧ unknownA.encErr ≠ 0#4) ∧
    partOf State.decErr (exec .decStart endedA) = some 0#4 ∧ partOf State.encErr (exec .encStart unknownA) = some 0#4 ∧
    (HostMove.apply .assertReset endedA).decErr ≠ endedA.decErr := by decide +kernel

/-- The two operand values each clause needs at once, and the states. -/
theorem witness_ChecksAreReportedInOrder : State.reset.treeValid = false ∧ State.reset.lutValid = false ∧
    255 < (0x132#9 : Index).toNat ∧ 8 < (9#32 : Word).toNat ∧ endedA.treeValid = true ∧ endedA.decErr ≠ 0#4 ∧
    unknownA.lutValid = true ∧ unknownA.encErr ≠ 0#4 ∧ ({ endedA with cursor := 0#9 } : State).cursor ≠ endedA.root := by
  decide

theorem witness_RepeatingTheseCommandsChangesNothing : (∃ t, exec .statusRd treeA = .next t) ∧ ∃ t, exec .genlut treeA = .next t :=
  ⟨next_of_goesOn _ (by decide +kernel), next_of_goesOn _ (by decide +kernel)⟩

/-- "aab": every count fits. -/
theorem witness_FreqLoadLoadsTheCounts : State.reset.ready = true ∧ ∀ y : Byte, [0x61#8, 0x61#8, 0x62#8].count y < 2 ^ 32 :=
  ⟨by decide, fun y => Nat.lt_of_le_of_lt List.count_le_length (by decide)⟩

theorem witness_DecodingACodeWordEmitsItsSymbol : Inv tableA ∧ tableA.ready = true ∧ tableA.lutValid = true ∧ tableA.decErr = 0#4 ∧
    tableA.cursor = tableA.root ∧ tableA.lut[(0x61 : Fin 257)].len ≠ 0#8 :=
  ⟨tableA_inv, rfl, rfl, rfl, rfl, by decide +kernel⟩

theorem witness_DecodingASequence : Inv treeA ∧ treeA.ready = true ∧ treeA.treeValid = true ∧ (0x32#8 : Byte) ≠ 0x30#8 ∧ (0x32#8 : Byte) ≠ 0x31#8 :=
  ⟨treeA_inv, rfl, rfl, by decide, by decide⟩

/-- Also for EncodingASequenceAppendsItsCodeWords. -/
theorem witness_DecompressInvertsCompress : State.reset.ready = true ∧ treeA.ready = true ∧ [0x61#8, 0x61#8, 0x62#8] ≠ [] ∧
    ∀ y : Byte, [0x61#8, 0x61#8, 0x62#8].count y < 2 ^ 32 :=
  ⟨by decide, by decide, by decide, witness_FreqLoadLoadsTheCounts.2⟩

/-- A step that answers a command, one that makes a move of the host, from states with the invariant. -/
theorem witness_EveryStepKeepsTheInvariant : Inv treeA ∧ (∃ t, step treeA = .next t) ∧
    (∃ t, step ({ treeA with cmdch := [⟨0x50000000#32, 0#32⟩] } : State) = .next t) ∧
    ∃ t, stepWith Config.params treeA = .next t :=
  ⟨treeA_inv, next_of_goesOn _ (by decide +kernel), next_of_goesOn _ (by decide +kernel), next_of_goesOn _ (by decide +kernel)⟩

theorem witness_EveryCommandCompletes : Inv treeA ∧ treeA.ready = true ∧ inReset.ready = false ∧ waiting.ready = false :=
  ⟨treeA_inv, by decide⟩

/-- P4 steps 13 to 15: a program may hold illegal packets. One of each kind of answer, and the block that is not ready. -/
theorem test_run : (runProgram [⟨0xE0000000#32, 0#32⟩] State.reset).map RunResult.responses = some [⟨6#4, 0#32⟩] ∧
    (runProgram [⟨0x00000001#32, 0#32⟩] State.reset).map RunResult.responses = some [⟨6#4, 0#32⟩] ∧
    (runProgram [⟨0x90000061#32, 0#32⟩] tableA).map RunResult.bytes = some [0x31#8] ∧
    runProgram [⟨0x00000000#32, 0#32⟩] inReset = none ∧ runProgram [⟨0x00000000#32, 0#32⟩] waiting = none := by
  decide +kernel

/-- Two states that differ in NODE outside the valid region, in LUT and in the draw counter. -/
theorem witness_UnspecifiedContentsAreNeverObserved : Inv treeA ∧
    SameObservable treeA { treeA with node := treeA.node.set 510 ⟨true, 1#9, 2#9, 3#9, 4#40⟩, lut := tableA.lut, draws := 7 } := by
  refine ⟨treeA_inv, rfl, fun _ i hi => ?_, fun e => by cases e⟩
  have h : 510 ≠ i.val := by
    have : i.val ≤ 2 := hi
    omega
  show (treeA.node.set 510 _)[i.val] = _
  rw [Vector.getElem_set, if_neg h]
  rfl

end Sys2Proof.Tests
end

/-! PROOFS of the statements of scope: the step of an idle core (O7), the parameters (O18), the weight of the root (O27),
and the invariant that every step keeps (O58). -/

namespace Sys2Proof.Machine

/-! ## The step of an idle core (R164) -/

/-- An idle core accepts the oldest packet offered: the converse of `accept_some`. -/
theorem accept_of_idle (s : State) (p : Packet) (rest : List Packet) (hout : s.resetIn = false) (hrsp : s.rspch = none)
    (hcmd : s.cmdch = p :: rest) : s.accept = some (p, { s with cmdch := rest }) := by
  have hidle : s.idle = true := by simp [State.idle, hout, hrsp]
  simp only [State.accept, hidle, hcmd]

/-- Settles O7: the idle core accepts the packet, and its decoding selects the command. -/
theorem stepPerformsTheDecodedCommand : Obligations.StepPerformsTheDecodedCommand := by
  intro s p rest i hout hrsp hcmd hdec
  simp only [step, stepBy, accept_of_idle s p rest hout hrsp hcmd, packetBy, hdec]

/-! ## The width of a count (R14, R402) -/

theorem countFits_iff (p : Params) (arg : Word) : countFits p arg = true ↔ arg.toNat < 2 ^ p.wF := by
  have := Nat.two_pow_pos p.wF
  simp only [countFits, decide_eq_true_eq]
  omega

/-- Settles O18: FREQ_WR's two ways to answer, told apart by `countFits`; the rest is the model's own two equations for
this hardware's parameters. -/
theorem freqWrChecksTheCountWidth : Obligations.FreqWrChecksTheCountWidth := by
  refine ⟨fun p s idx arg _ hidx => ⟨fun hfits => ?_, fun hwide => ?_⟩, execWith_params, stepWith_params⟩
  · have hy := dataSymbol_of_lt idx (by omega)
    refine ⟨_, execWith_of_answers p _ s _ _ _ (.freqWr s idx arg _ hy ((countFits_iff p arg).2 hfits)), fun y => ?_, rfl⟩
    show (s.freq.set idx.toNat arg)[y.val] = _
    simp only [Vector.getElem_set, eq_comm (a := idx.toNat), Fin.getElem_fin]
  · have hc : countFits p arg = false := by
      rw [Bool.eq_false_iff, ne_eq, countFits_iff]; omega
    exact execWith_of_answers p _ s _ _ _ (.freqWrRange s idx arg (.inr hc))

/-! ## The weight of the root (R15, R464) -/

/-- The element left in P after the last merge is ROOT, since every other entry has a parent; so ROOT carries all of the
leaves' weight. -/
theorem Built.root_weight {freq : Vector Word 256} {leaves nodes : List Node} {t : State}
    (b : Built freq leaves nodes t) : t.weightOf t.root = (leaves.map fun nd => nd.weight.toNat).sum := by
  obtain ⟨x, hx⟩ := b.merges
  have hlen := b.length; have hfew := b.leavesOk.few; have hc := b.count; have hr := b.rootIs
  obtain ⟨hlt, hfree⟩ := (hx.mem x.idx.toNat).1 ⟨x, List.mem_singleton_self x, rfl⟩
  have hroot : x.idx.toNat = t.root.toNat := by
    by_contra hne
    obtain ⟨n, ⟨hn1, hn2⟩, hch, -⟩ := b.oneParent ⟨x.idx.toNat, by omega⟩ (by simp only; omega)
    exact hfree n.val (by omega) (by omega) ((b.child _ n (by omega)).2 hch)
  calc t.weightOf t.root = listWeight nodes t.root.toNat :=
        (weightOf_eq t _ ⟨t.root.toNat, by omega⟩ rfl).trans (b.weight ⟨t.root.toNat, by omega⟩ (by simp only; omega)).symm
    _ = x.weight.toNat := hroot ▸ hx.ranked x (List.mem_singleton_self x)
    _ = (leaves.map fun nd => nd.weight.toNat).sum := by simpa using hx.sum

/-- Settles O27: ROOT weighs what BUILD's leaves weigh, and those sum to FREQ and the synthetic leaf. -/
theorem rootWeightIsTheSumOfFreq : Obligations.RootWeightIsTheSumOfFreq := by
  intro s t h hv
  obtain ⟨-, -, b⟩ := built_of_build s t h hv
  exact b.root_weight.trans b.leavesOk.sum

/-! ## The tree's facts the invariant needs (R15, R117, R130) -/

/-- ROOT is an internal node. -/
theorem TreeOk.root_inner {s : State} (h : TreeOk s) : s.innerAt s.root.toNat := by
  have := h.count; have := h.rootIs
  exact ⟨by omega, Nat.le_refl _⟩

/-- A child that is no leaf is an internal node. -/
theorem TreeOk.child_inner {s : State} (h : TreeOk s) {n : Index} {here nxt : Node} {branch : Bool}
    (hn : s.innerAt n.toNat) (hhere : s.nodeAt n = some here) (hnxt : s.nodeAt (here.child branch) = some nxt)
    (hleaf : nxt.leaf = false) : s.innerAt (here.child branch).toNat := by
  have hle := h.root_le; have hn2 := hn.2
  rw [nodeAt_eq s n ⟨n.toNat, by omega⟩ rfl, Option.some.injEq] at hhere
  subst hhere
  obtain ⟨hlt, -⟩ := h.child ⟨n.toNat, by omega⟩ hn branch
  obtain ⟨i, hi, hnode, ⟨-, hl⟩ | ⟨hin, -⟩⟩ := h.entry _ (Nat.le_of_lt (Nat.lt_of_lt_of_le hlt hn.2))
  · rw [hnode, Option.some.injEq] at hnxt
    subst hnxt
    exact absurd (hleaf.symm.trans hl) Bool.false_ne_true
  · exact hi ▸ hin

/-- A parent weighs at least as much as its child. -/
theorem TreeOk.weight_le_parent {s : State} (h : TreeOk s) {m n : Fin 511} (hn : s.innerAt n.val) (hc : s.childOf m n) :
    s.node[m].weight.toNat ≤ s.node[n].weight.toNat := by
  obtain ⟨-, -, -, -, -, hw⟩ := h.inner n hn
  rcases hc with e | e
  · rw [hw, weightOf_eq s s.node[n].left m e]; omega
  · rw [hw, weightOf_eq s s.node[n].right m e]; omega

/-- No entry of the valid region weighs more than ROOT: follow the parents up. -/
theorem TreeOk.weight_le_root {s : State} (h : TreeOk s) (m : Fin 511) (hm : m.val ≤ s.root.toNat) :
    s.node[m].weight.toNat ≤ s.weightOf s.root := by
  induction hd : s.root.toNat - m.val using Nat.strong_induction_on generalizing m with
  | _ d ih =>
    by_cases hroot : s.root.toNat = m.val
    · exact (weightOf_eq s s.root m hroot).ge
    · obtain ⟨n, hn, hc, -⟩ := h.oneParent m (by omega)
      obtain ⟨-, -, hl, hr, -, -⟩ := h.inner n hn
      have hmn : m.val < n.val := by rcases hc with e | e <;> omega
      have hn2 := hn.2
      exact (h.weight_le_parent hn hc).trans (ih _ (by omega) n hn2 rfl)

/-- 256 counts of `k` bits, and one more, sum to a number of `k + 8` bits (R15). -/
theorem sum_lt_of_freqFits (freq : Vector Word 256) (k : Nat) (h : ∀ y : Fin 256, freq[y].toNat < 2 ^ k) :
    (freq.toList.map BitVec.toNat).sum + 1 < 2 ^ (k + 8) := by
  have hle : (freq.toList.map BitVec.toNat).sum ≤ (freq.toList.map BitVec.toNat).length • (2 ^ k - 1) := by
    refine List.sum_le_card_nsmul _ _ fun n hn => ?_
    obtain ⟨w, hw, rfl⟩ := List.mem_map.1 hn
    obtain ⟨i, hi, rfl⟩ := List.getElem_of_mem hw
    have := h ⟨i, by simpa using hi⟩
    simp only [Vector.getElem_toList, Fin.getElem_fin] at this ⊢
    omega
  rw [List.length_map, Vector.length_toList, smul_eq_mul] at hle
  have := Nat.two_pow_pos k
  rw [Nat.pow_add]
  omega

/-- No weight of the tree BUILD makes over counts of `k` bits needs more than `k + 8` bits (R15). -/
theorem Built.weight_lt {freq : Vector Word 256} {leaves nodes : List Node} {t : State} (b : Built freq leaves nodes t)
    (k : Nat) (h : ∀ y : Fin 256, freq[y].toNat < 2 ^ k) (m : Fin 511) (hm : m.val ≤ t.root.toNat) :
    t.node[m].weight.toNat < 2 ^ (k + 8) := by
  have hle := b.treeOk.weight_le_root m hm
  have hlt := sum_lt_of_freqFits freq k h
  rw [b.root_weight, b.leavesOk.sum] at hle
  split at hle <;> omega

/-! ## The invariant through each named update, out of RESET -/

section Updates
variable {p : Params} {s : State}

/-- Out of RESET, the invariant's clause about RESET asks nothing. -/
theorem inReset_of_out {t : State} (hout : t.resetIn = false) (e : t.resetIn = true) :
    t = { t.afterReset with node := t.node, lut := t.lut } := absurd (hout.symm.trans e) Bool.false_ne_true

/-- The channels and the host's side hold what they hold; the core's clauses stay. -/
theorem InvWith.withChannels (h : InvWith p s) (cmdch : List Packet) (rspch : Option Response) (rspTaken : List Response)
    (boutTaken : Nat) (resetIn : Bool) (hostMoves : List HostMove) (taken : boutTaken ≤ s.bout.length)
    (waiting : ∀ r, rspch = some r → r.legal) (answered : ∀ r ∈ rspTaken, r.legal)
    (inReset : resetIn = true → s.resetIn = true ∧ rspch = none ∧ boutTaken = 0) :
    InvWith p { s with cmdch := cmdch, rspch := rspch, rspTaken := rspTaken, boutTaken := boutTaken,
                       resetIn := resetIn, hostMoves := hostMoves } := by
  refine h.of_core rfl rfl rfl rfl rfl rfl h.freqFits h.cursor (fun e => (h.noTree e).2.2) h.noLut h.decErr h.encErr
    h.bout taken waiting answered fun e => ?_
  obtain ⟨hin, rfl, rfl⟩ := inReset e
  obtain rfl : resetIn = true := e
  exact congrArg (fun u : State => { u with cmdch := cmdch, rspch := none, rspTaken := rspTaken, boutTaken := 0,
                                            resetIn := true, hostMoves := hostMoves }) (h.inReset hin)

theorem InvWith.accepted (h : InvWith p s) (hout : s.resetIn = false) (rest : List Packet) :
    InvWith p { s with cmdch := rest } :=
  h.withChannels rest s.rspch s.rspTaken s.boutTaken s.resetIn s.hostMoves h.taken h.waiting h.answered
    fun e => absurd (hout.symm.trans e) Bool.false_ne_true

theorem InvWith.respond (h : InvWith p s) (hout : s.resetIn = false) {c : Code} {d : Word}
    (hl : Response.legal ⟨c, d⟩) : InvWith p (s.respond c d) :=
  h.withChannels s.cmdch (some ⟨c, d⟩) s.rspTaken s.boutTaken s.resetIn s.hostMoves h.taken
    (fun _ e => Option.some.inj e ▸ hl) h.answered fun e => absurd (hout.symm.trans e) Bool.false_ne_true

/-- FREQ holds other counts that fit (R110). -/
theorem InvWith.withFreq (h : InvWith p s) (hout : s.resetIn = false) (freq : Vector Word 256)
    (fits : ∀ y : Fin 256, freq[y].toNat < 2 ^ p.wF) : InvWith p { s with freq := freq } :=
  h.of_core rfl rfl rfl rfl rfl rfl fits h.cursor (fun e => (h.noTree e).2.2) h.noLut h.decErr h.encErr h.bout h.taken
    h.waiting h.answered (inReset_of_out hout)

theorem InvWith.setFreq (h : InvWith p s) (hout : s.resetIn = false) (y : Fin 256) (count : Word)
    (fits : count.toNat < 2 ^ p.wF) : InvWith p (s.setFreq y count) := by
  refine h.withFreq hout (s.freq.set y.val count) fun z => ?_
  show ((s.freq.set y.val count)[z.val]).toNat < _
  rw [Vector.getElem_set]
  split
  · exact fits
  · exact h.freqFits z

theorem InvWith.clearFreq (h : InvWith p s) (hout : s.resetIn = false) : InvWith p s.clearFreq :=
  h.withFreq hout (Vector.replicate 256 0#32) fun y => by simp

/-- The decode session stands elsewhere (R130, R131). -/
theorem InvWith.withDecoder (h : InvWith p s) (hout : s.resetIn = false) (n : Index) (code : Code)
    (cursor : s.treeValid = true → code = 0#4 → s.innerAt n.toNat)
    (noTree : s.treeValid = false → n = 0#9 ∧ code = 0#4)
    (known : code = 0#4 ∨ code = 2#4 ∨ code = 3#4) : InvWith p { s with cursor := n, decErr := code } :=
  h.of_core rfl rfl rfl rfl rfl rfl h.freqFits cursor noTree h.noLut known h.encErr h.bout h.taken h.waiting h.answered
    (inReset_of_out hout)

/-- With a tree, the decode session goes on at an internal node. -/
theorem InvWith.setCursor (h : InvWith p s) (hout : s.resetIn = false) (hv : s.treeValid = true) (n : Index)
    (hn : s.innerAt n.toNat) : InvWith p (s.setCursor n) :=
  h.withDecoder hout n s.decErr (fun _ _ => hn) (fun e => absurd (hv.symm.trans e) Bool.noConfusion) h.decErr

/-- With a tree, the decode session ends with an error. -/
theorem InvWith.setDecErr (h : InvWith p s) (hout : s.resetIn = false) (hv : s.treeValid = true) (code : Code)
    (hc : code = 2#4 ∨ code = 3#4) : InvWith p (s.setDecErr code) :=
  h.withDecoder hout s.cursor code (fun _ e => by subst e; exact absurd hc (by decide))
    (fun e => absurd (hv.symm.trans e) Bool.noConfusion) (.inr hc)

/-- A decode session begins (R601), with a tree or without one. -/
theorem InvWith.startDecoder (h : InvWith p s) (hout : s.resetIn = false) :
    InvWith p ((s.setCursor s.root).setDecErr 0#4) :=
  h.withDecoder hout s.root 0#4 (fun hv _ => (h.tree hv).root_inner) (fun e => ⟨(h.noTree e).2.1, rfl⟩) (.inl rfl)

/-- The encode session is cleared, or, with a LUT, ends with an error (R135). -/
theorem InvWith.setEncErr (h : InvWith p s) (hout : s.resetIn = false) (code : Code)
    (hc : code = 0#4 ∨ (code = 4#4 ∧ s.lutValid = true)) : InvWith p (s.setEncErr code) :=
  h.of_core rfl rfl rfl rfl rfl rfl h.freqFits h.cursor (fun e => (h.noTree e).2.2)
    (fun e => hc.resolve_right fun ⟨_, hv⟩ => Bool.noConfusion (hv.symm.trans e)) h.decErr (hc.imp_right And.left)
    h.bout h.taken h.waiting h.answered (inReset_of_out hout)

theorem markerOf_eq (p : Params) (branch : Bool) : markerOf p branch = p.markL ∨ markerOf p branch = p.markR := by
  cases branch
  · exact .inl rfl
  · exact .inr rfl

/-- Marker bytes are emitted (R140). -/
theorem InvWith.emit (h : InvWith p s) (hout : s.resetIn = false) (code : List Bool) :
    InvWith p (s.emit (code.map (markerOf p))) := by
  refine h.of_core rfl rfl rfl rfl rfl rfl h.freqFits h.cursor (fun e => (h.noTree e).2.2) h.noLut h.decErr h.encErr
    (fun b hb => ?_) ?_ h.waiting h.answered (inReset_of_out hout)
  · rcases List.mem_append.1 hb with hb | hb
    · exact h.bout b hb
    · obtain ⟨branch, -, rfl⟩ := List.mem_map.1 hb
      exact markerOf_eq p branch
  · have := h.taken
    simp only [State.emit_boutTaken, State.emit_bout, List.length_append]
    omega

/-- A successful BUILD (R460): everything about the tree is `Built`'s. -/
theorem InvWith.commitTree (h : InvWith p s) (hout : s.resetIn = false) (hl : buildLeaves s ≠ []) :
    InvWith p (s.commitTree (buildNodes s) (buildCount s) (buildRoot s)) := by
  have b := built_commit s (by simpa using mt (buildLeaves_eq_nil s).2 hl)
  have tree : TreeOk (s.commitTree (buildNodes s) (buildCount s) (buildRoot s)) := b.treeOk.congr rfl rfl rfl
  exact {
    freqFits := h.freqFits
    weightsFit := fun _ => b.weight_lt p.wF h.freqFits
    tree := fun _ => tree
    noTree := Bool.noConfusion
    lutNeedsTree := Bool.noConfusion
    lut := Bool.noConfusion
    noLut := fun _ => rfl
    cursor := fun _ _ => tree.root_inner
    decErr := .inl rfl
    encErr := .inl rfl
    bout := h.bout
    taken := h.taken
    waiting := h.waiting
    answered := h.answered
    inReset := inReset_of_out hout }

/-- A BUILD over an empty table (R462). -/
theorem InvWith.discardTree (h : InvWith p s) (hout : s.resetIn = false) : InvWith p s.discardTree where
  freqFits := h.freqFits
  weightsFit := Bool.noConfusion
  tree := Bool.noConfusion
  noTree := fun _ => ⟨rfl, rfl, rfl, rfl⟩
  lutNeedsTree := Bool.noConfusion
  lut := Bool.noConfusion
  noLut := fun _ => rfl
  cursor := Bool.noConfusion
  decErr := .inl rfl
  encErr := .inl rfl
  bout := h.bout
  taken := h.taken
  waiting := h.waiting
  answered := h.answered
  inReset := inReset_of_out hout

/-- GENLUT over a tree (R501): the table its walk writes is the tree's code table. -/
theorem InvWith.commitLut (h : InvWith p s) (hout : s.resetIn = false) (hv : s.treeValid = true)
    {leaves : List (Index × List Bool)} (hw : walk s.node (Config.lenMax + 1) s.root [] = .ok leaves) :
    InvWith p (s.commitLut (tableOf leaves)) where
  freqFits := h.freqFits
  weightsFit := h.weightsFit
  tree := fun _ => (h.tree hv).congr rfl rfl rfl
  noTree := h.noTree
  lutNeedsTree := fun _ => hv
  lut := fun _ => by
    obtain ⟨found, hf, hok⟩ := (h.tree hv).genlut
    obtain rfl : found = leaves := Except.ok.inj (hf.symm.trans hw)
    exact hok _ rfl rfl rfl rfl
  noLut := Bool.noConfusion
  cursor := h.cursor
  decErr := h.decErr
  encErr := h.encErr
  bout := h.bout
  taken := h.taken
  waiting := h.waiting
  answered := h.answered
  inReset := inReset_of_out hout

end Updates

/-! ## The invariant through a command -/

theorem Response.legal_ok (d : Word) : Response.legal ⟨0#4, d⟩ := ⟨Nat.zero_le _, fun h => absurd rfl h⟩

theorem Response.legal_error {c : Code} (h : c.toNat ≤ 7) : Response.legal ⟨c, 0#32⟩ := ⟨h, fun _ => rfl⟩

/-- Every command answers a legal response (R311, R312). -/
theorem AnswersWith.legal {p : Params} {i : Instr} {s u : State} {c : Code} {d : Word} (h : AnswersWith p i s u c d)
    (hs : InvWith p s) : Response.legal ⟨c, d⟩ := by
  cases h
  case decBitSticky | decEndSticky =>
    refine Response.legal_error ?_
    rcases hs.decErr with e | e | e <;> rw [e] <;> decide
  case encSymSticky =>
    refine Response.legal_error ?_
    rcases hs.encErr with e | e <;> rw [e] <;> decide
  case nop | statusRd | freqClr | freqWr | freqRd | build | genlut | nodeRd | lutRd | encStart | encSym | decStart |
      decBitLeaf | decBitInner | decEnd => exact Response.legal_ok _
  case reservedE | reservedF | freqWrRange | freqRdRange | buildEmpty | genlutNotReady | nodeRdNotReady | nodeRdRange |
      lutRdNotReady | lutRdRange | encSymNotReady | encSymRange | encSymUnknown | decBitNotReady | decBitRange |
      decBitInvalid | decEndNotReady | decEndTruncated => exact Response.legal_error (by decide)

/-- What every command writes keeps the invariant. -/
theorem AnswersWith.inv {p : Params} {i : Instr} {s u : State} {c : Code} {d : Word} (h : AnswersWith p i s u c d)
    (hs : InvWith p s) (hout : s.resetIn = false) : InvWith p u := by
  cases h with
  | freqClr => exact hs.clearFreq hout
  | freqWr _ idx arg y _ hc => exact hs.setFreq hout y arg ((countFits_iff p arg).1 hc)
  | build _ hl => exact hs.commitTree hout hl
  | buildEmpty => exact hs.discardTree hout
  | genlut _ leaves hv hw => exact hs.commitLut hout hv hw
  | encStart => exact hs.setEncErr hout _ (.inl rfl)
  | encSymUnknown _ _ _ hv => exact hs.setEncErr hout _ (.inr ⟨rfl, hv⟩)
  | encSym => exact hs.emit hout _
  | decStart => exact hs.startDecoder hout
  | decBitInvalid _ _ _ hv => exact hs.setDecErr hout hv _ (.inl rfl)
  | decEndTruncated _ hv => exact hs.setDecErr hout hv _ (.inr rfl)
  | decBitLeaf _ _ _ _ _ _ hv => exact hs.setCursor hout hv _ (hs.tree hv).root_inner
  | decBitInner _ _ _ _ _ _ hv _ he _ hhere hnxt hleaf =>
    exact hs.setCursor hout hv _ ((hs.tree hv).child_inner (hs.cursor hv he) hhere hnxt hleaf)
  | _ => exact hs

/-! ## The invariant through a move of the host -/

/-- The state RESET gives (R800), whatever the state before. -/
theorem InvWith.afterReset (p : Params) (s : State) (answered : ∀ r ∈ s.rspTaken, r.legal) :
    InvWith p s.afterReset where
  freqFits := fun y => by simp [State.reset]
  weightsFit := Bool.noConfusion
  tree := Bool.noConfusion
  noTree := fun _ => ⟨rfl, rfl, rfl, rfl⟩
  lutNeedsTree := Bool.noConfusion
  lut := Bool.noConfusion
  noLut := fun _ => rfl
  cursor := Bool.noConfusion
  decErr := .inl rfl
  encErr := .inl rfl
  bout := fun _ hb => absurd hb List.not_mem_nil
  taken := Nat.le_refl 0
  waiting := fun _ e => nomatch e
  answered := answered
  inReset := fun _ => rfl

/-- While RESET is asserted no response waits, and no byte counts as taken (R801). -/
theorem InvWith.channels_in_reset {p : Params} {s : State} (h : InvWith p s) (hin : s.resetIn = true) :
    s.rspch = none ∧ s.bout = [] ∧ s.boutTaken = 0 :=
  have e := h.inReset hin
  ⟨congrArg State.rspch e, congrArg State.bout e, congrArg State.boutTaken e⟩

/-- Taking the response that waits moves a legal response to those taken. -/
theorem InvWith.takeResponse {p : Params} {s : State} (h : InvWith p s) : InvWith p s.takeResponse := by
  cases hr : s.rspch with
  | none => rwa [s.takeResponse_of_none hr]
  | some r =>
    rw [s.takeResponse_of_waiting r hr]
    refine h.withChannels s.cmdch none _ s.boutTaken s.resetIn s.hostMoves h.taken (fun _ e => nomatch e)
      (fun q hq => ?_) fun e => ⟨e, rfl, (h.channels_in_reset e).2.2⟩
    rcases List.mem_append.1 hq with hq | hq
    · exact h.answered q hq
    · exact List.mem_singleton.1 hq ▸ h.waiting r hr

theorem HostMove.apply_inv {p : Params} {s : State} (m : HostMove) (h : InvWith p s) : InvWith p (m.apply s) := by
  cases m with
  | offer q =>
    exact h.withChannels (s.cmdch ++ [q]) s.rspch s.rspTaken s.boutTaken s.resetIn s.hostMoves h.taken h.waiting h.answered
      fun e => ⟨e, (h.channels_in_reset e).1, (h.channels_in_reset e).2.2⟩
  | takeResponse => exact h.takeResponse
  | takeBytes n =>
    refine h.withChannels s.cmdch s.rspch s.rspTaken _ s.resetIn s.hostMoves (Nat.min_le_right _ _) h.waiting h.answered
      fun e => ?_
    obtain ⟨hrsp, hbout, -⟩ := h.channels_in_reset e
    exact ⟨e, hrsp, by simp [hbout]⟩
  | assertReset => exact .afterReset p s h.answered
  | releaseReset =>
    exact h.withChannels s.cmdch s.rspch s.rspTaken s.boutTaken false s.hostMoves h.taken h.waiting h.answered
      Bool.noConfusion

/-- What a step without a packet to accept does: the state is held, or the host makes its next move. -/
theorem hostStep_next (s t : State) (h : hostStep s = .next t) :
    t = s ∨ ∃ m rest, s.hostMoves = m :: rest ∧ t = m.apply { s with hostMoves := rest } := by
  unfold hostStep at h
  split at h
  · next m rest hm => exact .inr ⟨m, rest, hm, (Host.Outcome.next.inj h).symm⟩
  · split at h
    · cases h
    · exact .inl (Host.Outcome.next.inj h).symm

theorem InvWith.hostStep {p : Params} {s t : State} (h : InvWith p s) (hstep : hostStep s = .next t) : InvWith p t := by
  rcases hostStep_next s t hstep with rfl | ⟨m, rest, -, rfl⟩
  · exact h
  · exact m.apply_inv (h.withChannels s.cmdch s.rspch s.rspTaken s.boutTaken s.resetIn rest h.taken h.waiting h.answered
      fun e => ⟨e, (h.channels_in_reset e).1, (h.channels_in_reset e).2.2⟩)

/-! ## The invariant through a step -/

/-- A packet performed out of RESET, legal or not, keeps the invariant. -/
theorem InvWith.packet {p : Params} {q : Packet} {s t : State} (h : InvWith p s) (hout : s.resetIn = false)
    (hp : packetBy (execWith p) q s = .next t) : InvWith p t := by
  rcases packetBy_cases (execWith p) q s with ⟨i, -, he⟩ | ⟨_, -, he⟩
  · obtain ⟨u, c, d, ha, rfl⟩ := answers_of_execWith p i s t (he.symm.trans hp)
    obtain ⟨-, -, -, -, hreset, -⟩ := ha.channels
    exact (ha.inv h hout).respond (hreset.trans hout) (ha.legal h)
  · obtain rfl : _ = t := Host.Outcome.next.inj (he.symm.trans hp)
    exact h.respond hout (Response.legal_error (by decide))

/-- A step of the block built with any parameters keeps the invariant. -/
theorem InvWith.stepWith {p : Params} {s t : State} (h : InvWith p s) (hstep : stepWith p s = .next t) :
    InvWith p t := by
  rcases stepBy_cases (execWith p) s with ⟨q, rest, hout, -, -, he⟩ | ⟨-, he⟩
  · exact (h.accepted hout rest).packet hout (he.symm.trans hstep)
  · exact h.hostStep (he.symm.trans hstep)

/-- Settles O58: a step is a packet performed or a move of the host, and each keeps the invariant for any parameters;
this hardware is one choice of them. -/
theorem everyStepKeepsTheInvariant : Obligations.EveryStepKeepsTheInvariant :=
  ⟨fun s _ h hstep => h.stepWith ((stepWith_params s).trans hstep), fun _ _ _ h hstep => h.stepWith hstep⟩

end Sys2Proof.Machine

/-! PROOFS of the statements of the state: which command and which move of the host writes what (O9, O12, O13, O40, O43,
O44, O45), the tree a BUILD leaves (O22), the invariant right after reset (O57), and what is never observed (O60). -/

namespace Sys2Proof.Machine

/-! ## The channels under a step and under a move of the host (R160 to R164, R742) -/

/-- No move of the host drops or reorders an offered packet (R160). -/
theorem HostMove.apply_cmdch (m : HostMove) (s : State) : ∃ more, (m.apply s).cmdch = s.cmdch ++ more := by
  cases m with
  | offer q => exact ⟨[q], rfl⟩
  | takeResponse => exact ⟨[], by simp [HostMove.apply]⟩
  | takeBytes n | assertReset | releaseReset => exact ⟨[], (List.append_nil _).symm⟩

/-- Settles O9: a core that is not idle performs no packet, so the step is the host's, and only an offer touches CMDCH. -/
theorem busyCoreKeepsOfferedPackets : Obligations.BusyCoreKeepsOfferedPackets := by
  intro s t hbusy hstep
  rcases stepBy_cases exec s with ⟨q, rest, hout, hrsp, -, -⟩ | ⟨-, he⟩
  · simp [hout, hrsp] at hbusy
  · rcases hostStep_next s t (he.symm.trans hstep) with rfl | ⟨m, rest, -, rfl⟩
    · exact ⟨[], (List.append_nil _).symm⟩
    · exact m.apply_cmdch { s with hostMoves := rest }

/-- Settles O12: move by move; a response is taken as `takeResponse_of_waiting` says. -/
theorem hostMovesLeaveTheCoreState : Obligations.HostMovesLeaveTheCoreState := by
  refine ⟨fun m s hm => ?_, State.takeResponse_of_waiting, fun s => ⟨rfl, rfl, rfl⟩⟩
  cases m with
  | takeResponse =>
    cases hr : s.rspch with
    | none => simp only [HostMove.apply, s.takeResponse_of_none hr]
    | some r => simp only [HostMove.apply, s.takeResponse_of_waiting r hr]
  | assertReset => exact absurd rfl hm
  | offer q | takeBytes n | releaseReset => rfl

/-- Settles O13: a command writes nothing of the channels before it answers (`AnswersWith.channels`), and then RSPCH. -/
theorem everyCommandAnswersOnce : Obligations.EveryCommandAnswersOnce := by
  intro i s t h
  obtain ⟨u, c, d, ha, rfl⟩ := answers_of_exec i s t h
  obtain ⟨hcmd, -, htaken, hbytes, hreset, hmoves⟩ := ha.channels
  exact ⟨⟨⟨c, d⟩, rfl⟩, hcmd, htaken, hbytes, hreset, hmoves⟩

/-! ## Which commands write what -/

section Writers
variable {p : Params} {i : Instr} {s u : State} {c : Code} {d : Word}

/-- A command that leaves FREQ other than it was is FREQ_CLR or FREQ_WR (R400). -/
theorem AnswersWith.writes_freq (h : AnswersWith p i s u c d) (hne : u.freq ≠ s.freq) :
    i = .freqClr ∨ ∃ idx arg, i = .freqWr idx arg := by
  cases h with
  | freqClr => exact .inl rfl
  | freqWr _ idx arg => exact .inr ⟨idx, arg, rfl⟩
  | _ => exact absurd rfl hne

/-- The commands on the frequency table write FREQ at most (R400). -/
theorem AnswersWith.freq_family (h : AnswersWith p i s u c d)
    (hi : i = .freqClr ∨ (∃ idx arg, i = .freqWr idx arg) ∨ ∃ idx, i = .freqRd idx) :
    u = { s with freq := u.freq } := by
  rcases hi with rfl | ⟨idx, arg, rfl⟩ | ⟨idx, rfl⟩ <;> cases h <;> rfl

/-- A command that moves CURSOR is BUILD, DEC_START or DEC_BIT (R130). -/
theorem AnswersWith.writes_cursor (h : AnswersWith p i s u c d) (hne : u.cursor ≠ s.cursor) :
    i = .build ∨ i = .decStart ∨ ∃ idx, i = .decBit idx := by
  cases h with
  | build | buildEmpty => exact .inl rfl
  | decStart => exact .inr (.inl rfl)
  | decBitLeaf _ idx | decBitInner _ idx => exact .inr (.inr ⟨idx, rfl⟩)
  | _ => exact absurd rfl hne

/-- A command that changes DEC_ERR is BUILD or one of the decoder's (R131). -/
theorem AnswersWith.writes_decErr (h : AnswersWith p i s u c d) (hne : u.decErr ≠ s.decErr) :
    i = .build ∨ i = .decStart ∨ i = .decEnd ∨ ∃ idx, i = .decBit idx := by
  cases h with
  | build | buildEmpty => exact .inl rfl
  | decStart => exact .inr (.inl rfl)
  | decEndTruncated => exact .inr (.inr (.inl rfl))
  | decBitInvalid _ idx => exact .inr (.inr (.inr ⟨idx, rfl⟩))
  | _ => exact absurd rfl hne

/-- A command that changes ENC_ERR clears it, as BUILD or ENC_START, or records UNKNOWN_SYMBOL, as ENC_SYM (R135). -/
theorem AnswersWith.writes_encErr (h : AnswersWith p i s u c d) (hne : u.encErr ≠ s.encErr) :
    ((i = .build ∨ i = .encStart) ∧ u.encErr = 0#4) ∨ ((∃ idx, i = .encSym idx) ∧ u.encErr = 4#4) := by
  cases h with
  | build | buildEmpty => exact .inl ⟨.inl rfl, rfl⟩
  | encStart => exact .inl ⟨.inr rfl, rfl⟩
  | encSymUnknown _ idx => exact .inr ⟨⟨idx, rfl⟩, rfl⟩
  | _ => exact absurd rfl hne

/-- BOUT only grows, by the markers of some branches, and only under ENC_SYM (R140). -/
theorem AnswersWith.appends_bout (h : AnswersWith p i s u c d) :
    ∃ branches : List Bool, u.bout = s.bout ++ branches.map (markerOf p) ∧
      (branches ≠ [] → ∃ idx, i = .encSym idx) := by
  cases h with
  | encSym _ idx y => exact ⟨(s.entryOfSymbol y).code, rfl, fun _ => ⟨idx, rfl⟩⟩
  | _ => exact ⟨[], (List.append_nil _).symm, fun hne => absurd rfl hne⟩

end Writers

/-- Settles O40: the two frame lemmas on FREQ; answering writes RSPCH only. -/
theorem onlyFrequencyCommandsWriteFreq : Obligations.OnlyFrequencyCommandsWriteFreq := by
  intro i s t h
  obtain ⟨u, c, d, ha, rfl⟩ := answers_of_exec i s t h
  exact ⟨ha.writes_freq, fun hi => congrArg (State.respond · c d) (ha.freq_family hi)⟩

/-- Settles O43, by the two frame lemmas on the decode session. -/
theorem onlyDecoderCommandsWriteTheSession : Obligations.OnlyDecoderCommandsWriteTheSession := by
  intro i s t h
  obtain ⟨u, c, d, ha, rfl⟩ := answers_of_exec i s t h
  exact ⟨ha.writes_cursor, ha.writes_decErr⟩

/-- Settles O44, by the frame lemma on the encode session. -/
theorem onlyEncoderCommandsWriteEncErr : Obligations.OnlyEncoderCommandsWriteEncErr := by
  intro i s t h
  obtain ⟨u, c, d, ha, rfl⟩ := answers_of_exec i s t h
  exact ha.writes_encErr

/-- Settles O45: what is appended is branches as markers, and a marker is MARK_L or MARK_R. -/
theorem onlyEncSymAppendsToBout : Obligations.OnlyEncSymAppendsToBout := by
  intro i s t h
  obtain ⟨u, c, d, ha, rfl⟩ := answers_of_exec i s t h
  obtain ⟨branches, hbout, hwriter⟩ := ha.appends_bout
  refine ⟨branches.map (markerOf Config.params), hbout, fun b hb => ?_, fun hne => hwriter (by simpa using hne)⟩
  obtain ⟨branch, -, rfl⟩ := List.mem_map.1 hb
  exact markerOf_eq Config.params branch

/-! ## The tree a BUILD leaves, and the state right after reset -/

/-- Settles O22: a BUILD that leaves a tree leaves the one merged over the leaves of FREQ (`Built`). -/
theorem buildMakesAHuffmanTree : Obligations.BuildMakesAHuffmanTree := by
  intro s t h hv
  obtain ⟨-, -, b⟩ := built_of_build s t h hv
  exact b.treeOk

/-- The state right after reset is the one RESET gives, released (R800, R802). -/
theorem InvWith.reset (p : Params) : InvWith p State.reset :=
  HostMove.apply_inv .releaseReset (.afterReset p State.reset fun _ h => absurd h List.not_mem_nil)

/-- Settles O57. -/
theorem resetSatisfiesTheInvariant : Obligations.ResetSatisfiesTheInvariant := ⟨.reset _, .reset⟩

/-! ## What is never observed (R115, R116, R125, R462) -/

/-- A child of an internal node is in the tree. -/
theorem TreeOk.child_le_root {s : State} (h : TreeOk s) {n : Index} {here : Node} (hn : s.innerAt n.toNat)
    (hhere : s.nodeAt n = some here) (branch : Bool) : (here.child branch).toNat ≤ s.root.toNat := by
  obtain ⟨hn1, hn2⟩ := hn
  obtain ⟨i, hi, hnode, -⟩ := h.entry n hn2
  obtain rfl : s.node[i] = here := Option.some.inj (hnode.symm.trans hhere)
  obtain ⟨hlt, -⟩ := h.child i (hi ▸ ⟨hn1, hn2⟩) branch
  omega

/-- IDX of a NODE_RD in range names an entry of the valid region (R470). -/
theorem nodeOperandsInRange_le {s : State} {idx : Index} {arg : Word} (h : nodeOperandsInRange s idx arg = true) :
    idx.toNat ≤ s.root.toNat := by
  simp only [nodeOperandsInRange, Bool.and_eq_true, decide_eq_true_eq] at h
  exact h.1

/-- Two outcomes that turn on the same condition agree if they agree either way. -/
theorem SameOutcome.ite {c : Prop} [Decidable c] {a b a' b' : Result} (h : c → SameOutcome a a')
    (h' : ¬ c → SameOutcome b b') : SameOutcome (if c then a else b) (if c then a' else b') := by
  split
  · exact h ‹_›
  · exact h' ‹_›

/-- An idle core performs the oldest packet offered. -/
theorem stepBy_of_idle (perform : Instr → State → Result) (s : State) (q : Packet) (rest : List Packet)
    (hout : s.resetIn = false) (hrsp : s.rspch = none) (hcmd : s.cmdch = q :: rest) :
    stepBy perform s = packetBy perform q { s with cmdch := rest } := by
  simp only [stepBy, accept_of_idle s q rest hout hrsp hcmd]

namespace SameObservable
variable {p : Params} {s t : State}

/-- The second state is the first with other contents of NODE, LUT and the draw counter. Once it is written so, what does
the same to both and touches neither NODE nor LUT keeps them agreeing by `⟨rfl, ho.node, ho.lut⟩`. -/
theorem exists_eq (ho : SameObservable s t) :
    ∃ node lut draws, t = { s with node := node, lut := lut, draws := draws } := ⟨_, _, _, ho.rest⟩

/-- Inside the valid region the two states read the same node. -/
theorem nodeAt_eq (ho : SameObservable s t) (hv : s.treeValid = true) (ht : TreeOk s) {n : Index}
    (hn : n.toNat ≤ s.root.toNat) : t.nodeAt n = s.nodeAt n := by
  have hr := ht.root_le
  have hlt : n.toNat < 511 := by omega
  rw [Machine.nodeAt_eq t n ⟨n.toNat, hlt⟩ rfl, Machine.nodeAt_eq s n ⟨n.toNat, hlt⟩ rfl, ho.node hv ⟨n.toNat, hlt⟩ hn]

/-- GENLUT's walk stays inside the valid region, so it meets the same leaves. -/
theorem walk_eq (ho : SameObservable s t) (hv : s.treeValid = true) (ht : TreeOk s) (fuel : Nat)
    (n : Index) (path : List Bool) (hn : n.toNat ≤ s.root.toNat) :
    walk t.node fuel n path = walk s.node fuel n path := by
  induction fuel generalizing n path with
  | zero => rfl
  | succ fuel ih =>
    obtain ⟨i, hi, hnode, hkind⟩ := ht.entry n hn
    have hs : s.node[n.toNat]? = some s.node[i] := hnode
    have hget : t.node[n.toNat]? = s.node[n.toNat]? := ho.nodeAt_eq hv ht hn
    rcases hkind with ⟨-, hleaf⟩ | ⟨hin, -⟩
    · simp only [walk, hget, hs, hleaf, if_true]
    · have hchild := ht.child_le_root (hi ▸ hin) hnode
      have hleft := ih s.node[i].left (path ++ [false]) (hchild false)
      have hright := ih s.node[i].right (path ++ [true]) (hchild true)
      simp only [walk, hget, hs, hleft, hright]

/-! ### Commands -/

/-- The decoder's step reads CURSOR's node and a child of it, both in the tree (R130). -/
theorem decodeStep (ho : SameObservable s t) (hs : InvWith p s) (hv : s.treeValid = true) (he : s.decErr = 0#4)
    (branch : Bool) : SameOutcome (decodeStep branch s) (decodeStep branch t) := by
  have ht := hs.tree hv
  have hin := hs.cursor hv he
  obtain ⟨i, -, hhere, -⟩ := ht.entry _ hin.2
  have hcursor := ho.nodeAt_eq hv ht hin.2
  have hchild := ho.nodeAt_eq hv ht (ht.child_le_root hin hhere branch)
  obtain ⟨node, lut, draws, rfl⟩ := ho.exists_eq
  simp only [Machine.decodeStep, hcursor, hhere, hchild]
  split
  · rfl
  · exact .ite (fun _ => ⟨rfl, ho.node, ho.lut⟩) fun _ => ⟨rfl, ho.node, ho.lut⟩

/-- DEC_BIT's checks read neither NODE nor LUT. -/
theorem decBit (ho : SameObservable s t) (hs : InvWith p s) (idx : Index) :
    SameOutcome (decBitWith p idx s) (decBitWith p idx t) := by
  have hstep := ho.decodeStep hs
  obtain ⟨node, lut, draws, rfl⟩ := ho.exists_eq
  refine .ite (fun _ => ⟨rfl, ho.node, ho.lut⟩) fun hv => ?_
  split
  · exact ⟨rfl, ho.node, ho.lut⟩
  · refine .ite (fun _ => ⟨rfl, ho.node, ho.lut⟩) fun he => ?_
    split
    · exact ⟨rfl, ho.node, ho.lut⟩
    · exact hstep (by simpa using hv) (by simpa using he) _

/-- BUILD reads FREQ alone, so it makes the same nodes; what it leaves outside them may differ. -/
theorem build (ho : SameObservable s t) : SameOutcome (execBuild s) (execBuild t) := by
  have b := built_commit s
  have b' := built_commit t
  obtain ⟨node, lut, draws, rfl⟩ := ho.exists_eq
  simp only [execBuild_eq]
  refine .ite (fun _ => ⟨rfl, Bool.noConfusion, Bool.noConfusion⟩) fun hl => ⟨rfl, fun _ i hi => ?_, Bool.noConfusion⟩
  have hfreq : ∃ y : Fin 256, s.freq[y] ≠ 0#32 := by simpa using mt (buildLeaves_eq_nil s).2 hl
  have hlt : i.val < (buildNodes s).length := by
    have hroot : (buildRoot s).toNat = 2 * (buildLeaves s).length - 2 := (b hfreq).rootIs
    have hi : i.val ≤ (buildRoot s).toNat := hi
    have := (b hfreq).length; have := (b hfreq).leavesOk.few
    omega
  exact Option.some.inj (((b' hfreq).holds i hlt).symm.trans ((b hfreq).holds i hlt))

/-- GENLUT writes the same table into both. -/
theorem genlut (ho : SameObservable s t) (hs : InvWith p s) : SameOutcome (execGenlut s) (execGenlut t) := by
  have hwalk := fun hv => ho.walk_eq hv (hs.tree hv) (Config.lenMax + 1) s.root [] (Nat.le_refl _)
  obtain ⟨node, lut, draws, rfl⟩ := ho.exists_eq
  refine .ite (fun _ => ⟨rfl, ho.node, ho.lut⟩) fun hv => ?_
  simp only [hwalk (by simpa using hv)]
  split
  · rfl
  · exact ⟨rfl, ho.node, fun _ => rfl⟩

/-- NODE_RD reads an entry of the valid region. -/
theorem nodeRd (ho : SameObservable s t) (hs : InvWith p s) (idx : Index) (arg : Word) :
    SameOutcome (execNodeRd idx arg s) (execNodeRd idx arg t) := by
  have hnode := fun hv hn => ho.nodeAt_eq hv (hs.tree hv) (n := idx) hn
  obtain ⟨node, lut, draws, rfl⟩ := ho.exists_eq
  refine .ite (fun _ => ⟨rfl, ho.node, ho.lut⟩) fun hv => .ite (fun hr => ?_) fun _ => ⟨rfl, ho.node, ho.lut⟩
  simp only [hnode (by simpa using hv) (nodeOperandsInRange_le hr)]
  split
  · rfl
  · exact ⟨rfl, ho.node, ho.lut⟩

/-- LUT_RD reads LUT only while LUT_VALID = 1. -/
theorem lutRd (ho : SameObservable s t) (idx : Index) (arg : Word) :
    SameOutcome (execLutRd idx arg s) (execLutRd idx arg t) := by
  obtain ⟨node, lut, draws, rfl⟩ := ho.exists_eq
  refine .ite (fun _ => ⟨rfl, ho.node, ho.lut⟩) fun hv => ?_
  obtain rfl : lut = s.lut := ho.lut (by simpa using hv)
  split
  · exact ⟨rfl, ho.node, ho.lut⟩
  · exact .ite (fun _ => ⟨rfl, ho.node, ho.lut⟩) fun _ => ⟨rfl, ho.node, ho.lut⟩

/-- ENC_SYM reads LUT only while LUT_VALID = 1. -/
theorem encSym (ho : SameObservable s t) (idx : Index) : SameOutcome (encSymWith p idx s) (encSymWith p idx t) := by
  obtain ⟨node, lut, draws, rfl⟩ := ho.exists_eq
  refine .ite (fun _ => ⟨rfl, ho.node, ho.lut⟩) fun hv => ?_
  obtain rfl : lut = s.lut := ho.lut (by simpa using hv)
  split
  · exact ⟨rfl, ho.node, ho.lut⟩
  · exact .ite (fun _ => ⟨rfl, ho.node, ho.lut⟩) fun _ =>
      .ite (fun _ => ⟨rfl, ho.node, ho.lut⟩) fun _ => ⟨rfl, ho.node, ho.lut⟩

/-- A command reads only what the two states agree on, and does the same to both. -/
theorem execWith (ho : SameObservable s t) (hs : InvWith p s) (i : Instr) :
    SameOutcome (execWith p i s) (execWith p i t) := by
  cases i with
  | build => exact ho.build
  | genlut => exact ho.genlut hs
  | nodeRd idx arg => exact ho.nodeRd hs idx arg
  | lutRd idx arg => exact ho.lutRd idx arg
  | encSym idx => exact ho.encSym idx
  | decBit idx => exact ho.decBit hs idx
  | nop | freqClr | encStart | decStart | statusRd | reservedE | reservedF =>
    obtain ⟨node, lut, draws, rfl⟩ := ho.exists_eq
    exact ⟨rfl, ho.node, ho.lut⟩
  | freqWr idx arg =>
    obtain ⟨node, lut, draws, rfl⟩ := ho.exists_eq
    simp only [Machine.execWith, freqWrWith]
    split
    · exact ⟨rfl, ho.node, ho.lut⟩
    · exact .ite (fun _ => ⟨rfl, ho.node, ho.lut⟩) fun _ => ⟨rfl, ho.node, ho.lut⟩
  | freqRd idx =>
    obtain ⟨node, lut, draws, rfl⟩ := ho.exists_eq
    simp only [Machine.execWith, exec, execFreqRd]
    split <;> exact ⟨rfl, ho.node, ho.lut⟩
  | decEnd =>
    obtain ⟨node, lut, draws, rfl⟩ := ho.exists_eq
    exact .ite (fun _ => ⟨rfl, ho.node, ho.lut⟩) fun _ => .ite (fun _ => ⟨rfl, ho.node, ho.lut⟩) fun _ =>
      .ite (fun _ => ⟨rfl, ho.node, ho.lut⟩) fun _ => ⟨rfl, ho.node, ho.lut⟩

/-! ### Steps -/

/-- A packet is decoded whatever the state. -/
theorem packetBy (ho : SameObservable s t) (hs : InvWith p s) (q : Packet) :
    SameOutcome (packetBy (Machine.execWith p) q s) (packetBy (Machine.execWith p) q t) := by
  unfold Machine.packetBy
  split
  · exact ho.execWith hs _
  · obtain ⟨node, lut, draws, rfl⟩ := ho.exists_eq
    exact ⟨rfl, ho.node, ho.lut⟩

/-- A move of the host touches neither NODE nor LUT, or, as RESET, clears TREE_VALID and LUT_VALID. -/
theorem apply (ho : SameObservable s t) (m : HostMove) : SameObservable (m.apply s) (m.apply t) := by
  obtain ⟨node, lut, draws, rfl⟩ := ho.exists_eq
  cases m with
  | offer q | takeBytes n | releaseReset => exact ⟨rfl, ho.node, ho.lut⟩
  | assertReset => exact ⟨rfl, Bool.noConfusion, Bool.noConfusion⟩
  | takeResponse =>
    simp only [HostMove.apply, State.takeResponse]
    split <;> exact ⟨rfl, ho.node, ho.lut⟩

/-- The host makes the same move. -/
theorem hostStep (ho : SameObservable s t) : SameOutcome (hostStep s) (hostStep t) := by
  obtain ⟨node, lut, draws, rfl⟩ := ho.exists_eq
  simp only [Machine.hostStep]
  split
  · next m rest _ =>
    refine SameObservable.apply (s := { s with hostMoves := rest }) ?_ m
    exact ⟨rfl, ho.node, ho.lut⟩
  · refine .ite (fun _ => ?_) fun _ => ho
    rfl

/-- The core accepts the same packet, or in neither state one. -/
theorem stepWith (ho : SameObservable s t) (hs : InvWith p s) : SameOutcome (stepWith p s) (stepWith p t) := by
  have hhost := ho.hostStep
  obtain ⟨node, lut, draws, rfl⟩ := ho.exists_eq
  rcases stepBy_cases (Machine.execWith p) s with ⟨q, rest, hout, hrsp, hcmd, he⟩ | ⟨hacc, he⟩
  · have he' := stepBy_of_idle (Machine.execWith p) { s with node := node, lut := lut, draws := draws } q rest hout hrsp hcmd
    simp only [Machine.stepWith, he, he']
    refine packetBy (s := { s with cmdch := rest }) ?_ (hs.accepted hout rest) q
    exact ⟨rfl, ho.node, ho.lut⟩
  · rcases stepBy_cases (Machine.execWith p) { s with node := node, lut := lut, draws := draws } with
      ⟨q, rest, hout, hrsp, hcmd, -⟩ | ⟨-, he'⟩
    · exact absurd ((accept_of_idle s q rest hout hrsp hcmd).symm.trans hacc) (Option.some_ne_none _)
    · simpa only [Machine.stepWith, he, he'] using hhost

end SameObservable

/-- Settles O60: a step of this hardware is `stepWith` at its parameters. -/
theorem unspecifiedContentsAreNeverObserved : Obligations.UnspecifiedContentsAreNeverObserved := by
  intro s t hs ho
  rw [← stepWith_params, ← stepWith_params]
  exact ho.stepWith hs

end Sys2Proof.Machine

/-! PROOFS of the statements of memory: what repeating a command changes (O51), decoding one code word (O53), and that every
command, every step and every program's run completes (O59). -/

namespace Sys2Proof

/-! ## Decoding the packet of a command (R305, R315) -/

theorem decode_cmdI (op : BitVec 4) (idx : Index) (arg : Word) (hn : formatN op = false) :
    decode ⟨cmdI op idx, arg⟩ = .ok (instrOf op (lowField (cmdI op idx)) idx arg) := by
  rw [decode_eq_ok, opField_cmdI, rsvField_cmdI, idxField_cmdI, hn]
  exact ⟨rfl, .inr ⟨rfl, Bool.noConfusion⟩⟩

theorem decode_reserved (op : BitVec 4) (low : BitVec 28) (arg : Word) (hr : reservedOp op = true) :
    decode ⟨op ++ low, arg⟩ = .ok (instrOf op low (idxField (op ++ low)) arg) := by
  rw [decode_eq_ok, opField_low, lowField_low]
  exact ⟨rfl, .inl hr⟩

/-- The packet of a command decodes to the command. -/
theorem decode_encode (i : Instr) : decode (encode i) = .ok i := by
  cases i with
  | nop | freqClr | build | genlut | encStart | decStart | decEnd | statusRd => decide
  | freqWr idx arg => exact decode_cmdI 0x2#4 idx arg rfl
  | freqRd idx => exact decode_cmdI 0x3#4 idx 0#32 rfl
  | nodeRd idx arg => exact decode_cmdI 0x6#4 idx arg rfl
  | lutRd idx arg => exact decode_cmdI 0x7#4 idx arg rfl
  | encSym idx => exact decode_cmdI 0x9#4 idx 0#32 rfl
  | decBit idx => exact decode_cmdI 0xB#4 idx 0#32 rfl
  | reservedE low => exact decode_reserved 0xE#4 low 0#32 rfl
  | reservedF low => exact decode_reserved 0xF#4 low 0#32 rfl

end Sys2Proof

namespace Sys2Proof.Machine

/-! ## A command does not look at the channels (R160 to R164) -/

/-- The state with other packets offered, another response waiting and other moves of the host to come. -/
def State.onChannels (s : State) (cmdch : List Packet) (rspch : Option Response) (hostMoves : List HostMove) : State :=
  { s with cmdch := cmdch, rspch := rspch, hostMoves := hostMoves }

/-- Whatever is offered, waits or comes next, a command completes the same way, and leaves the channels as they are. -/
theorem AnswersWith.onChannels {p : Params} {i : Instr} {s u : State} {c : Code} {d : Word} (h : AnswersWith p i s u c d)
    (cmdch : List Packet) (rspch : Option Response) (hostMoves : List HostMove) :
    AnswersWith p i (s.onChannels cmdch rspch hostMoves) (u.onChannels cmdch rspch hostMoves) c d :=
  match h with
  | .nop _ => .nop _
  | .statusRd _ => .statusRd _
  | .reservedE _ low => .reservedE _ low
  | .reservedF _ low => .reservedF _ low
  | .freqClr _ => .freqClr _
  | .freqWr _ idx arg y hy hc => .freqWr _ idx arg y hy hc
  | .freqWrRange _ idx arg hr => .freqWrRange _ idx arg hr
  | .freqRd _ idx y hy => .freqRd _ idx y hy
  | .freqRdRange _ idx hy => .freqRdRange _ idx hy
  | .buildEmpty _ hl => .buildEmpty _ hl
  | .build _ hl => .build _ hl
  | .genlutNotReady _ hv => .genlutNotReady _ hv
  | .genlut _ leaves hv hw => .genlut _ leaves hv hw
  | .nodeRdNotReady _ idx arg hv => .nodeRdNotReady _ idx arg hv
  | .nodeRdRange _ idx arg hv hr => .nodeRdRange _ idx arg hv hr
  | .nodeRd _ idx arg nd hv hr hn => .nodeRd _ idx arg nd hv hr hn
  | .lutRdNotReady _ idx arg hv => .lutRdNotReady _ idx arg hv
  | .lutRdRange _ idx arg hv hr => .lutRdRange _ idx arg hv hr
  | .lutRd _ idx arg y hv hy ha => .lutRd _ idx arg y hv hy ha
  | .encStart _ => .encStart _
  | .encSymNotReady _ idx hv => .encSymNotReady _ idx hv
  | .encSymRange _ idx hv hy => .encSymRange _ idx hv hy
  | .encSymSticky _ idx y hv hy he => .encSymSticky _ idx y hv hy he
  | .encSymUnknown _ idx y hv hy he hlen => .encSymUnknown _ idx y hv hy he hlen
  | .encSym _ idx y hv hy he hlen => .encSym _ idx y hv hy he hlen
  | .decStart _ => .decStart _
  | .decBitNotReady _ idx hv => .decBitNotReady _ idx hv
  | .decBitRange _ idx hv hb => .decBitRange _ idx hv hb
  | .decBitSticky _ idx b hv hb he => .decBitSticky _ idx b hv hb he
  | .decBitInvalid _ idx b hv hb he hbr => .decBitInvalid _ idx b hv hb he hbr
  | .decBitLeaf _ idx b branch here nxt hv hb he hbr hh hn hl => .decBitLeaf _ idx b branch here nxt hv hb he hbr hh hn hl
  | .decBitInner _ idx b branch here nxt hv hb he hbr hh hn hl => .decBitInner _ idx b branch here nxt hv hb he hbr hh hn hl
  | .decEndNotReady _ hv => .decEndNotReady _ hv
  | .decEndSticky _ hv he => .decEndSticky _ hv he
  | .decEndTruncated _ hv he hc => .decEndTruncated _ hv he hc
  | .decEnd _ hv he hc => .decEnd _ hv he hc

/-! ## Commands performed twice (R213) -/

section Repeated
variable {p : Params} {i : Instr} {s u : State} {c : Code} {d : Word}

/-- The reading commands write nothing before they answer. -/
theorem AnswersWith.reader_leaves (h : AnswersWith p i s u c d)
    (hi : i = .nop ∨ i = .statusRd ∨ (∃ idx, i = .freqRd idx) ∨ (∃ idx arg, i = .nodeRd idx arg) ∨
      ∃ idx arg, i = .lutRd idx arg) : u = s := by
  rcases hi with rfl | rfl | ⟨idx, rfl⟩ | ⟨idx, arg, rfl⟩ | ⟨idx, arg, rfl⟩ <;> cases h <;> rfl

/-- An idempotent writer finds what it would write already there. -/
theorem AnswersWith.writer_again (h : AnswersWith p i s u c d)
    (hi : i = .freqClr ∨ (∃ idx arg, i = .freqWr idx arg) ∨ i = .encStart ∨ i = .decStart ∨ i = .genlut) :
    AnswersWith p i u u c d := by
  rcases hi with rfl | ⟨idx, arg, rfl⟩ | rfl | rfl | rfl <;> cases h
  case freqClr => exact .freqClr s.clearFreq
  case freqWrRange hr => exact .freqWrRange s idx arg hr
  case freqWr y hc hy =>
    have again : (s.setFreq y arg).setFreq y arg = s.setFreq y arg := by simp [State.setFreq]
    simpa only [again] using AnswersWith.freqWr (p := p) (s.setFreq y arg) idx arg y hc hy
  case encStart => exact .encStart (s.setEncErr 0#4)
  case decStart => exact .decStart ((s.setCursor s.root).setDecErr 0#4)
  case genlutNotReady hv => exact .genlutNotReady s hv
  case genlut leaves hv hw => exact .genlut (s.commitLut (tableOf leaves)) leaves hv hw

end Repeated

/-- A command that would write what is there already answers the same again, its own response still waiting. -/
theorem exec_respond_again {i : Instr} {u : State} {c : Code} {d : Word} (h : Answers i u u c d) :
    exec i (u.respond c d) = .next (u.respond c d) :=
  exec_of_answers i (u.respond c d) (u.respond c d) c d (h.onChannels u.cmdch (some ⟨c, d⟩) u.hostMoves)

/-- Settles O51: a reading command writes nothing, an idempotent writer writes what is there, and neither looks at the
response that waits. -/
theorem repeatingTheseCommandsChangesNothing : Obligations.RepeatingTheseCommandsChangesNothing := by
  intro i s t h
  obtain ⟨u, c, d, ha, rfl⟩ := answers_of_exec i s t h
  refine ⟨fun hi => ?_, fun hi => exec_respond_again (ha.writer_again hi)⟩
  obtain rfl := ha.reader_leaves hi
  exact ⟨rfl, exec_respond_again ha⟩

/-! ## Decoding along a path (R611) -/

section Decoding
variable {s : State}

/-- The state with CURSOR at `n` and some more responses taken: what DEC_BITs that answer OK leave. -/
def State.decodedTo (s : State) (n : Index) (taken : List Response) : State :=
  { s with cursor := n, rspTaken := s.rspTaken ++ taken }

@[simp] theorem State.decodedTo_decodedTo (s : State) (m n : Index) (rs rs' : List Response) :
    (s.decodedTo m rs).decodedTo n rs' = s.decodedTo n (rs ++ rs') := by
  simp [State.decodedTo]

@[simp] theorem State.decodedTo_cursor (s : State) : s.decodedTo s.cursor [] = s := by
  simp [State.decodedTo]

/-- Taking the response of a DEC_BIT that moved CURSOR, on a block where no other response waits. -/
theorem took_setCursor (s : State) (hrsp : s.rspch = none) (n : Index) (c : Code) (d : Word) :
    took (s.setCursor n) c d = s.decodedTo n [⟨c, d⟩] := by
  simp only [took, State.setCursor, State.decodedTo, hrsp]

/-- The DEC_BIT of a branch's marker goes to the child on that branch; at a leaf it emits the symbol and returns to ROOT. -/
theorem run_decBit (b : Bool) {here nxt : Node} (hready : s.ready = true) (hv : s.treeValid = true) (he : s.decErr = 0#4)
    (hhere : s.nodeAt s.cursor = some here) (hnxt : s.nodeAt (here.child b) = some nxt) :
    (nxt.leaf = false → runCommands (decodeCommands [b]) s =
      some ([⟨0#4, 0#32⟩], s.decodedTo (here.child b) [⟨0#4, 0#32⟩])) ∧
    (nxt.leaf = true → runCommands (decodeCommands [b]) s =
      some ([⟨0#4, emitData nxt.sym⟩], s.decodedTo s.root [⟨0#4, emitData nxt.sym⟩])) := by
  obtain ⟨-, hrsp, -⟩ := s.ready_iff.1 hready
  have hmark := markerByte_setWidth (markerOf Config.params b)
  have hbranch := branchOf_markerOf Config.params rfl b
  constructor <;> intro hleaf <;> rw [← took_setCursor s hrsp]
  · exact run_one _ _ _ _ _ hready (.decBitInner s _ _ b here nxt hv hmark he hbranch hhere hnxt hleaf)
  · exact run_one _ _ _ _ _ hready (.decBitLeaf s _ _ b here nxt hv hmark he hbranch hhere hnxt hleaf)

/-- The last branch of a path is taken at an internal node. -/
theorem descend_concat {n m : Index} {path : List Bool} {b : Bool} (h : s.descend n (path ++ [b]) = some m) :
    ∃ k here, s.descend n path = some k ∧ s.nodeAt k = some here ∧ here.leaf = false ∧ here.child b = m := by
  rw [descend_append] at h
  obtain ⟨k, hk, hstep⟩ := Option.bind_eq_some_iff.1 h
  obtain ⟨here, hhere, hinner, hchild⟩ := (descend_single s k m b).1 hstep
  exact ⟨k, here, hk, hhere, hinner, hchild⟩

theorem decodeCommands_append (path path' : List Bool) :
    decodeCommands (path ++ path') = decodeCommands path ++ decodeCommands path' := List.map_append

/-- The markers of a path to an internal node: every DEC_BIT answers OK and emits nothing, and CURSOR stands there. -/
theorem run_decode_inner (path : List Bool) {n : Index} {nd : Node} (hready : s.ready = true) (hv : s.treeValid = true)
    (he : s.decErr = 0#4) (hpath : s.descend s.cursor path = some n) (hn : s.nodeAt n = some nd) (hleaf : nd.leaf = false) :
    runCommands (decodeCommands path) s =
      some (List.replicate path.length ⟨0#4, 0#32⟩, s.decodedTo n (List.replicate path.length ⟨0#4, 0#32⟩)) := by
  induction path using List.reverseRecOn generalizing n nd with
  | nil =>
    obtain rfl : s.cursor = n := Option.some.inj hpath
    exact congrArg (fun u => some ([], u)) s.decodedTo_cursor.symm
  | append_singleton path b ih =>
    obtain ⟨m, here, hm, hhere, hinner, rfl⟩ := descend_concat hpath
    have hlast := (run_decBit (s := s.decodedTo m (List.replicate path.length ⟨0#4, 0#32⟩)) b hready hv he hhere hn).1 hleaf
    have hrun := run_append _ _ _ _ _ _ _ (ih hm hhere hinner) hlast
    rw [List.length_append, List.length_singleton]
    rwa [← decodeCommands_append, State.decodedTo_decodedTo, ← List.replicate_succ'] at hrun

/-- The markers of a path to a leaf: every DEC_BIT answers OK, the last one emits the leaf's symbol, and CURSOR is back at
ROOT. -/
theorem run_decode_leaf (path : List Bool) {n : Index} {nd : Node} (hready : s.ready = true) (hv : s.treeValid = true)
    (he : s.decErr = 0#4) (hne : path ≠ []) (hpath : s.descend s.cursor path = some n) (hn : s.nodeAt n = some nd)
    (hleaf : nd.leaf = true) :
    ∃ rs, rs = List.replicate (path.length - 1) ⟨0#4, 0#32⟩ ++ [⟨0#4, emitData nd.sym⟩] ∧
      runCommands (decodeCommands path) s = some (rs, s.decodedTo s.root rs) := by
  obtain ⟨init, b, rfl⟩ := (List.eq_nil_or_concat' path).resolve_left hne
  obtain ⟨m, here, hm, hhere, hinner, rfl⟩ := descend_concat hpath
  have hinit := run_decode_inner init hready hv he hm hhere hinner
  have hlast := (run_decBit (s := s.decodedTo m (List.replicate init.length ⟨0#4, 0#32⟩)) b hready hv he hhere hn).2 hleaf
  have hrun := run_append _ _ _ _ _ _ _ hinit hlast
  refine ⟨_, rfl, ?_⟩
  rw [decodeCommands_append, List.length_append, List.length_singleton, Nat.add_sub_cancel, hrun, State.decodedTo_decodedTo]
  rfl

/-- An entry with LEN ≠ 0 is the path to the leaf of its symbol (R126). -/
theorem LutOk.entry_of_len (h : LutOk s) (y : Fin 257) (hy : s.lut[y].len ≠ 0#8) :
    ∃ (i : Fin 511) (code : List Bool), i.val < s.leafCount.toNat ∧ s.node[i].sym.toNat = y.val ∧
      1 ≤ code.length ∧ code.length ≤ 255 ∧ s.descend s.root code = some (BitVec.ofNat 9 i.val) ∧
      s.lut[y] = entryOf code := by
  by_cases hsym : ∃ i : Fin 511, i.val < s.leafCount.toNat ∧ s.node[i].sym.toNat = y.val
  · obtain ⟨i, hi, hiy⟩ := hsym
    obtain ⟨code, h1, h2, hd, hlut⟩ := h.present i hi
    rw [hiy, Vector.getElem?_eq_getElem y.isLt] at hlut
    exact ⟨i, code, hi, hiy, h1, h2, hd, Option.some.inj hlut⟩
  · have habsent := h.absent y fun i hi he => hsym ⟨i, hi, he⟩
    exact absurd (congrArg LutEntry.len habsent) hy

/-- The result word that emits a symbol, as a number: EMIT is bit 9 (R611). -/
theorem emitData_toNat (sym : Index) : (emitData sym).toNat = 2 ^ 9 + sym.toNat := by
  have h : (0#22 ++ 1#1 ++ sym).toNat = 2 ^ 9 + sym.toNat := by
    rw [append_toNat, append_toNat, BitVec.toNat_ofNat, BitVec.toNat_ofNat]
    omega
  exact h

end Decoding

/-- Settles O53: the entry is the path from ROOT to its symbol's leaf, and the markers of a path to a leaf emit the leaf's
symbol. -/
theorem decodingACodeWordEmitsItsSymbol : Obligations.DecodingACodeWordEmitsItsSymbol := by
  intro s y hs hready hlut he hcursor hlen
  have hv := hs.lutNeedsTree hlut
  have hcount := (hs.tree hv).count
  obtain ⟨i, code, hi, hsym, h1, h255, hpath, hentry⟩ := (hs.lut hlut).entry_of_len y hlen
  have hnode := nodeAt_eq s (BitVec.ofNat 9 i.val) i (by rw [BitVec.toNat_ofNat]; omega)
  obtain ⟨hleaf, -⟩ := (hs.tree hv).leaves i hi
  obtain ⟨rs, hrs, hrun⟩ :=
    run_decode_leaf code hready hv he (List.length_pos_iff.1 h1) (hcursor ▸ hpath) hnode hleaf
  have hdata : emitData s.node[i].sym = BitVec.ofNat 32 (2 ^ 9 + y.val) :=
    BitVec.eq_of_toNat_eq (by rw [emitData_toNat, hsym, BitVec.toNat_ofNat]; omega)
  refine ⟨rs, _, by rw [hentry, entryOf_code code h255, hrun], ?_, ?_⟩
  · rw [hrs, hentry, entryOf_len code h255, hdata]
  · rw [State.decodedTo, ← hcursor]

/-! ## Every command completes (R212) -/

section Completes
variable {p : Params} {s : State}

/-- GENLUT's walk of a valid tree ends, and meets entries only. -/
theorem InvWith.genlut_completes (h : InvWith p s) : ∃ u c d, AnswersWith p .genlut s u c d := by
  cases hv : s.treeValid with
  | false => exact ⟨_, _, _, .genlutNotReady s hv⟩
  | true =>
    obtain ⟨found, hwalk, -⟩ := (h.tree hv).genlut
    exact ⟨_, _, _, .genlut s found hv hwalk⟩

/-- NODE_RD reads entries up to ROOT, and NODE has those. -/
theorem InvWith.nodeRd_completes (h : InvWith p s) (idx : Index) (arg : Word) :
    ∃ u c d, AnswersWith p (.nodeRd idx arg) s u c d := by
  cases hv : s.treeValid with
  | false => exact ⟨_, _, _, .nodeRdNotReady s idx arg hv⟩
  | true =>
    cases hr : nodeOperandsInRange s idx arg with
    | false => exact ⟨_, _, _, .nodeRdRange s idx arg hv hr⟩
    | true =>
      obtain ⟨_, -, hnode, -⟩ := (h.tree hv).entry idx (nodeOperandsInRange_le hr)
      exact ⟨_, _, _, .nodeRd s idx arg _ hv hr hnode⟩

/-- DEC_BIT stands at an internal node (R130), whose children are entries of the tree. -/
theorem InvWith.decBit_completes (h : InvWith p s) (idx : Index) : ∃ u c d, AnswersWith p (.decBit idx) s u c d := by
  cases hv : s.treeValid with
  | false => exact ⟨_, _, _, .decBitNotReady s idx hv⟩
  | true =>
    cases hb : markerByte idx with
    | none => exact ⟨_, _, _, .decBitRange s idx hv hb⟩
    | some b =>
      by_cases he : s.decErr = 0#4
      · cases hbranch : branchOf p b with
        | none => exact ⟨_, _, _, .decBitInvalid s idx b hv hb he hbranch⟩
        | some branch =>
          have hin := h.cursor hv he
          obtain ⟨_, -, hhere, -⟩ := (h.tree hv).entry s.cursor hin.2
          obtain ⟨i, -, hnxt, -⟩ := (h.tree hv).entry _ ((h.tree hv).child_le_root hin hhere branch)
          cases hleaf : s.node[i].leaf with
          | true => exact ⟨_, _, _, .decBitLeaf s idx b branch _ _ hv hb he hbranch hhere hnxt hleaf⟩
          | false => exact ⟨_, _, _, .decBitInner s idx b branch _ _ hv hb he hbranch hhere hnxt hleaf⟩
      · exact ⟨_, _, _, .decBitSticky s idx b hv hb he⟩

theorem decEnd_completes (p : Params) (s : State) : ∃ u c d, AnswersWith p .decEnd s u c d := by
  cases hv : s.treeValid with
  | false => exact ⟨_, _, _, .decEndNotReady s hv⟩
  | true =>
    by_cases he : s.decErr = 0#4
    · by_cases hc : s.cursor = s.root
      · exact ⟨_, _, _, .decEnd s hv he hc⟩
      · exact ⟨_, _, _, .decEndTruncated s hv he hc⟩
    · exact ⟨_, _, _, .decEndSticky s hv he⟩

theorem encSym_completes (p : Params) (s : State) (idx : Index) : ∃ u c d, AnswersWith p (.encSym idx) s u c d := by
  cases hv : s.lutValid with
  | false => exact ⟨_, _, _, .encSymNotReady s idx hv⟩
  | true =>
    cases hy : dataSymbol idx with
    | none => exact ⟨_, _, _, .encSymRange s idx hv hy⟩
    | some y =>
      by_cases he : s.encErr = 0#4
      · by_cases hlen : (s.entryOfSymbol y).len = 0#8
        · exact ⟨_, _, _, .encSymUnknown s idx y hv hy he hlen⟩
        · exact ⟨_, _, _, .encSym s idx y hv hy he hlen⟩
      · exact ⟨_, _, _, .encSymSticky s idx y hv hy he⟩

theorem lutRd_completes (p : Params) (s : State) (idx : Index) (arg : Word) :
    ∃ u c d, AnswersWith p (.lutRd idx arg) s u c d := by
  cases hv : s.lutValid with
  | false => exact ⟨_, _, _, .lutRdNotReady s idx arg hv⟩
  | true =>
    cases hy : lutSymbol idx with
    | none => exact ⟨_, _, _, .lutRdRange s idx arg hv (.inl hy)⟩
    | some y =>
      rcases Nat.lt_or_ge 8 arg.toNat with ha | ha
      · exact ⟨_, _, _, .lutRdRange s idx arg hv (.inr ha)⟩
      · exact ⟨_, _, _, .lutRd s idx arg y hv hy ha⟩

theorem freqWr_completes (p : Params) (s : State) (idx : Index) (arg : Word) :
    ∃ u c d, AnswersWith p (.freqWr idx arg) s u c d := by
  cases hy : dataSymbol idx with
  | none => exact ⟨_, _, _, .freqWrRange s idx arg (.inl hy)⟩
  | some y =>
    cases hc : countFits p arg with
    | false => exact ⟨_, _, _, .freqWrRange s idx arg (.inr hc)⟩
    | true => exact ⟨_, _, _, .freqWr s idx arg y hy hc⟩

/-- In a state with the invariant every command answers: GENLUT, NODE_RD and DEC_BIT need it, the others do so anywhere. -/
theorem InvWith.completes (h : InvWith p s) (i : Instr) : ∃ u c d, AnswersWith p i s u c d := by
  cases i with
  | nop => exact ⟨_, _, _, .nop s⟩
  | freqClr => exact ⟨_, _, _, .freqClr s⟩
  | freqWr idx arg => exact freqWr_completes p s idx arg
  | freqRd idx =>
    cases hy : dataSymbol idx with
    | none => exact ⟨_, _, _, .freqRdRange s idx hy⟩
    | some y => exact ⟨_, _, _, .freqRd s idx y hy⟩
  | build =>
    by_cases hl : buildLeaves s = []
    · exact ⟨_, _, _, .buildEmpty s hl⟩
    · exact ⟨_, _, _, .build s hl⟩
  | genlut => exact h.genlut_completes
  | nodeRd idx arg => exact h.nodeRd_completes idx arg
  | lutRd idx arg => exact lutRd_completes p s idx arg
  | encStart => exact ⟨_, _, _, .encStart s⟩
  | encSym idx => exact encSym_completes p s idx
  | decStart => exact ⟨_, _, _, .decStart s⟩
  | decBit idx => exact h.decBit_completes idx
  | decEnd => exact decEnd_completes p s
  | statusRd => exact ⟨_, _, _, .statusRd s⟩
  | reservedE low => exact ⟨_, _, _, .reservedE s low⟩
  | reservedF low => exact ⟨_, _, _, .reservedF s low⟩

end Completes

/-! ## Packets and the commands they act as (R305) -/

/-- A packet acts as a command wherever it is performed: an illegal one as a reserved opcode. -/
theorem execPacket_acts_as (q : Packet) : ∃ i, execPacket q = exec i := by
  cases hd : decode q with
  | ok i => exact ⟨i, funext fun s => by simp only [execPacket, packetBy, hd]⟩
  | error e => exact ⟨.reservedE 0#28, funext fun s => by simp only [execPacket, packetBy, hd]; rfl⟩

theorem execPacket_encode (i : Instr) (s : State) : execPacket (encode i) s = exec i s := by
  simp only [execPacket, packetBy, decode_encode]

/-- The run of a list is the run of what its elements stand for. -/
theorem runBy_map {α β : Type} (perform : β → State → Result) (f : α → β) (as : List α) (s : State) :
    runBy perform (as.map f) s = runBy (fun a => perform (f a)) as s := by
  induction as generalizing s with
  | nil => rfl
  | cons a as ih => simp only [List.map_cons, runBy, ih]

/-- A program assembled from commands runs as the commands do. -/
theorem runPackets_encode (commands : List Instr) (s : State) :
    runPackets (commands.map encode) s = runCommands commands s := by
  rw [runPackets, runBy_map]
  exact congrArg (fun perform => runBy perform commands s) (funext fun i => funext (execPacket_encode i))

/-! ## When a step stops (R823) -/

theorem hostStep_completes (s : State) : (∃ t, hostStep s = .next t) ∨ (s.rspch.isSome = true ∧ s.hostMoves = []) := by
  cases hm : s.hostMoves with
  | cons m rest => exact .inl ⟨m.apply { s with hostMoves := rest }, by simp only [hostStep, hm]⟩
  | nil =>
    cases hr : s.rspch.isSome with
    | true => exact .inr ⟨rfl, rfl⟩
    | false => exact .inl ⟨s, by simp [hostStep, hm, hr]⟩

/-- A step performs a packet, which completes, or makes the host's move, if the host has one or no response waits. -/
theorem InvWith.step_completes {s : State} (h : Inv s) :
    (∃ t, step s = .next t) ∨ (s.rspch.isSome = true ∧ s.hostMoves = []) := by
  rcases stepBy_cases exec s with ⟨q, rest, hout, -, -, hstep⟩ | ⟨-, hstep⟩
  · obtain ⟨i, hi⟩ := execPacket_acts_as q
    obtain ⟨u, c, d, ha⟩ := (h.accepted hout rest).completes i
    exact .inl ⟨_, hstep.trans ((congrFun hi _).trans (exec_of_answers _ _ _ _ _ ha))⟩
  · exact (hostStep_completes s).imp_left fun ⟨t, ht⟩ => ⟨t, hstep.trans ht⟩

/-! ## A program's run and the machine's steps (R743) -/

/-- A step that goes on, then the rest. -/
theorem run_succ_of_step (M : Host.Core) {s t : M.State} (k : Nat) (h : M.step s = .next t) : M.run (k + 1) s = M.run k t := by
  simp only [Host.Core.run, h]

/-- On a block that is ready, the first step performs the packet and the second has the host take the response. -/
theorem core_run_packet {q : Packet} {i : Instr} {s u : State} {c : Code} {d : Word} (hi : execPacket q = exec i)
    (ha : Answers i s u c d) (hout : s.resetIn = false) (rest : List Packet) (moves : List HostMove) (k : Nat) :
    Sys2Proof.core.run (k + 2) (s.onChannels (q :: rest) none (.takeResponse :: moves)) =
      Sys2Proof.core.run k ((took u c d).onChannels rest none moves) := by
  have hperform : step (s.onChannels (q :: rest) none (.takeResponse :: moves)) =
      .next (u.onChannels rest (some ⟨c, d⟩) (.takeResponse :: moves)) :=
    calc step (s.onChannels (q :: rest) none (.takeResponse :: moves))
      _ = execPacket q (s.onChannels rest none (.takeResponse :: moves)) := stepBy_of_idle exec _ q rest hout rfl rfl
      _ = exec i (s.onChannels rest none (.takeResponse :: moves)) := congrFun hi _
      _ = .next (u.onChannels rest (some ⟨c, d⟩) (.takeResponse :: moves)) :=
        exec_of_answers i _ _ c d (ha.onChannels rest none (.takeResponse :: moves))
  have htake : step (u.onChannels rest (some ⟨c, d⟩) (.takeResponse :: moves)) =
      .next ((took u c d).onChannels rest none moves) := by
    rcases stepBy_cases exec (u.onChannels rest (some ⟨c, d⟩) (.takeResponse :: moves)) with
      ⟨_, _, _, hrsp, _⟩ | ⟨-, hstep⟩
    · cases hrsp
    · exact hstep
  exact (run_succ_of_step Sys2Proof.core (k + 1) hperform).trans (run_succ_of_step Sys2Proof.core k htake)

/-- What the run of a program from `s` is: it ends on a ready block, with one response a packet, all of them taken, and with
bytes appended to BOUT; and two steps of the machine a packet do the same, the host taking each response. -/
structure RunEnds (program : List Packet) (s : State) (rs : List Response) (t : State) : Prop where
  run : runPackets program s = some (rs, t)
  ready : t.ready = true
  count : rs.length = program.length
  taken : t.rspTaken = s.rspTaken ++ rs
  appends : ∃ bytes, t.bout = s.bout ++ bytes
  steps : Sys2Proof.core.run (2 * program.length)
    (s.onChannels program none (List.replicate program.length .takeResponse)) = .next (t.onChannels [] none [])

/-- Every program's run ends: each packet answers, and taking its response leaves a ready block with the invariant. -/
theorem InvWith.run_ends {s : State} (h : Inv s) (hready : s.ready = true) (program : List Packet) :
    ∃ rs t, RunEnds program s rs t := by
  induction program generalizing s with
  | nil => exact ⟨[], s, rfl, hready, rfl, (List.append_nil _).symm, ⟨[], (List.append_nil _).symm⟩, rfl⟩
  | cons q program ih =>
    obtain ⟨hout, -, -⟩ := s.ready_iff.1 hready
    obtain ⟨i, hi⟩ := execPacket_acts_as q
    obtain ⟨u, c, d, ha⟩ := h.completes i
    have hexec : execPacket q s = .next (u.respond c d) := (congrFun hi s).trans (exec_of_answers i s u c d ha)
    obtain ⟨-, -, htaken, -, hreset, -⟩ := ha.channels
    obtain ⟨branches, hbout, -⟩ := ha.appends_bout
    have hinv : Inv (took u c d) := ((ha.inv h hout).respond (hreset.trans hout) (ha.legal h)).takeResponse
    obtain ⟨rs, t, hrest⟩ := ih hinv (ha.ready hready)
    obtain ⟨bytes, hbytes⟩ := hrest.appends
    refine ⟨⟨c, d⟩ :: rs, t, ?_, hrest.ready, ?_, ?_, ⟨branches.map (markerOf Config.params) ++ bytes, ?_⟩, ?_⟩
    · exact runBy_cons q program s u t c d rs hready hexec hrest.run
    · rw [List.length_cons, List.length_cons, hrest.count]
    · rw [hrest.taken, took, htaken, List.append_assoc, List.singleton_append]
    · rw [hbytes, took, hbout, List.append_assoc]
    · exact (core_run_packet hi ha hout program _ _).trans hrest.steps

/-- On a ready block only the packets and the host's moves are new when a program is offered. -/
theorem onChannels_of_ready {s : State} (hready : s.ready = true) (cmdch : List Packet) (hostMoves : List HostMove) :
    s.onChannels cmdch none hostMoves = { s with cmdch := cmdch, hostMoves := hostMoves } := by
  obtain ⟨-, hrsp, -⟩ := s.ready_iff.1 hready
  rw [State.onChannels, ← hrsp]

/-- Settles O59: commands complete by the invariant, so a step stops only where the host does; a run is one command after
another, and each is two steps of the machine. -/
theorem everyCommandCompletes : Obligations.EveryCommandCompletes := by
  refine ⟨fun s h => ⟨fun i => ?_, h.step_completes, fun hready program => ?_⟩, fun s q rest hbusy => ?_,
    fun s commands => runPackets_encode commands s⟩
  · obtain ⟨u, c, d, ha⟩ := h.completes i
    exact ⟨_, exec_of_answers i s u c d ha⟩
  · obtain ⟨rs, t, hends⟩ := h.run_ends hready program
    obtain ⟨bytes, hbytes⟩ := hends.appends
    obtain ⟨-, -, hcmd⟩ := t.ready_iff.1 hends.ready
    refine ⟨⟨rs, t.bout.drop s.bout.length, t⟩, by simp only [runProgram, hends.run], hends.count, hends.taken, ?_, ?_⟩
    · rw [hbytes, List.drop_left]
    · rw [← onChannels_of_ready hready, hends.steps, onChannels_of_ready hends.ready, ← hcmd]
  · simp only [runProgram, runPackets, runBy_not_ready q rest s hbusy]

end Sys2Proof.Machine

/-! PROOFS of the statements of encoding: decoding against encoding and against the opcode map (O1 to O6), what an illegal
packet does (O8), and what a command that answers an error changes (O48). -/

namespace Sys2Proof

/-! ## The row an opcode selects (R303, R304, R315) -/

section Rows
variable (op : BitVec 4) (low : BitVec 28) (idx : Index) (arg : Word)

/-- The command an opcode selects is of that opcode's row. -/
theorem op_instrOf : (instrOf op low idx arg).op = op := by
  obtain ⟨n⟩ := op
  fin_cases n <;> rfl

/-- The CMD word of the command an opcode selects: CMD[27:0], nothing or IDX below OP, by the opcode's format (R304). -/
theorem encode_instrOf_cmd :
    (encode (instrOf op low idx arg)).cmd =
      if reservedOp op then op ++ low else if formatN op then cmdN op else cmdI op idx := by
  obtain ⟨n⟩ := op
  fin_cases n <;> rfl

/-- The ARG word of the command an opcode selects, 0 where the command ignores it. -/
theorem encode_instrOf_arg :
    (encode (instrOf op low idx arg)).arg = if (instrOf op low idx arg).readsArg then arg else 0#32 := by
  obtain ⟨n⟩ := op
  fin_cases n <;> rfl

/-- The command an opcode selects takes nothing from an ARG it ignores (R303). -/
theorem instrOf_of_ignored_arg (h : (instrOf op low idx arg).readsArg = false) (arg' : Word) :
    instrOf op low idx arg' = instrOf op low idx arg := by
  obtain ⟨n⟩ := op
  -- `cases h` closes the rows that read ARG.
  fin_cases n <;> cases h <;> rfl

/-- A command is selected by the opcode of its own row only. -/
theorem instrOf_eq_iff (i : Instr) : instrOf op low idx arg = i ↔ op = i.op ∧ instrOf i.op low idx arg = i := by
  constructor
  · rintro rfl
    rw [op_instrOf]
    exact ⟨rfl, rfl⟩
  · rintro ⟨rfl, h⟩
    exact h

end Rows

/-! ## A CMD word is made of its fields (R301) -/

theorem opField_append_lowField (cmd : Word) : opField cmd ++ lowField cmd = cmd := by
  apply BitVec.eq_of_toNat_eq
  rw [append_toNat, opField_toNat, lowField_toNat]
  omega

theorem cmdI_of_fields (cmd : Word) (hrsv : rsvField cmd = 0#19) : cmdI (opField cmd) (idxField cmd) = cmd := by
  have h := congrArg BitVec.toNat hrsv
  rw [rsvField_toNat, BitVec.toNat_ofNat, Nat.zero_mod] at h
  apply BitVec.eq_of_toNat_eq
  rw [cmdI_toNat, opField_toNat, idxField_toNat]
  omega

theorem cmdN_of_fields (cmd : Word) (hrsv : rsvField cmd = 0#19) (hidx : idxField cmd = 0#9) :
    cmdN (opField cmd) = cmd := by
  have h : cmdI (opField cmd) 0#9 = cmd := hidx ▸ cmdI_of_fields cmd hrsv
  refine (BitVec.eq_of_toNat_eq ?_).trans h
  rw [cmdN_toNat, cmdI_toNat, BitVec.toNat_ofNat, Nat.zero_mod, Nat.add_zero]

/-- Settles O1, by the model's decoder on each command's packet. -/
theorem decodeOfEncodeIsIdentity : Obligations.DecodeOfEncodeIsIdentity := decode_encode

/-- Settles O2: the command is the row of its opcode, whose CMD word is put together again from the fields its format has. -/
theorem encodeOfDecodeKeepsPacket : Obligations.EncodeOfDecodeKeepsPacket := by
  intro p i h
  obtain ⟨rfl, hchecks⟩ := (decode_eq_ok p i).1 h
  refine ⟨?_, fun hreads => by rw [encode_instrOf_arg, if_pos hreads]⟩
  rw [encode_instrOf_cmd]
  split_ifs with hres hfmt
  · exact opField_append_lowField p.cmd
  · obtain ⟨hrsv, hidx⟩ := hchecks.resolve_left hres
    exact cmdN_of_fields p.cmd hrsv (hidx hfmt)
  · exact cmdI_of_fields p.cmd (hchecks.resolve_left hres).1

/-- Settles O5: the checks read CMD only, and the row takes nothing from an ARG it ignores. -/
theorem ignoredArgDoesNotChangeDecoding : Obligations.IgnoredArgDoesNotChangeDecoding := by
  intro cmd a b i h hreads
  obtain ⟨rfl, hchecks⟩ := (decode_eq_ok ⟨cmd, a⟩ i).1 h
  exact (decode_eq_ok ⟨cmd, b⟩ _).2 ⟨instrOf_of_ignored_arg _ _ _ a hreads b, hchecks⟩

/-- Settles O6, by evaluating the decoder on each packet. -/
theorem writtenPacketsDecode : Obligations.WrittenPacketsDecode := by
  unfold Obligations.WrittenPacketsDecode
  decide

/-! ## The opcode map (R315, R316) -/

theorem opcodeRows_eq_of_op : ∀ r ∈ opcodeRows, ∀ r' ∈ opcodeRows, r.op = r'.op → r = r' := by decide

theorem exists_opcodeRow : ∀ op : BitVec 4, ∃ r ∈ opcodeRows, r.op = op := by decide

/-- Settles O4: a word matches a row exactly when its opcode is the row's and it passes the decoder's checks, and there is
one row for every opcode. -/
theorem opcodeMapSelectsTheCommand : Obligations.OpcodeMapSelectsTheCommand := by
  refine ⟨fun cmd r hr r' hr' h h' => ?_, fun p i h => ?_, fun p r hr h => ?_⟩
  · exact opcodeRows_eq_of_op r hr r' hr' (((selects_iff cmd r hr).1 h).1.symm.trans ((selects_iff cmd r' hr').1 h').1)
  · obtain ⟨rfl, hchecks⟩ := (decode_eq_ok p i).1 h
    obtain ⟨r, hr, hop⟩ := exists_opcodeRow (opField p.cmd)
    exact ⟨r, hr, (selects_iff p.cmd r hr).2 ⟨hop.symm, hop ▸ hchecks⟩, hop.trans (op_instrOf _ _ _ _).symm⟩
  · obtain ⟨hop, hchecks⟩ := (selects_iff p.cmd r hr).1 h
    exact ⟨_, (decode_eq_ok p _).2 ⟨rfl, hop ▸ hchecks⟩, (op_instrOf _ _ _ _).trans hop⟩

/-! ## Which packets are illegal (R304, R305, R316) -/

theorem reservedOp_iff (op : BitVec 4) : reservedOp op = true ↔ 14 ≤ op.toNat := decide_eq_true_iff

theorem formatN_iff : ∀ op : BitVec 4, formatN op = true ↔ op.toNat ∈ [0x0, 0x1, 0x4, 0x5, 0x8, 0xA, 0xC, 0xD] := by
  decide

/-- No opcode of format N is reserved (R304, R316). -/
theorem not_reservedOp_of_formatN : ∀ op : BitVec 4, formatN op = true → reservedOp op = false := by decide

theorem rsvField_eq_zero (cmd : Word) : rsvField cmd = 0#19 ↔ cmd.toNat / 2 ^ 9 % 2 ^ 19 = 0 := by
  rw [BitVec.toNat_eq, rsvField_toNat]
  rfl

theorem idxField_eq_zero (cmd : Word) : idxField cmd = 0#9 ↔ cmd.toNat % 2 ^ 9 = 0 := by
  rw [BitVec.toNat_eq, idxField_toNat]
  rfl

/-- A reserved opcode alone makes a packet its row's (R316). -/
theorem decode_eq_reserved (p : Packet) (i : Instr) (hi : reservedOp i.op = true) :
    decode p = .ok i ↔
      p.cmd.toNat / 2 ^ 28 = i.op.toNat ∧ instrOf i.op (lowField p.cmd) (idxField p.cmd) p.arg = i := by
  rw [decode_eq_ok, instrOf_eq_iff, ← opField_toNat, ← BitVec.toNat_eq]
  exact and_iff_left_of_imp fun h => .inl (h.1 ▸ hi)

theorem decode_eq_reservedE (p : Packet) (low : BitVec 28) :
    decode p = .ok (.reservedE low) ↔ p.cmd.toNat / 2 ^ 28 = 14 ∧ low = lowField p.cmd :=
  (decode_eq_reserved p (.reservedE low) rfl).trans
    (and_congr_right' ⟨fun h => (Instr.reservedE.inj h).symm, fun h => h ▸ rfl⟩)

theorem decode_eq_reservedF (p : Packet) (low : BitVec 28) :
    decode p = .ok (.reservedF low) ↔ p.cmd.toNat / 2 ^ 28 = 15 ∧ low = lowField p.cmd :=
  (decode_eq_reserved p (.reservedF low) rfl).trans
    (and_congr_right' ⟨fun h => (Instr.reservedF.inj h).symm, fun h => h ▸ rfl⟩)

/-- What a refusal by the decoder says (R305): no reserved opcode, and the first check that applies. -/
theorem decode_eq_error (p : Packet) (e : DecodeError) :
    decode p = .error e ↔
      reservedOp (opField p.cmd) = false ∧
        ((rsvField p.cmd ≠ 0#19 ∧ e = .reservedBits) ∨
          (rsvField p.cmd = 0#19 ∧ formatN (opField p.cmd) = true ∧ idxField p.cmd ≠ 0#9 ∧ e = .indexInFormatN)) := by
  unfold decode
  split_ifs with hres hrsv hfmt
  · simp [hres]
  · simp [hres, hrsv, eq_comm (a := e)]
  · simp_all [eq_comm (a := e)]
  · simp_all

theorem decode_eq_reservedBits (p : Packet) :
    decode p = .error .reservedBits ↔ p.cmd.toNat / 2 ^ 28 < 14 ∧ p.cmd.toNat / 2 ^ 9 % 2 ^ 19 ≠ 0 := by
  rw [decode_eq_error, ← Bool.not_eq_true, reservedOp_iff, opField_toNat, Nat.not_le, ne_eq, rsvField_eq_zero]
  simp

theorem decode_eq_indexInFormatN (p : Packet) :
    decode p = .error .indexInFormatN ↔
      p.cmd.toNat / 2 ^ 28 ∈ [0x0, 0x1, 0x4, 0x5, 0x8, 0xA, 0xC, 0xD] ∧
        p.cmd.toNat / 2 ^ 9 % 2 ^ 19 = 0 ∧ p.cmd.toNat % 2 ^ 9 ≠ 0 := by
  rw [← opField_toNat, ← formatN_iff, ← rsvField_eq_zero, ne_eq, ← idxField_eq_zero, decode_eq_error]
  constructor
  · rintro ⟨-, ⟨-, h⟩ | ⟨hrsv, hfmt, hidx, -⟩⟩
    · cases h
    · exact ⟨hfmt, hrsv, hidx⟩
  · rintro ⟨hfmt, hrsv, hidx⟩
    exact ⟨not_reservedOp_of_formatN _ hfmt, .inr ⟨hrsv, hfmt, hidx, rfl⟩⟩

/-- Settles O3: the four forms of an illegal packet. -/
theorem illegalPacketsAreThoseOfTheRule : Obligations.IllegalPacketsAreThoseOfTheRule := fun p =>
  ⟨decode_eq_reservedE p, decode_eq_reservedF p, decode_eq_reservedBits p, decode_eq_indexInFormatN p⟩

/-- A packet illegal by R305 or R316 decodes to a reserved row or is refused. -/
theorem decode_of_illegal (p : Packet)
    (h : 14 ≤ p.cmd.toNat / 2 ^ 28 ∨ p.cmd.toNat / 2 ^ 9 % 2 ^ 19 ≠ 0 ∨
      (p.cmd.toNat / 2 ^ 28 ∈ [0x0, 0x1, 0x4, 0x5, 0x8, 0xA, 0xC, 0xD] ∧ p.cmd.toNat % 2 ^ 9 ≠ 0)) :
    (∃ low, decode p = .ok (.reservedE low)) ∨ (∃ low, decode p = .ok (.reservedF low)) ∨ ∃ e, decode p = .error e := by
  have hop : p.cmd.toNat / 2 ^ 28 < 14 ∨ p.cmd.toNat / 2 ^ 28 = 14 ∨ p.cmd.toNat / 2 ^ 28 = 15 := by
    have := p.cmd.isLt
    omega
  rcases hop with hop | hop | hop
  · by_cases hrsv : p.cmd.toNat / 2 ^ 9 % 2 ^ 19 = 0
    · obtain ⟨hfmt, hidx⟩ := (h.resolve_left (Nat.not_le.2 hop)).resolve_left (not_not_intro hrsv)
      exact .inr (.inr ⟨_, (decode_eq_indexInFormatN p).2 ⟨hfmt, hrsv, hidx⟩⟩)
    · exact .inr (.inr ⟨_, (decode_eq_reservedBits p).2 ⟨hop, hrsv⟩⟩)
  · exact .inl ⟨_, (decode_eq_reservedE p _).2 ⟨hop, rfl⟩⟩
  · exact .inr (.inl ⟨_, (decode_eq_reservedF p _).2 ⟨hop, rfl⟩⟩)

end Sys2Proof

namespace Sys2Proof.Machine

/-! ## Illegal packets performed (R305, R316, R704) -/

/-- A packet that decodes to a reserved row or is refused answers ILLEGAL_CMD, whichever it is. -/
theorem execPacket_of_illegal (p : Packet) (s : State)
    (h : (∃ low, decode p = .ok (.reservedE low)) ∨ (∃ low, decode p = .ok (.reservedF low)) ∨ ∃ e, decode p = .error e) :
    execPacket p s = illegalCommand s := by
  rcases h with ⟨low, hd⟩ | ⟨low, hd⟩ | ⟨e, hd⟩ <;> simp only [execPacket, packetBy, hd] <;> rfl

/-- Settles O8: the idle core performs the packet, and each form of illegal packet answers ILLEGAL_CMD. -/
theorem illegalPacketsAnswerIllegalCmd : Obligations.IllegalPacketsAnswerIllegalCmd := by
  refine ⟨fun s p rest hout hrsp hcmd hillegal => ?_, fun s low => rfl, fun s low => rfl⟩
  calc step s = execPacket p { s with cmdch := rest } := stepBy_of_idle exec s p rest hout hrsp hcmd
    _ = illegalCommand { s with cmdch := rest } := execPacket_of_illegal p _ (decode_of_illegal p hillegal)
    _ = .next { s with cmdch := rest, rspch := some ⟨6#4, 0#32⟩ } := rfl

/-! ## What an error changes (R312, R710) -/

section Errors
variable {p : Params} {i : Instr} {s u : State} {c : Code} {d : Word}

/-- An error answers no data (R312). -/
theorem AnswersWith.data_of_error (h : AnswersWith p i s u c d) (hc : c ≠ 0#4) : d = 0#32 := by
  cases h
  case statusRd | freqRd | build | nodeRd | lutRd | encSym | decBitLeaf => exact absurd rfl hc
  all_goals rfl

/-- What a command that answers an error writes before it answers (R710). -/
theorem AnswersWith.writes_of_error (h : AnswersWith p i s u c d) (hc : c ≠ 0#4) :
    u = s ∨ ((∃ idx, i = .decBit idx) ∧ c = 2#4 ∧ u = s.setDecErr 2#4) ∨ (i = .decEnd ∧ c = 3#4 ∧ u = s.setDecErr 3#4) ∨
      ((∃ idx, i = .encSym idx) ∧ c = 4#4 ∧ u = s.setEncErr 4#4) ∨ (i = .build ∧ c = 1#4 ∧ u = s.discardTree) := by
  cases h with
  | decBitInvalid _ idx => exact .inr (.inl ⟨⟨idx, rfl⟩, rfl, rfl⟩)
  | decEndTruncated => exact .inr (.inr (.inl ⟨rfl, rfl, rfl⟩))
  | encSymUnknown _ idx => exact .inr (.inr (.inr (.inl ⟨⟨idx, rfl⟩, rfl, rfl⟩)))
  | buildEmpty => exact .inr (.inr (.inr (.inr ⟨rfl, rfl, rfl⟩)))
  | freqClr | freqWr | build | genlut | encStart | encSym | decStart | decBitLeaf | decBitInner => exact absurd rfl hc
  | _ => exact .inl rfl

end Errors

/-- Settles O48: the writes before the answer, and the answer in RSPCH. -/
theorem errorsChangeOnlyWhatTheRuleLists : Obligations.ErrorsChangeOnlyWhatTheRuleLists := by
  intro i s t r h hr hcode
  obtain ⟨u, c, d, ha, rfl⟩ := answers_of_exec i s t h
  obtain rfl : ⟨c, d⟩ = r := Option.some.inj hr
  refine ⟨ha.data_of_error hcode, ?_⟩
  rcases ha.writes_of_error hcode with rfl | ⟨hi, hc, rfl⟩ | ⟨hi, hc, rfl⟩ | ⟨hi, hc, rfl⟩ | ⟨hi, hc, rfl⟩
  · exact .inl rfl
  · exact .inr (.inl ⟨hi, hc, rfl⟩)
  · exact .inr (.inr (.inl ⟨hi, hc, rfl⟩))
  · exact .inr (.inr (.inr (.inl ⟨hi, hc, rfl⟩)))
  · exact .inr (.inr (.inr (.inr ⟨hi, hc, rfl⟩)))

end Sys2Proof.Machine

/-! PROOFS of the statements of the frequency table: FREQ_CLR (O16), FREQ_WR (O17), FREQ_RD (O19), and FREQ_LOAD, the
pseudo-instruction that loads the counts of a text (O52). -/

namespace Sys2Proof

/-! ## The packet of a format-I command (R304, R315) -/

/-- The CMD word of a format-I command is its opcode's pattern with IDX in the low bits. -/
theorem cmdI_eq_or (op : BitVec 4) (idx : Index) : cmdI op idx = cmdN op ||| idx.setWidth 32 := by
  apply BitVec.eq_of_toNat_eq
  have hor : (cmdN op ||| idx.setWidth 32).toNat = (cmdN op).toNat ||| idx.toNat := by
    rw [BitVec.toNat_or, BitVec.toNat_setWidth_of_le (by decide)]
  rw [hor, cmdI_toNat, cmdN_toNat, Nat.mul_comm, Nat.two_pow_add_eq_or_of_lt (by omega)]

/-- The packet with a format-I opcode's pattern and IDX in the low bits decodes to the row of the opcode. -/
theorem decode_pattern_or_idx (op : BitVec 4) (idx : Index) (arg : Word) (hn : formatN op = false) :
    decode ⟨cmdN op ||| idx.setWidth 32, arg⟩ = .ok (instrOf op (lowField (cmdI op idx)) idx arg) :=
  cmdI_eq_or op idx ▸ decode_cmdI op idx arg hn

end Sys2Proof

namespace Sys2Proof.Machine

/-! ## The three commands (R401 to R403) -/

/-- Settles O16: its packet is one word whatever ARG holds, and the table written has the same 0 everywhere. -/
theorem freqClrZeroesEveryEntry : Obligations.FreqClrZeroesEveryEntry := by
  refine ⟨fun arg => ?_, fun s => ⟨_, exec_of_answers _ _ _ _ _ (.freqClr s), fun y => ?_, rfl⟩⟩
  · exact ignoredArgDoesNotChangeDecoding _ 0#32 arg .freqClr (decode_encode .freqClr) rfl
  · exact Vector.getElem_replicate y.isLt

/-- Settles O17: a symbol in range is written, since every ARG fits; one out of range answers RANGE. -/
theorem freqWrWritesOneEntry : Obligations.FreqWrWritesOneEntry := by
  refine fun s idx arg => ⟨decode_pattern_or_idx 0x2#4 idx arg rfl, fun h => ?_, fun h => ?_⟩
  · have hwrite := AnswersWith.freqWr s idx arg _ (dataSymbol_of_lt idx h) (countFits_params arg)
    refine ⟨_, exec_of_answers _ _ _ _ _ hwrite, ?_, fun y hy => ?_, rfl⟩
    · exact Vector.getElem_set_self h
    · exact Vector.getElem_set_ne h y.isLt hy.symm
  · exact exec_of_answers _ _ _ _ _ (.freqWrRange s idx arg (.inl (dataSymbol_of_gt idx h)))

/-- Settles O19: a symbol in range is read, one out of range answers RANGE. -/
theorem freqRdReadsOneEntry : Obligations.FreqRdReadsOneEntry := fun s idx =>
  ⟨fun arg => decode_pattern_or_idx 0x3#4 idx arg rfl,
    fun h => exec_of_answers _ _ _ _ _ (.freqRd s idx _ (dataSymbol_of_lt idx h)),
    fun h => exec_of_answers _ _ _ _ _ (.freqRdRange s idx (dataSymbol_of_gt idx h))⟩

/-! ## Loading a table (R430, R431) -/

/-- The command that loads one entry of a table, none where the entry is 0. -/
def loadCommand (c : Word × Nat) : Option Instr :=
  if c.1 = 0#32 then none else some (.freqWr (BitVec.ofNat 9 c.2) c.1)

theorem loadTable_eq (table : Vector Word 256) :
    loadTable table = .freqClr :: table.toList.zipIdx.filterMap loadCommand := rfl

theorem loadCommand_zero (y : Nat) : loadCommand (0#32, y) = none := if_pos rfl

theorem loadCommand_of_ne {w : Word} (hw : w ≠ 0#32) (y : Nat) :
    loadCommand (w, y) = some (.freqWr (BitVec.ofNat 9 y) w) := if_neg hw

/-- The state with other contents of FREQ and `n` more OK responses taken: what `n` commands that load a table leave. -/
def State.loadedTo (s : State) (freq : Vector Word 256) (n : Nat) : State :=
  { s with freq := freq, rspTaken := s.rspTaken ++ List.replicate n ⟨0#4, 0#32⟩ }

/-- Loading a table touches FREQ and the channel of responses only. -/
theorem State.loadedTo_frame (s : State) (freq : Vector Word 256) (n : Nat) :
    s.loadedTo freq n = { s with
      freq := (s.loadedTo freq n).freq
      rspch := (s.loadedTo freq n).rspch
      rspTaken := (s.loadedTo freq n).rspTaken } := rfl

@[simp] theorem State.loadedTo_loadedTo (s : State) (freq freq' : Vector Word 256) (m n : Nat) :
    (s.loadedTo freq m).loadedTo freq' n = s.loadedTo freq' (m + n) := by
  simp [State.loadedTo, List.replicate_append_replicate]

/-- A first command that writes FREQ only and answers OK, then commands that load a table. -/
theorem run_cons_load {i : Instr} {is : List Instr} {s : State} {freq freq' : Vector Word 256} {n : Nat}
    (hready : s.ready = true) (h : Answers i s { s with freq := freq } 0#4 0#32)
    (hrest : runCommands is (s.loadedTo freq 1) =
      some (List.replicate n ⟨0#4, 0#32⟩, (s.loadedTo freq 1).loadedTo freq' n)) :
    runCommands (i :: is) s = some (List.replicate (n + 1) ⟨0#4, 0#32⟩, s.loadedTo freq' (n + 1)) := by
  obtain ⟨-, hrsp, -⟩ := s.ready_iff.1 hready
  have htook : took { s with freq := freq } 0#4 0#32 = s.loadedTo freq 1 := by
    simp only [took, State.loadedTo, hrsp, List.replicate_one]
  rw [State.loadedTo_loadedTo, Nat.add_comm 1 n, ← htook] at hrest
  exact run_cons _ _ _ _ _ _ _ _ hready h hrest

/-- The FREQ_WR of the entry above those loaded puts its count there. -/
theorem answers_freqWr_next {s : State} {loaded zeros : List Word} (w : Word)
    (hfreq : s.freq.toList = loaded ++ 0#32 :: zeros) :
    ∃ freq, freq.toList = loaded ++ w :: zeros ∧
      Answers (.freqWr (BitVec.ofNat 9 loaded.length) w) s { s with freq := freq } 0#4 0#32 := by
  have hlt : loaded.length < 256 := by
    have := congrArg List.length hfreq
    simp only [Vector.length_toList, List.length_append, List.length_cons] at this
    omega
  refine ⟨s.freq.set loaded.length w, by simp [Vector.toList_set, hfreq], ?_⟩
  exact .freqWr s _ w ⟨loaded.length, hlt⟩ (dataSymbol_ofNat ⟨loaded.length, hlt⟩) (countFits_params w)

/-- FREQ_WRs of the entries that are not 0 load the rest of a table over zeros, above what is loaded already. -/
theorem run_loadCommands (rest loaded : List Word) {s : State} (hready : s.ready = true)
    (hfreq : s.freq.toList = loaded ++ List.replicate rest.length 0#32) :
    ∃ freq n, freq.toList = loaded ++ rest ∧ runCommands ((rest.zipIdx loaded.length).filterMap loadCommand) s =
      some (List.replicate n ⟨0#4, 0#32⟩, s.loadedTo freq n) := by
  induction rest generalizing loaded s with
  | nil => exact ⟨s.freq, 0, hfreq, by simp [State.loadedTo, runCommands, runBy]⟩
  | cons w rest ih =>
    rw [List.length_cons, List.replicate_succ] at hfreq
    have hnext (t : State) := @ih (loaded ++ [w]) t
    simp only [List.length_append, List.length_singleton, List.append_assoc, List.singleton_append] at hnext
    rw [List.zipIdx_cons]
    by_cases hw : w = 0#32
    · subst hw
      rw [List.filterMap_cons_none (loadCommand_zero loaded.length)]
      exact hnext s hready hfreq
    · obtain ⟨freq, hwritten, hanswers⟩ := answers_freqWr_next w hfreq
      obtain ⟨freq', n, hfinal, hrun⟩ := hnext (s.loadedTo freq 1) hready hwritten
      refine ⟨freq', n + 1, hfinal, ?_⟩
      rw [List.filterMap_cons_some (loadCommand_of_ne hw loaded.length)]
      exact run_cons_load hready hanswers hrun

/-- FREQ_CLR, then one FREQ_WR per entry that is not 0: FREQ holds the table, whatever it held. -/
theorem run_loadTable (table : Vector Word 256) {s : State} (hready : s.ready = true) :
    ∃ n, runCommands (loadTable table) s = some (List.replicate n ⟨0#4, 0#32⟩, s.loadedTo table n) := by
  obtain ⟨freq, n, hfreq, hrun⟩ :=
    run_loadCommands table.toList [] (s := s.loadedTo (Vector.replicate 256 0#32) 1) hready (by
      rw [Vector.length_toList]; exact Vector.toList_replicate)
  obtain rfl : freq = table := Vector.toList_inj.1 hfreq
  refine ⟨n + 1, ?_⟩
  rw [loadTable_eq]
  exact run_cons_load hready (.freqClr s) hrun

/-- A count below 2^32 is in the host's counter as it is. -/
theorem countsOf_toNat (text : List Byte) (y : Fin 256) (h : text.count (BitVec.ofNat 8 y.val) < 2 ^ 32) :
    (countsOf text)[y].toNat = text.count (BitVec.ofNat 8 y.val) := by
  simp only [countsOf, Fin.getElem_fin, Vector.getElem_ofFn, BitVec.toNat_ofNat]
  exact Nat.mod_eq_of_lt h

/-- Settles O52: FREQ_LOAD loads the table of the counts. -/
theorem freqLoadLoadsTheCounts : Obligations.FreqLoadLoadsTheCounts := by
  intro x s hready hcount
  obtain ⟨n, hrun⟩ := run_loadTable (countsOf x) hready
  exact ⟨_, _, hrun, fun r hr => List.eq_of_mem_replicate hr, fun y => countsOf_toNat x y (hcount _),
    s.loadedTo_frame _ n⟩

end Sys2Proof.Machine

/-! PROOFS of the statements of the tree builder: BUILD (O20, O21, O23 to O26), NODE_RD (O28), the depth of the leaves (O30),
and the writer of the tree (O41). -/

namespace Sys2Proof.Machine

/-! ## What BUILD commits and answers (R460, R462) -/

/-- BUILD's result word as a number: LEAF_COUNT from bit 16 on, ROOT below (R460). -/
theorem buildData_toNat (leafCount root : Index) :
    (buildData leafCount root).toNat = leafCount.toNat * 2 ^ 16 + root.toNat := by
  have h : (0#7 ++ leafCount ++ 0#7 ++ root).toNat = leafCount.toNat * 2 ^ 16 + root.toNat := by
    simp only [append_toNat, BitVec.toNat_ofNat, Nat.zero_mod]
    omega
  exact h

/-- Where no symbol occurs there is no leaf to build over. -/
theorem exec_build_of_zero (s : State) (h : ∀ y : Fin 256, s.freq[y] = 0#32) :
    exec .build s = .next (s.discardTree.respond 1#4 0#32) :=
  exec_of_answers _ _ _ _ _ (.buildEmpty s ((buildLeaves_eq_nil s).2 h))

/-- Where a symbol occurs BUILD commits the tree over the leaves. -/
theorem exec_build_of_occurs (s : State) (h : ∃ y : Fin 256, s.freq[y] ≠ 0#32) :
    exec .build s = .next ((s.commitTree (buildNodes s) (buildCount s) (buildRoot s)).respond 0#4
      (buildData (buildCount s) (buildRoot s))) := by
  obtain ⟨y, hy⟩ := h
  exact exec_of_answers _ _ _ _ _ (.build s fun e => hy ((buildLeaves_eq_nil s).1 e y))

/-- Where a symbol occurs BUILD leaves the tree merged over the leaves. -/
theorem built_of_occurs {s t : State} (h : exec .build s = .next t) (hoccurs : ∃ y : Fin 256, s.freq[y] ≠ 0#32) :
    t.treeValid = true ∧ Built s.freq (buildLeaves s) (buildNodes s) t := by
  cases (exec_build_of_occurs s hoccurs).symm.trans h
  exact ⟨rfl, built_commit s hoccurs⟩

/-- Settles O20: what `discardTree` writes. -/
theorem buildOnEmptyTableDiscardsTheTree : Obligations.BuildOnEmptyTableDiscardsTheTree := fun s hzero =>
  ⟨_, exec_build_of_zero s hzero, rfl⟩

/-- Settles O21: what `commitTree` writes, and the result word as a number. -/
theorem buildCommitsAndAnswers : Obligations.BuildCommitsAndAnswers := fun s hoccurs =>
  ⟨_, _, exec_build_of_occurs s hoccurs, rfl, buildData_toNat _ _⟩

/-! ## The tree as a function of FREQ (R463) -/

section Deterministic
variable {freq : Vector Word 256} {leaves nodes : List Node} {t t' : State}

/-- The valid region is what the list of nodes holds. -/
theorem Built.lt_length_of_le_root (b : Built freq leaves nodes t) {i : Nat} (hi : i ≤ t.root.toNat) : i < nodes.length := by
  have := b.leavesOk.few; have := b.length; have := b.rootIs
  omega

/-- Two states that hold the tree of the same lists hold the same tree. -/
theorem Built.agree (b : Built freq leaves nodes t) (b' : Built freq leaves nodes t') :
    t.leafCount = t'.leafCount ∧ t.root = t'.root ∧ ∀ i : Fin 511, i.val ≤ t.root.toNat → t.node[i] = t'.node[i] := by
  refine ⟨BitVec.eq_of_toNat_eq (b.count.trans b'.count.symm), BitVec.eq_of_toNat_eq (b.rootIs.trans b'.rootIs.symm),
    fun i hi => ?_⟩
  have hlt := b.lt_length_of_le_root hi
  exact (b.nodeIs i hlt).symm.trans (b'.nodeIs i hlt)

end Deterministic

/-- Settles O26: the leaves are read off FREQ, and the tree is the one merged over the leaves. -/
theorem buildDependsOnFreqAlone : Obligations.BuildDependsOnFreqAlone := by
  intro s s' t t' hfreq h h'
  by_cases hzero : ∀ y : Fin 256, s.freq[y] = 0#32
  · cases (exec_build_of_zero s hzero).symm.trans h
    cases (exec_build_of_zero s' (hfreq ▸ hzero)).symm.trans h'
    exact ⟨rfl, rfl, rfl, Bool.noConfusion⟩
  · have hoccurs : ∃ y : Fin 256, s.freq[y] ≠ 0#32 := by simpa using hzero
    obtain ⟨hv, b⟩ := built_of_occurs h hoccurs
    obtain ⟨hv', b'⟩ := built_of_occurs h' (hfreq ▸ hoccurs)
    have hleaves : buildLeaves s = buildLeaves s' := congrArg (fun freq => withSynthetic (symbolLeaves freq)) hfreq
    have hnodes : buildNodes s = buildNodes s' := congrArg treeOver hleaves
    rw [hfreq, hleaves, hnodes] at b
    obtain ⟨hcount, hroot, hnode⟩ := b.agree b'
    exact ⟨hv.trans hv'.symm, hcount, hroot, fun _ => hnode⟩

/-! ## The leaves (R453, R460) -/

section Leaves
variable {freq : Vector Word 256} {leaves nodes : List Node} {t : State}

/-- Over one symbol the leaves are its own and the synthetic one: an ascending list holds the symbol once only. -/
theorem LeavesOk.eq_of_one_symbol (h : LeavesOk freq leaves) {y : Fin 256} (hone : ∀ z : Fin 256, freq[z] ≠ 0#32 → z = y) :
    leaves = [leafNode (BitVec.ofNat 9 y.val) (freq[y].setWidth 40), leafNode 256#9 1#40] := by
  have hown (i : Nat) (nd : Node) (hi : leaves[i]? = some nd) :
      nd = leafNode (BitVec.ofNat 9 y.val) (freq[y].setWidth 40) ∨
        (nd = leafNode 256#9 1#40 ∧ i = 1 ∧ leaves.length = 2) := by
    rcases h.sound i nd hi with ⟨z, hz, e⟩ | ⟨e, hi1, hlen, -⟩
    · exact .inl (hone z hz ▸ e)
    · exact .inr ⟨e, hi1, hlen⟩
  obtain ⟨first, second, rest, rfl⟩ : ∃ first second rest, leaves = first :: second :: rest := by
    match leaves, h.few with
    | first :: second :: rest, _ => exact ⟨first, second, rest, rfl⟩
  have hasc : first.sym.toNat < second.sym.toNat := (List.pairwise_cons.1 h.ascending).1 second List.mem_cons_self
  obtain rfl | ⟨-, h01, -⟩ := hown 0 first rfl
  · obtain rfl | ⟨rfl, -, hlen⟩ := hown 1 second rfl
    · exact absurd hasc (Nat.lt_irrefl _)
    · rw [List.length_eq_zero_iff.1 (Nat.succ.inj (Nat.succ.inj hlen))]
  · exact absurd h01 Nat.zero_ne_one

/-- A leaf of the list is an entry of NODE below LEAF_COUNT. -/
theorem Built.exists_entry (b : Built freq leaves nodes t) {nd : Node} (h : nd ∈ leaves) :
    ∃ i : Fin 511, i.val < t.leafCount.toNat ∧ t.node[i] = nd := by
  obtain ⟨i, hi, rfl⟩ := List.getElem_of_mem h
  have hfew := b.leavesOk.few
  refine ⟨⟨i, by omega⟩, by rw [b.count]; exact hi, ?_⟩
  exact Option.some.inj ((b.leafIs ⟨i, by omega⟩ hi).symm.trans (List.getElem?_eq_getElem hi))

/-- Over one symbol LEAF_COUNT is 2, entry 0 is the symbol's leaf and entry 1 the synthetic one (R453, R461). -/
theorem Built.one_symbol (b : Built freq leaves nodes t) {y : Fin 256} (hone : ∀ z : Fin 256, freq[z] ≠ 0#32 → z = y) :
    t.leafCount.toNat = 2 ∧ t.node[(0 : Fin 511)] = leafNode (BitVec.ofNat 9 y.val) (freq[y].setWidth 40) ∧
      t.node[(1 : Fin 511)] = leafNode 256#9 1#40 := by
  obtain rfl := b.leavesOk.eq_of_one_symbol hone
  exact ⟨b.count, (Option.some.inj (b.leafIs 0 Nat.two_pos)).symm, (Option.some.inj (b.leafIs 1 Nat.one_lt_two)).symm⟩

end Leaves

/-- Settles O23: NODE begins with the leaves, which are complete and sound for FREQ (`LeavesOk`). -/
theorem buildLeavesAreTheSymbolsThatOccur : Obligations.BuildLeavesAreTheSymbolsThatOccur := by
  intro s t h hv
  obtain ⟨-, -, b⟩ := built_of_build s t h hv
  refine ⟨fun y hy => ?_, fun i hi => ?_, fun y _ hone => ?_⟩
  · obtain ⟨i, hi, e⟩ := b.exists_entry (b.leavesOk.complete y hy)
    refine ⟨i, hi, ?_, ?_⟩ <;> rw [e]
    · exact (BitVec.toNat_ofNat _ _).trans (Nat.mod_eq_of_lt (by omega))
    · exact BitVec.toNat_setWidth_of_le (by decide)
  · rw [b.count] at hi ⊢
    exact b.leavesOk.sound i.val _ (b.leafIs i hi)
  · obtain ⟨hcount, -, hsynthetic⟩ := b.one_symbol hone
    exact ⟨hcount, hsynthetic⟩

/-! ## The internal nodes (R451, R461) -/

/-- Settles O24: every merge of the loop took the two least, and NODE holds the merges. -/
theorem buildMergesTheTwoLeast : Obligations.BuildMergesTheTwoLeast := by
  intro s t h hv
  obtain ⟨-, -, b⟩ := built_of_build s t h hv
  exact b.mergesTwoLeast

/-- ≺ is asymmetric (R451). -/
theorem State.precedes_asymm {t : State} {a b : Fin 511} (h : t.precedes a b) : ¬ t.precedes b a := by
  unfold State.precedes at *
  omega

/-- Over two leaves entry 2 has the ≺-least of entries 0 and 1 as LEFT and the other one as RIGHT. -/
theorem State.mergesTwoLeast_two {t : State} (h : t.mergesTwoLeast 2) :
    (t.precedes 0 1 → t.node[(2 : Fin 511)].left = 0#9 ∧ t.node[(2 : Fin 511)].right = 1#9) ∧
    (t.precedes 1 0 → t.node[(2 : Fin 511)].left = 1#9 ∧ t.node[(2 : Fin 511)].right = 0#9) := by
  obtain ⟨a, b, hnode, -, ⟨ha, -⟩, ⟨hb, -⟩, hab, -⟩ := h
  have below (j : Fin 511) (hj : j.val < (2 : Fin 511).val) : j = 0 ∨ j = 1 := by
    have hj : j.val < 2 := hj
    exact (Nat.lt_succ_iff_lt_or_eq.1 hj).imp (fun h => Fin.ext (Nat.lt_one_iff.1 h)) Fin.ext
  rw [hnode]
  obtain rfl | rfl := below a ha <;> obtain rfl | rfl := below b hb
  · exact absurd hab (State.precedes_asymm hab)
  · exact ⟨fun _ => ⟨rfl, rfl⟩, fun h10 => absurd h10 (State.precedes_asymm hab)⟩
  · exact ⟨fun h01 => absurd h01 (State.precedes_asymm hab), fun _ => ⟨rfl, rfl⟩⟩
  · exact absurd hab (State.precedes_asymm hab)

/-- Settles O25: entry 2 merges the symbol's leaf and the synthetic one, which weighs 1, and a tie goes to entry 0. -/
theorem singleSymbolGetsASyntheticSibling : Obligations.SingleSymbolGetsASyntheticSibling := by
  intro s y hy hrest
  have hone : ∀ z : Fin 256, s.freq[z] ≠ 0#32 → z = y := fun z hz => not_imp_comm.1 (hrest z) hz
  obtain ⟨t, h⟩ : ∃ t, exec .build s = .next t := ⟨_, exec_build_of_occurs s ⟨y, hy⟩⟩
  obtain ⟨-, b⟩ := built_of_occurs h ⟨y, hy⟩
  obtain ⟨hcount, hsymbol, hsynthetic⟩ := b.one_symbol hone
  have hroot : t.root.toNat = 2 := by rw [b.treeOk.rootIs, hcount]
  have hinner : t.innerAt (2 : Fin 511).val := ⟨hcount.le, hroot.ge⟩
  obtain ⟨hleaf, -⟩ := b.treeOk.inner 2 hinner
  obtain ⟨hfirst, hsecond⟩ := State.mergesTwoLeast_two (b.mergesTwoLeast 2 hinner)
  have hweight : t.node[(0 : Fin 511)].weight.toNat = s.freq[y].toNat := by
    rw [hsymbol]; exact BitVec.toNat_setWidth_of_le (by decide)
  have hweight' : t.node[(1 : Fin 511)].weight.toNat = 1 := by rw [hsynthetic]; rfl
  refine ⟨t, h, BitVec.eq_of_toNat_eq hcount, BitVec.eq_of_toNat_eq hroot, hsymbol, hsynthetic, fun hw => ?_, fun hw => ?_⟩
  · obtain ⟨hl, hr⟩ := hsecond (.inl (by omega))
    exact ⟨hl, hr, (descend_single t _ _ true).2 ⟨_, nodeAt_eq t _ 2 hroot, hleaf, hr⟩⟩
  · obtain ⟨hl, hr⟩ := hfirst (.inr ⟨by omega, Nat.one_pos⟩)
    exact ⟨hl, hr, (descend_single t _ _ false).2 ⟨_, nodeAt_eq t _ 2 hroot, hleaf, hl⟩⟩

/-! ## NODE_RD (R470) -/

theorem nodeOperandsInRange_iff (s : State) (idx : Index) (arg : Word) :
    nodeOperandsInRange s idx arg = true ↔ idx.toNat ≤ s.root.toNat ∧ arg.toNat ≤ 3 := by
  simp only [nodeOperandsInRange, Bool.and_eq_true, decide_eq_true_eq]

/-- Settles O28: the ways NODE_RD answers, and the field groups as numbers. -/
theorem nodeRdReadsOneFieldGroup : Obligations.NodeRdReadsOneFieldGroup := by
  intro s idx arg
  refine ⟨decode_pattern_or_idx 0x6#4 idx arg rfl, fun hv => ?_, fun hv hr => ?_, fun hidx hv hn hsel => ?_⟩
  · exact exec_of_answers _ _ _ _ _ (.nodeRdNotReady s idx arg hv)
  · have hout : nodeOperandsInRange s idx arg = false := by
      rw [Bool.eq_false_iff, ne_eq, nodeOperandsInRange_iff]; omega
    exact exec_of_answers _ _ _ _ _ (.nodeRdRange s idx arg hv hout)
  · have hread : Answers (.nodeRd idx arg) s s _ _ := .nodeRd s idx arg _ hv ((nodeOperandsInRange_iff s idx arg).2 ⟨hn, hsel⟩)
      (nodeAt_eq s idx ⟨idx.toNat, hidx⟩ rfl)
    refine ⟨_, exec_of_answers _ _ _ _ _ hread, ?_, ?_, ?_, ?_⟩ <;> rintro rfl
    · exact nodeField_zero _
    · exact nodeField_one _
    · exact nodeField_two _
    · exact nodeField_three _

/-! ## The depth of the leaves (R465, R502) -/

/-- Settles O30: the entry of a leaf's symbol is the path to the leaf, and a path is as long as the tree is deep at most. -/
theorem codeLengthsAreBounded : Obligations.CodeLengthsAreBounded := by
  intro s hs hlut i hi
  obtain ⟨code, -, hshort, hpath, hentry⟩ := (hs.lut hlut).present i hi
  refine ⟨entryOf code, hentry, ?_⟩
  rw [entryOf_len code hshort]
  exact (hs.tree (hs.lutNeedsTree hlut)).leaf_depth i hi code hpath

/-! ## The writer of the tree (R450) -/

/-- A command other than BUILD leaves the tree. -/
theorem AnswersWith.tree_eq {p : Params} {i : Instr} {s u : State} {c : Code} {d : Word} (h : AnswersWith p i s u c d)
    (hi : i ≠ .build) :
    u.node = s.node ∧ u.leafCount = s.leafCount ∧ u.root = s.root ∧ u.treeValid = s.treeValid := by
  cases h with
  | build | buildEmpty => exact absurd rfl hi
  | _ => exact ⟨rfl, rfl, rfl, rfl⟩

/-- Settles O41: answering writes RSPCH only. -/
theorem onlyBuildWritesTheTree : Obligations.OnlyBuildWritesTheTree := by
  intro i s t h hi
  obtain ⟨u, c, d, ha, rfl⟩ := answers_of_exec i s t h
  exact ha.tree_eq hi

end Sys2Proof.Machine

/-! PROOFS of the statements of the code table: GENLUT (O29), its code words, none of which begins another (O31) and
which are complete (O32), LUT_RD (O33), and the writer of LUT (O42). -/

namespace Sys2Proof.Machine

/-! ## GENLUT (R501) -/

/-- Settles O29: without a tree GENLUT answers NOT_READY; over a tree its walk ends, and the table of what it met is the
tree's code table. -/
theorem genlutWritesTheCodeTable : Obligations.GenlutWritesTheCodeTable := by
  refine ⟨fun arg => ?_, fun s => ⟨fun hv => ?_, fun hv htree => ?_⟩⟩
  · exact ignoredArgDoesNotChangeDecoding _ 0#32 arg .genlut (decode_encode .genlut) rfl
  · exact exec_of_answers _ _ _ _ _ (.genlutNotReady s hv)
  · obtain ⟨found, hwalk, hok⟩ := htree.genlut
    exact ⟨_, exec_of_answers _ _ _ _ _ (.genlut s found hv hwalk), hok _ rfl rfl rfl rfl, rfl⟩

/-! ## The code words are the paths to the leaves (R126) -/

theorem LutEntry.code_length (e : LutEntry) : e.code.length = e.len.toNat := by
  rw [LutEntry.code, List.length_map, List.length_range]

section CodeWords
variable {s : State}

/-- A symbol has the code word `p` exactly when `p` leads from ROOT to a leaf of the symbol. -/
theorem LutOk.code_eq_iff (h : LutOk s) (ht : TreeOk s) (y : Fin 257) (p : List Bool) :
    (s.lut[y].len ≠ 0#8 ∧ s.lut[y].code = p) ↔
      ∃ i : Fin 511, i.val < s.leafCount.toNat ∧ s.node[i].sym.toNat = y.val ∧
        s.descend s.root p = some (BitVec.ofNat 9 i.val) := by
  constructor
  · rintro ⟨hlen, rfl⟩
    obtain ⟨i, code, hi, hsym, -, h255, hpath, hentry⟩ := h.entry_of_len y hlen
    exact ⟨i, hi, hsym, by rw [hentry, entryOf_code code h255, hpath]⟩
  · rintro ⟨i, hi, hsym, hp⟩
    obtain ⟨code, h1, h255, hpath, hentry⟩ := h.present i hi
    rw [hsym, Vector.getElem?_eq_getElem y.isLt] at hentry
    have hlut : s.lut[y] = entryOf code := Option.some.inj hentry
    rw [hlut, entryOf_code code h255]
    refine ⟨fun h0 => ?_, ht.path_unique _ _ _ hpath hp⟩
    have hlen := entryOf_len code h255
    rw [h0, BitVec.toNat_ofNat] at hlen
    omega

/-- No path leads on from a leaf: where one path to a leaf begins another one, both lead to the same leaf. -/
theorem TreeOk.leaf_of_begins (h : TreeOk s) {p q : List Bool} {m n : Index} (hpq : p <+: q)
    (hp : s.descend s.root p = some m) (hm : m.toNat < s.leafCount.toNat) (hq : s.descend s.root q = some n) : m = n := by
  obtain ⟨rest, rfl⟩ := hpq
  rw [descend_append, hp, Option.bind_some] at hq
  have hrest : rest = [] := by
    by_contra hne
    have := ((h.descend_le rest m n (by have := h.rootIs; omega) hq).2 hne).1
    omega
  subst hrest
  exact Option.some.inj hq

/-- The symbols that have a code word, each with its code word. -/
def State.codeWords (s : State) : List (Index × List Bool) :=
  ((List.finRange 257).filter fun y => s.lut[y].len ≠ 0#8).map fun y => (BitVec.ofNat 9 y.val, s.lut[y].code)

/-- The symbol of a table entry, as a word and as a number. -/
theorem ofNat_symbol_eq_iff (y : Fin 257) (sym : Index) : BitVec.ofNat 9 y.val = sym ↔ sym.toNat = y.val := by
  rw [← BitVec.toNat_inj, BitVec.toNat_ofNat, Nat.mod_eq_of_lt (by omega), eq_comm]

theorem State.nodup_codeWords (s : State) : s.codeWords.Nodup := by
  refine ((List.nodup_finRange 257).filter _).map fun y z hyz => ?_
  have hsym : BitVec.ofNat 9 y.val = BitVec.ofNat 9 z.val := congrArg Prod.fst hyz
  exact Fin.ext (((ofNat_symbol_eq_iff y _).1 rfl).symm.trans ((ofNat_symbol_eq_iff z _).1 hsym.symm))

theorem State.mem_codeWords (s : State) (sym : Index) (p : List Bool) :
    (sym, p) ∈ s.codeWords ↔ ∃ y : Fin 257, sym.toNat = y.val ∧ s.lut[y].len ≠ 0#8 ∧ s.lut[y].code = p := by
  simp only [State.codeWords, List.mem_map, List.mem_filter, List.mem_finRange, true_and, decide_eq_true_eq,
    Prod.mk.injEq, ofNat_symbol_eq_iff, and_left_comm]

/-- LUT, entry by entry: the lengths in it are those of the code words. -/
theorem State.codeWords_weights (s : State) :
    (s.lut.toList.filter fun e => e.len ≠ 0#8).map (fun e => 2 ^ (255 - e.len.toNat)) =
      s.codeWords.map fun c => 2 ^ (255 - c.2.length) := by
  have hlut : s.lut.toList = (List.finRange 257).map fun y => s.lut[y] := by
    rw [← List.ofFn_eq_map, ← Vector.toList_ofFn]
    exact congrArg Vector.toList Vector.ofFn_getElem.symm
  rw [hlut, List.filter_map, State.codeWords, List.map_map, List.map_map]
  exact List.map_congr_left fun y _ => by simp only [Function.comp_apply, LutEntry.code_length]

/-- GENLUT's walk of the tree meets the code words of the table and no others, and they are complete (R504). -/
theorem LutOk.codeWords_perm (h : LutOk s) (ht : TreeOk s) :
    ∃ found, walk s.node (Config.lenMax + 1) s.root [] = .ok found ∧ s.codeWords.Perm found ∧
      (found.map fun c => 2 ^ (255 - c.2.length)).sum = 2 ^ 255 := by
  obtain ⟨found, hwalk, hmem, hnodup, hsum⟩ := ht.walk_root
  refine ⟨found, hwalk, (List.perm_ext_iff_of_nodup s.nodup_codeWords hnodup.of_map).2 fun ⟨y, p⟩ => ?_, hsum⟩
  rw [hmem, s.mem_codeWords]
  constructor
  · rintro ⟨z, hz, hcode⟩
    obtain ⟨i, hi, hsym, hp⟩ := (h.code_eq_iff ht z p).1 hcode
    exact ⟨i, hi, BitVec.eq_of_toNat_eq (hsym.trans hz.symm), hp⟩
  · rintro ⟨i, hi, rfl, hp⟩
    obtain ⟨-, -, -, -, hsym⟩ := ht.leaves i hi
    exact ⟨⟨s.node[i].sym.toNat, by omega⟩, rfl, (h.code_eq_iff ht _ p).2 ⟨i, hi, rfl, hp⟩⟩

end CodeWords

/-- Settles O31: where a code word begins another one, both lead to one leaf, and a leaf has one symbol. -/
theorem noCodeWordBeginsAnother : Obligations.NoCodeWordBeginsAnother := by
  intro s hs hlut y z hne hy hz hbegins
  have htree := hs.tree (hs.lutNeedsTree hlut)
  have hcount := htree.count
  obtain ⟨i, hi, hiy, hpath⟩ := ((hs.lut hlut).code_eq_iff htree y _).1 ⟨hy, rfl⟩
  obtain ⟨j, hj, hjz, hpath'⟩ := ((hs.lut hlut).code_eq_iff htree z _).1 ⟨hz, rfl⟩
  have hleaf := htree.leaf_of_begins hbegins hpath (by rw [BitVec.toNat_ofNat]; omega) hpath'
  have hij : i = j := by
    have := congrArg BitVec.toNat hleaf
    rw [BitVec.toNat_ofNat, BitVec.toNat_ofNat] at this
    exact Fin.ext (by omega)
  subst hij
  exact hne (Fin.ext (hiy.symm.trans hjz))

/-- Settles O32: the table's code words are the paths GENLUT's walk meets, and each internal node halves the weight of the
paths below it. -/
theorem codeWordsAreComplete : Obligations.CodeWordsAreComplete := by
  intro s hs hlut
  obtain ⟨found, -, hperm, hsum⟩ := (hs.lut hlut).codeWords_perm (hs.tree (hs.lutNeedsTree hlut))
  rw [s.codeWords_weights, (hperm.map _).sum_nat, hsum]

/-! ## LUT_RD (R510) -/

/-- Settles O33: the ways LUT_RD answers, and the part of the entry as a number or bit by bit. -/
theorem lutRdReadsOnePart : Obligations.LutRdReadsOnePart := by
  intro s idx arg
  refine ⟨decode_pattern_or_idx 0x7#4 idx arg rfl, fun hv => ?_, fun hv hr => ?_, fun hidx hv hsel => ?_⟩
  · exact exec_of_answers _ _ _ _ _ (.lutRdNotReady s idx arg hv)
  · exact exec_of_answers _ _ _ _ _ (.lutRdRange s idx arg hv (hr.imp_left (lutSymbol_of_gt idx)))
  · refine ⟨_, exec_of_answers _ _ _ _ _ (.lutRd s idx arg _ hv (lutSymbol_of_lt idx hidx) hsel), ?_, fun hne j hj => ?_⟩
    · rintro rfl
      exact lutField_len _
    · exact lutField_bit _ arg j (fun h8 => hne (BitVec.eq_of_toNat_eq h8)) hsel hj

/-! ## The writer of LUT (R500) -/

section Writer
variable {p : Params} {i : Instr} {s u : State} {c : Code} {d : Word}

/-- A command other than GENLUT leaves LUT. -/
theorem AnswersWith.lut_eq (h : AnswersWith p i s u c d) (hi : i ≠ .genlut) : u.lut = s.lut := by
  cases h with
  | genlut => exact absurd rfl hi
  | _ => rfl

/-- BUILD clears LUT_VALID, whether it finds symbols or not (R460, R462). -/
theorem AnswersWith.build_lutValid (h : AnswersWith p .build s u c d) : u.lutValid = false := by
  cases h <;> rfl

/-- A command other than GENLUT and BUILD leaves LUT_VALID. -/
theorem AnswersWith.lutValid_eq (h : AnswersWith p i s u c d) (hi : i ≠ .genlut) (hi' : i ≠ .build) :
    u.lutValid = s.lutValid := by
  cases h with
  | genlut => exact absurd rfl hi
  | build | buildEmpty => exact absurd rfl hi'
  | _ => rfl

end Writer

/-- Settles O42, by the frame lemmas on LUT and LUT_VALID; answering writes RSPCH only. -/
theorem onlyGenlutWritesTheLut : Obligations.OnlyGenlutWritesTheLut := by
  intro i s t h
  obtain ⟨u, c, d, ha, rfl⟩ := answers_of_exec i s t h
  refine ⟨ha.lut_eq, fun hi => ?_, ha.lutValid_eq⟩
  subst hi
  exact ha.build_lutValid

end Sys2Proof.Machine

/-! PROOFS of the statements of the encoder: ENC_START (O34), ENC_SYM (O35), and compressing a byte sequence (O55). -/

namespace Sys2Proof.Machine

/-! ## The two commands (R551, R560) -/

/-- Settles O34: its packet is one word whatever ARG holds, and the only way it completes clears ENC_ERR. -/
theorem encStartClearsTheError : Obligations.EncStartClearsTheError :=
  ⟨fun arg => ignoredArgDoesNotChangeDecoding _ 0#32 arg .encStart (decode_encode .encStart) rfl,
    fun s => exec_of_answers _ _ _ _ _ (.encStart s)⟩

/-- The bits of an entry's code word, BITS[0] first (R205). -/
theorem LutEntry.code_getElem? (e : LutEntry) {i : Nat} (h : i < e.len.toNat) : e.code[i]? = some (e.bits.getLsbD i) := by
  rw [LutEntry.code, List.getElem?_map, List.getElem?_range h, Option.map_some]

/-- The markers of an entry's code word: as many as LEN says, each by its bit of BITS. -/
theorem LutEntry.markers_spec (p : Params) (e : LutEntry) :
    (e.code.map (markerOf p)).length = e.len.toNat ∧
      ∀ i : Nat, i < e.len.toNat → (e.code.map (markerOf p))[i]? = some (markerOf p (e.bits.getLsbD i)) := by
  refine ⟨by rw [List.length_map, e.code_length], fun i hi => ?_⟩
  rw [List.getElem?_map, e.code_getElem? hi, Option.map_some]

/-- Settles O35: the five ways ENC_SYM completes, in the order of its checks; the bytes are the markers of the code word. -/
theorem encSymAppendsTheCodeWord : Obligations.EncSymAppendsTheCodeWord := by
  intro s idx
  refine ⟨fun arg => decode_pattern_or_idx 0x9#4 idx arg rfl, fun hv => ?_, fun hv hidx => ?_, fun hv hidx he => ?_,
    fun hidx hv he => ⟨fun hlen => ?_, fun hlen => ?_⟩⟩
  · exact exec_of_answers _ _ _ _ _ (.encSymNotReady s idx hv)
  · exact exec_of_answers _ _ _ _ _ (.encSymRange s idx hv (dataSymbol_of_gt idx hidx))
  · exact exec_of_answers _ _ _ _ _ (.encSymSticky s idx _ hv (dataSymbol_of_lt idx (Nat.lt_succ_of_le hidx)) he)
  · exact exec_of_answers _ _ _ _ _ (.encSymUnknown s idx _ hv (dataSymbol_of_lt idx hidx) he hlen)
  · obtain ⟨hcount, hbits⟩ := s.lut[idx.toNat].markers_spec Config.params
    exact ⟨_, exec_of_answers _ _ _ _ _ (.encSym s idx _ hv (dataSymbol_of_lt idx hidx) he hlen), hcount, hbits⟩

/-! ## Encoding a text (R561) -/

section Encoding
variable {s : State}

/-- The markers of a symbol's code word, as LUT has it. -/
def State.markersOf (s : State) (y : Fin 256) : List Byte := (s.entryOfSymbol y).code.map (markerOf Config.params)

/-- The markers of a text's code words, in order. -/
def State.markersOfText (s : State) (text : List Byte) : List Byte := text.flatMap fun c => s.markersOf c.toFin

theorem State.markersOf_length (s : State) (y : Fin 256) : (s.markersOf y).length = (s.entryOfSymbol y).len.toNat :=
  ((s.entryOfSymbol y).markers_spec Config.params).1

/-- The state with more bytes on BOUT and some more responses taken: what ENC_SYMs that answer OK leave. -/
def State.encodedTo (s : State) (bytes : List Byte) (taken : List Response) : State :=
  { s with bout := s.bout ++ bytes, rspTaken := s.rspTaken ++ taken }

@[simp] theorem State.encodedTo_encodedTo (s : State) (bytes bytes' : List Byte) (rs rs' : List Response) :
    (s.encodedTo bytes rs).encodedTo bytes' rs' = s.encodedTo (bytes ++ bytes') (rs ++ rs') := by
  simp [State.encodedTo]

/-- Taking the response of an ENC_SYM that appended bytes, on a block where no other response waits. -/
theorem took_emit (s : State) (hrsp : s.rspch = none) (bytes : List Byte) (c : Code) (d : Word) :
    took (s.emit bytes) c d = s.encodedTo bytes [⟨c, d⟩] := by
  simp only [took, State.emit, State.encodedTo, hrsp]

/-- A byte as the IDX of ENC_SYM is a data symbol. -/
theorem dataSymbol_setWidth (c : Byte) : dataSymbol (c.setWidth 9) = some c.toFin := by
  have hc : (c.setWidth 9).toNat = c.toNat := BitVec.toNat_setWidth_of_le (by decide)
  rw [dataSymbol_of_lt _ (hc ▸ c.isLt)]
  exact congrArg some (Fin.ext hc)

/-- The ENC_SYM of a symbol that has a code word answers OK and appends the code word's markers. -/
theorem run_encSym (c : Byte) (hready : s.ready = true) (hv : s.lutValid = true) (he : s.encErr = 0#4)
    (hlen : (s.entryOfSymbol c.toFin).len ≠ 0#8) :
    ∃ r : Response, r.code = 0#4 ∧
      runCommands (pseudoEncStr [c]) s = some ([r], s.encodedTo (s.markersOf c.toFin) [r]) := by
  obtain ⟨-, hrsp, -⟩ := s.ready_iff.1 hready
  refine ⟨⟨0#4, (s.entryOfSymbol c.toFin).len.setWidth 32⟩, rfl, ?_⟩
  rw [← took_emit s hrsp]
  exact run_one _ _ _ _ _ hready (.encSym s _ _ hv (dataSymbol_setWidth c) he hlen)

/-- The ENC_SYMs of a text whose symbols all have code words: every one answers OK, and the code words' markers are
appended in order. -/
theorem run_encode (text : List Byte) (hready : s.ready = true) (hv : s.lutValid = true) (he : s.encErr = 0#4)
    (hlen : ∀ c ∈ text, (s.entryOfSymbol c.toFin).len ≠ 0#8) :
    ∃ rs, (∀ r ∈ rs, r.code = 0#4) ∧
      runCommands (pseudoEncStr text) s = some (rs, s.encodedTo (s.markersOfText text) rs) := by
  induction text generalizing s with
  | nil => exact ⟨[], by simp, by simp [pseudoEncStr, runCommands, runBy, State.encodedTo, State.markersOfText]⟩
  | cons c text ih =>
    obtain ⟨hc, htext⟩ := List.forall_mem_cons.1 hlen
    obtain ⟨r, hr, hfirst⟩ := run_encSym c hready hv he hc
    obtain ⟨rs, hrs, hrest⟩ := ih (s := s.encodedTo (s.markersOf c.toFin) [r]) hready hv he htext
    rw [State.encodedTo_encodedTo] at hrest
    exact ⟨r :: rs, List.forall_mem_cons.2 ⟨hr, hrs⟩, run_append _ _ _ _ _ _ _ hfirst hrest⟩

end Encoding

/-! ## Preparing the block: BUILD, GENLUT, ENC_START (R740) -/

/-- The leaf of a symbol gives the symbol a code word (R126). -/
theorem LutOk.len_ne_zero {s : State} (h : LutOk s) (ht : TreeOk s) {i : Fin 511} (hi : i.val < s.leafCount.toNat)
    {y : Fin 257} (hsym : s.node[i].sym.toNat = y.val) : s.lut[y].len ≠ 0#8 := by
  obtain ⟨code, -, -, hpath, -⟩ := h.present i hi
  exact ((h.code_eq_iff ht y code).2 ⟨i, hi, hsym, hpath⟩).1

/-- `Built` reads NODE, LEAF_COUNT and ROOT only. -/
theorem Built.congr {freq : Vector Word 256} {leaves nodes : List Node} {s t : State} (b : Built freq leaves nodes s)
    (hnode : t.node = s.node) (hcount : t.leafCount = s.leafCount) (hroot : t.root = s.root) :
    Built freq leaves nodes t :=
  ⟨b.leavesOk, b.length, b.merges, hcount ▸ b.count, hroot ▸ b.rootIs, hnode ▸ b.holds⟩

/-- The block is prepared for a table of counts: FREQ holds the counts, NODE and LUT the tree and the code table made from
them, and the block is ready for a next command. -/
structure Prepared (freq : Vector Word 256) (t : State) : Prop where
  ready : t.ready = true
  freqIs : t.freq = freq
  treeValid : t.treeValid = true
  built : Built freq (withSynthetic (symbolLeaves freq)) (treeOver (withSynthetic (symbolLeaves freq))) t
  lutValid : t.lutValid = true
  lutOk : LutOk t

/-- In a prepared block every symbol that occurs has a code word: BUILD made it a leaf (R460). -/
theorem Prepared.len_ne_zero {freq : Vector Word 256} {t : State} (h : Prepared freq t) {y : Fin 256} (hy : freq[y] ≠ 0#32) :
    (t.entryOfSymbol y).len ≠ 0#8 := by
  obtain ⟨i, hi, hnode⟩ := h.built.exists_entry (h.built.leavesOk.complete y hy)
  refine h.lutOk.len_ne_zero h.built.treeOk hi ?_
  rw [hnode]
  exact (BitVec.toNat_ofNat _ _).trans (Nat.mod_eq_of_lt (by omega))

/-- ENC_SYMs leave a prepared block prepared. -/
theorem Prepared.encodedTo {freq : Vector Word 256} {t : State} (h : Prepared freq t) (bytes : List Byte)
    (rs : List Response) : Prepared freq (t.encodedTo bytes rs) where
  ready := h.ready
  freqIs := h.freqIs
  treeValid := h.treeValid
  built := h.built.congr rfl rfl rfl
  lutValid := h.lutValid
  lutOk := h.lutOk.congr rfl rfl rfl rfl

/-- Where a symbol occurs BUILD answers OK, leaves the tree of FREQ and appends nothing. -/
theorem answers_build_of_occurs {s : State} (hoccurs : ∃ y : Fin 256, s.freq[y] ≠ 0#32) :
    ∃ u d, Answers .build s u 0#4 d ∧ u.treeValid = true ∧ u.freq = s.freq ∧ u.bout = s.bout ∧
      Built s.freq (withSynthetic (symbolLeaves s.freq)) (treeOver (withSynthetic (symbolLeaves s.freq))) u := by
  obtain ⟨y, hy⟩ := hoccurs
  have hanswers := AnswersWith.build (p := Config.params) s fun hnil => hy ((buildLeaves_eq_nil s).1 hnil y)
  exact ⟨_, _, hanswers, rfl, rfl, rfl, (built_commit s ⟨y, hy⟩).congr rfl rfl rfl⟩

/-- Over a tree GENLUT answers OK and writes the tree's code table. -/
theorem answers_genlut_of_tree {s : State} (hv : s.treeValid = true) (ht : TreeOk s) :
    ∃ lut, Answers .genlut s (s.commitLut lut) 0#4 0#32 ∧ LutOk (s.commitLut lut) := by
  obtain ⟨found, hwalk, hlut⟩ := ht.genlut
  exact ⟨_, .genlut s found hv hwalk, hlut _ rfl rfl rfl rfl⟩

/-- BUILD, GENLUT and ENC_START over a table where a symbol occurs answer OK, append nothing and prepare the block. -/
theorem run_prepare {s : State} (hready : s.ready = true) (hoccurs : ∃ y : Fin 256, s.freq[y] ≠ 0#32) :
    ∃ rs t, runCommands [.build, .genlut, .encStart] s = some (rs, t) ∧ (∀ r ∈ rs, r.code = 0#4) ∧
      Prepared s.freq t ∧ t.encErr = 0#4 ∧ t.bout = s.bout := by
  obtain ⟨u, d, hbuild, hv, hfreq, hbout, b⟩ := answers_build_of_occurs hoccurs
  have hready₁ := hbuild.ready hready
  obtain ⟨lut, hgenlut, hlut⟩ := answers_genlut_of_tree (s := took u 0#4 d) hv (b.treeOk.congr rfl rfl rfl)
  have hready₂ := hgenlut.ready hready₁
  have hstart := AnswersWith.encStart (p := Config.params) (took ((took u 0#4 d).commitLut lut) 0#4 0#32)
  have hrun := run_cons _ _ _ _ _ _ _ _ hready₁ hgenlut (run_one _ _ _ _ _ hready₂ hstart)
  refine ⟨_, _, run_cons _ _ _ _ _ _ _ _ hready hbuild hrun, by simp, ?_, rfl, hbout⟩
  exact {
    ready := hstart.ready hready₂
    freqIs := hfreq
    treeValid := hv
    built := b.congr rfl rfl rfl
    lutValid := rfl
    lutOk := hlut.congr rfl rfl rfl rfl }

/-! ## Compressing a text (R561, R740) -/

/-- A byte of a text occurs in the host's counts. -/
theorem countsOf_ne_zero {text : List Byte} {c : Byte} (hc : c ∈ text) (hcount : text.count c < 2 ^ 32) :
    (countsOf text)[c.toFin] ≠ 0#32 := by
  have hsym : BitVec.ofNat 8 c.toFin.val = c := BitVec.eq_of_toNat_eq (Nat.mod_eq_of_lt c.isLt)
  have hcounts := countsOf_toNat text c.toFin (hsym.symm ▸ hcount)
  rw [hsym] at hcounts
  intro hzero
  rw [hzero] at hcounts
  exact (List.count_pos_iff.2 hc).ne hcounts

/-- A block stays ready while a table is loaded. -/
@[simp] theorem State.loadedTo_ready (s : State) (freq : Vector Word 256) (n : Nat) :
    (s.loadedTo freq n).ready = s.ready := rfl

@[simp] theorem State.loadedTo_bout (s : State) (freq : Vector Word 256) (n : Nat) :
    (s.loadedTo freq n).bout = s.bout := rfl

/-- Compressing a text that is not empty answers OK throughout, leaves the block prepared for the text's counts, and appends
the markers of the text's code words. -/
theorem run_compress (x : List Byte) {s : State} (hready : s.ready = true) (hne : x ≠ [])
    (hcount : ∀ y : Byte, x.count y < 2 ^ 32) :
    ∃ rs t, runCommands (compressCommands x) s = some (rs, t) ∧ (∀ r ∈ rs, r.code = 0#4) ∧ Prepared (countsOf x) t ∧
      t.bout = s.bout ++ t.markersOfText x := by
  have hoccurs : ∀ c ∈ x, (countsOf x)[c.toFin] ≠ 0#32 := fun c hc => countsOf_ne_zero hc (hcount c)
  obtain ⟨n, hload⟩ := run_loadTable (countsOf x) hready
  obtain ⟨c, hc⟩ := List.exists_mem_of_ne_nil x hne
  obtain ⟨rs, t, hrun, hok, hprep, he, hbout⟩ :=
    run_prepare (s := s.loadedTo (countsOf x) n) (by rwa [s.loadedTo_ready]) ⟨c.toFin, hoccurs c hc⟩
  obtain ⟨rs', hok', henc⟩ := run_encode x hprep.ready hprep.lutValid he fun c hc => hprep.len_ne_zero (hoccurs c hc)
  refine ⟨_, _, run_append _ _ _ _ _ _ _ (run_append _ _ _ _ _ _ _ hload hrun) henc, ?_, hprep.encodedTo _ _, ?_⟩
  · simp only [List.mem_append, List.mem_replicate]
    rintro r ((⟨-, rfl⟩ | hr) | hr)
    · rfl
    · exact hok r hr
    · exact hok' r hr
  · rw [s.loadedTo_bout] at hbout
    exact congrArg (· ++ t.markersOfText x) hbout

/-- How often a symbol occurs among a text's bytes. -/
theorem count_map_toFin (x : List Byte) (y : Fin 256) :
    (x.map BitVec.toFin).count y = x.count (BitVec.ofNat 8 y.val) := by
  have hy : (BitVec.ofNat 8 y.val).toFin = y := Fin.ext (Nat.mod_eq_of_lt y.isLt)
  have hinj : Function.Injective (BitVec.toFin (w := 8)) := fun _ _ => BitVec.eq_of_toFin_eq
  rw [← List.count_map_of_injective x _ hinj, hy]

/-- A sum over the bytes of a text, symbol by symbol: each symbol counts as often as it occurs. -/
theorem sum_map_eq_sum_count (x : List Byte) (f : Fin 256 → Nat) :
    (x.map fun c => f c.toFin).sum = ((List.finRange 256).map fun y => x.count (BitVec.ofNat 8 y.val) * f y).sum := by
  calc (x.map fun c => f c.toFin).sum
      = ((x.map BitVec.toFin).map f).sum := by rw [List.map_map]; rfl
    _ = ∑ y ∈ (x.map BitVec.toFin).toFinset, (x.map BitVec.toFin).count y • f y := Finset.sum_list_map_count _ f
    _ = ∑ y : Fin 256, (x.map BitVec.toFin).count y • f y :=
        Finset.sum_subset (Finset.subset_univ _) fun y _ hy => by
          rw [List.count_eq_zero.2 fun h => hy (List.mem_toFinset.2 h), zero_smul]
    _ = _ := by simp only [count_map_toFin, smul_eq_mul, Fin.sum_univ_def]

/-- How many bytes a text's markers are: a code word's length for each occurrence of its symbol. -/
theorem State.markersOfText_length (s : State) (x : List Byte) :
    (s.markersOfText x).length =
      ((List.finRange 256).map fun y => x.count (BitVec.ofNat 8 y.val) * (s.entryOfSymbol y).len.toNat).sum := by
  rw [State.markersOfText, List.length_flatMap]
  simp only [State.markersOf_length]
  exact sum_map_eq_sum_count x fun y => (s.entryOfSymbol y).len.toNat

/-- Settles O55: FREQ holds the text's counts, so every byte has a code word, and each symbol's code word is appended as often
as the symbol occurs. -/
theorem encodingASequenceAppendsItsCodeWords : Obligations.EncodingASequenceAppendsItsCodeWords := by
  intro x s hready hne hcount
  obtain ⟨rs, t, hrun, hok, hprep, hbout⟩ := run_compress x hready hne hcount
  refine ⟨rs, t, _, hrun, hok, hprep.lutValid, hbout, rfl, ?_⟩
  refine (t.markersOfText_length x).trans (congrArg List.sum ?_)
  refine List.map_congr_left fun y _ => ?_
  rw [hprep.freqIs, countsOf_toNat x y (hcount _)]
  rfl

end Sys2Proof.Machine

/-! PROOFS of the statements of the decoder: DEC_START (O36), DEC_BIT (O37), DEC_END (O38), the empty session (O39), a session
over any bytes (O54), and decompressing what compressing appended (O56). -/

namespace Sys2Proof.Machine

/-! ## The three commands (R601, R611, R612) -/

/-- Settles O36: its packet is one word whatever ARG holds, and it completes in one way only. -/
theorem decStartReturnsToTheRoot : Obligations.DecStartReturnsToTheRoot :=
  ⟨fun arg => ignoredArgDoesNotChangeDecoding _ 0#32 arg .decStart (decode_encode .decStart) rfl,
    fun s => exec_of_answers _ _ _ _ _ (.decStart s)⟩

/-- Settles O38: the four ways DEC_END completes, in the order of its checks. -/
theorem decEndChecksTheCursor : Obligations.DecEndChecksTheCursor :=
  ⟨fun arg => ignoredArgDoesNotChangeDecoding _ 0#32 arg .decEnd (decode_encode .decEnd) rfl, fun s =>
    ⟨fun hv => exec_of_answers _ _ _ _ _ (.decEndNotReady s hv),
      fun hv he => exec_of_answers _ _ _ _ _ (.decEndSticky s hv he),
      fun hv he hc => exec_of_answers _ _ _ _ _ (.decEndTruncated s hv he hc),
      fun hv he hc => exec_of_answers _ _ _ _ _ (.decEnd s hv he hc)⟩⟩

/-- The branch IDX stands for at this hardware's markers: 0x30 is LEFT, 0x31 is RIGHT, anything else none (R16, R611). -/
theorem branchOf_params (idx : Index) (h : idx.toNat ≤ 255) :
    branchOf Config.params (idx.setWidth 8) =
      if idx.toNat = 0x30 then some false else if idx.toNat = 0x31 then some true else none := by
  have hbyte (m : Byte) : idx.setWidth 8 = m ↔ idx.toNat = m.toNat := by
    rw [← BitVec.toNat_inj, BitVec.toNat_setWidth, Nat.mod_eq_of_lt (by omega)]
  simp only [branchOf, hbyte]
  rfl

/-- Settles O37: the six ways DEC_BIT completes, in the order of its checks; the child is on the branch the marker names. -/
theorem decBitWalksOneBranch : Obligations.DecBitWalksOneBranch := by
  intro s idx
  have hbyte (h : idx.toNat ≤ 255) := markerByte_of_lt idx (Nat.lt_succ_of_le h)
  refine ⟨fun arg => decode_pattern_or_idx 0xB#4 idx arg rfl, fun hv => ?_, fun hv hidx => ?_, fun hv hidx he => ?_,
    fun hv hidx he hl hr => ?_, fun here nxt hv he hhere hmark hnxt => ?_⟩
  · exact exec_of_answers _ _ _ _ _ (.decBitNotReady s idx hv)
  · exact exec_of_answers _ _ _ _ _ (.decBitRange s idx hv (markerByte_of_gt idx hidx))
  · exact exec_of_answers _ _ _ _ _ (.decBitSticky s idx _ hv (hbyte hidx) he)
  · have hbranch := branchOf_params idx hidx
    rw [if_neg hl, if_neg hr] at hbranch
    exact exec_of_answers _ _ _ _ _ (.decBitInvalid s idx _ hv (hbyte hidx) he hbranch)
  · have hidx : idx.toNat ≤ 255 := by omega
    obtain ⟨b, hbranch, hchild⟩ : ∃ b, branchOf Config.params (idx.setWidth 8) = some b ∧
        here.child b = if idx.toNat = 0x30 then here.left else here.right := by
      rw [branchOf_params idx hidx]
      rcases hmark with h | h <;> rw [h]
      · exact ⟨false, rfl, rfl⟩
      · exact ⟨true, rfl, rfl⟩
    have hdata : emitData nxt.sym = BitVec.ofNat 32 (2 ^ 9 + nxt.sym.toNat) :=
      BitVec.eq_of_toNat_eq (by rw [emitData_toNat, BitVec.toNat_ofNat]; omega)
    rw [← hchild] at hnxt ⊢
    rw [← hdata]
    refine ⟨fun hleaf => ?_, fun hleaf => ?_⟩
    · exact exec_of_answers _ _ _ _ _ (.decBitLeaf s idx _ b here nxt hv (hbyte hidx) he hbranch hhere hnxt hleaf)
    · exact exec_of_answers _ _ _ _ _ (.decBitInner s idx _ b here nxt hv (hbyte hidx) he hbranch hhere hnxt hleaf)

/-! ## Code words and what they spell (R206, R613) -/

section Spelling
variable {s : State}

/-- The branches `w` lead from ROOT to a leaf, whose symbol is `y`. -/
def State.Spells (s : State) (w : List Bool) (y : Index) : Prop :=
  ∃ i : Fin 511, i.val < s.leafCount.toNat ∧ s.descend s.root w = some (BitVec.ofNat 9 i.val) ∧ s.node[i].sym = y

/-- What code words spell is a matter of NODE, LEAF_COUNT and ROOT. -/
theorem State.Spells.congr {t : State} {w : List Bool} {y : Index} (h : s.Spells w y) (hnode : t.node = s.node)
    (hcount : t.leafCount = s.leafCount) (hroot : t.root = s.root) : t.Spells w y := by
  obtain ⟨i, hi, hpath, hsym⟩ := h
  exact ⟨i, hcount ▸ hi, by rw [descend_congr hnode, hroot, hpath], by rw [hnode, hsym]⟩

/-- An internal node is no leaf. -/
theorem TreeOk.node_of_inner (h : TreeOk s) {n : Index} (hn : s.innerAt n.toNat) :
    ∃ nd, s.nodeAt n = some nd ∧ nd.leaf = false := by
  have hlt : n.toNat < 511 := Nat.lt_succ_of_le (hn.2.trans h.root_le)
  obtain ⟨hleaf, -⟩ := h.inner ⟨n.toNat, hlt⟩ hn
  exact ⟨_, nodeAt_eq s n ⟨n.toNat, hlt⟩ rfl, hleaf⟩

/-- Any branches are code words and one code word left open, which leads to an internal node: each branch more goes on to
an internal node, or closes the open code word at a leaf. -/
theorem TreeOk.exists_words (h : TreeOk s) (marks : List Bool) :
    ∃ words ys left n, marks = words.flatten ++ left ∧ List.Forall₂ s.Spells words ys ∧
      s.descend s.root left = some n ∧ s.innerAt n.toNat := by
  induction marks using List.reverseRecOn with
  | nil => exact ⟨[], [], [], s.root, rfl, .nil, rfl, h.root_inner⟩
  | append_singleton marks b ih =>
    obtain ⟨words, ys, left, n, rfl, hwords, hleft, hn⟩ := ih
    obtain ⟨here, hhere, hinner⟩ := h.node_of_inner hn
    have hpath : s.descend s.root (left ++ [b]) = some (here.child b) := by
      rw [descend_append, hleft]
      exact (descend_single s n _ b).2 ⟨_, hhere, hinner, rfl⟩
    obtain ⟨j, hj, hnxt, ⟨hlt, -⟩ | ⟨hin, -⟩⟩ := h.entry _ (h.child_le_root hn hhere b)
    · have hspells : s.Spells (left ++ [b]) s.node[j].sym :=
        ⟨j, hlt, by rw [hpath, hj, BitVec.ofNat_toNat, BitVec.setWidth_eq], rfl⟩
      exact ⟨words ++ [left ++ [b]], ys ++ [s.node[j].sym], [], s.root, by simp,
        List.rel_append hwords (.cons hspells .nil), rfl, h.root_inner⟩
    · exact ⟨words, ys, left ++ [b], _, List.append_assoc _ _ _, hwords, hpath, hj ▸ hin⟩

end Spelling

/-! ## What responses emit (R611, R740) -/

theorem emittedSymbols_append (rs rs' : List Response) :
    emittedSymbols (rs ++ rs') = emittedSymbols rs ++ emittedSymbols rs' := List.filterMap_append

/-- A response without EMIT emits nothing. -/
theorem emittedSymbols_of_no_emit {c : Code} {d : Word} (h : d.getLsbD 9 = false) : emittedSymbols [⟨c, d⟩] = [] := by
  rw [emittedSymbols, List.filterMap_cons_none (by rw [h]; rfl), List.filterMap_nil]

/-- Responses without data emit nothing. -/
@[simp] theorem emittedSymbols_replicate (n : Nat) (c : Code) : emittedSymbols (List.replicate n ⟨c, 0#32⟩) = [] := by
  simp [emittedSymbols]

/-- The response that emits a symbol emits that symbol. -/
@[simp] theorem emittedSymbols_emitData (c : Code) (y : Index) : emittedSymbols [⟨c, emitData y⟩] = [y] := by
  have hemit : (emitData y).getLsbD 9 = true := BitVec.getLsbD_append
  have hsym : (emitData y).extractLsb' 0 9 = y := BitVec.extractLsb'_append_eq_right
  rw [emittedSymbols, List.filterMap_cons_some (by rw [hemit, hsym]; rfl), List.filterMap_nil]

/-! ## Runs of a decode session (R613) -/

section Sessions
variable {s : State}

@[simp] theorem State.decodedTo_descend (s : State) (n : Index) (taken : List Response) (m : Index) (path : List Bool) :
    (s.decodedTo n taken).descend m path = s.descend m path :=
  descend_congr (s := s) (t := s.decodedTo n taken) rfl path m

@[simp] theorem State.setDecErr_descend (s : State) (code : Code) (m : Index) (path : List Bool) :
    (s.setDecErr code).descend m path = s.descend m path :=
  descend_congr (s := s) (t := s.setDecErr code) rfl path m

/-- DEC_START puts CURSOR at ROOT and clears DEC_ERR, and the host takes its response. -/
theorem took_decStart (hrsp : s.rspch = none) :
    took ((s.setCursor s.root).setDecErr 0#4) 0#4 0#32 = (s.setDecErr 0#4).decodedTo s.root [⟨0#4, 0#32⟩] := by
  simp only [took, State.setCursor, State.setDecErr, State.decodedTo, hrsp]

/-- The markers of code words, from ROOT: every DEC_BIT answers OK, the symbols are emitted, and CURSOR is back at ROOT. -/
theorem run_decode_words {words : List (List Bool)} {ys : List Index} (h : List.Forall₂ s.Spells words ys)
    (ht : TreeOk s) (hready : s.ready = true) (hv : s.treeValid = true) (he : s.decErr = 0#4) (hcursor : s.cursor = s.root) :
    ∃ rs, rs.map Response.code = List.replicate words.flatten.length 0#4 ∧ emittedSymbols rs = ys ∧
      runCommands (decodeCommands words.flatten) s = some (rs, s.decodedTo s.root rs) := by
  induction words generalizing s ys with
  | nil =>
    cases h
    exact ⟨[], rfl, rfl, by rw [← hcursor, s.decodedTo_cursor]; rfl⟩
  | cons w words ih =>
    obtain ⟨y, ys, ⟨i, hi, hpath, hsym⟩, hwords, rfl⟩ := List.forall₂_cons_left_iff.1 h
    have hcount := ht.count
    have hnode := nodeAt_eq s (BitVec.ofNat 9 i.val) i (by rw [BitVec.toNat_ofNat]; omega)
    obtain ⟨hleaf, -⟩ := ht.leaves i hi
    obtain ⟨hpos, -⟩ := ht.leaf_depth i hi w hpath
    obtain ⟨rs, hrs, hfirst⟩ :=
      run_decode_leaf w hready hv he (List.length_pos_iff.1 hpos) (hcursor ▸ hpath) hnode hleaf
    obtain ⟨rs', hcodes, hemitted, hrest⟩ := ih (s := s.decodedTo s.root rs)
      (hwords.imp fun _ _ hw => hw.congr rfl rfl rfl) (ht.congr rfl rfl rfl) hready hv he rfl
    refine ⟨rs ++ rs', ?_, ?_, ?_⟩
    · rw [List.flatten_cons, List.map_append, hcodes, List.length_append, ← List.replicate_append_replicate, hrs,
        List.map_append, List.map_replicate, List.map_singleton, ← List.replicate_succ', Nat.sub_add_cancel hpos]
    · rw [emittedSymbols_append, hemitted, hrs, emittedSymbols_append, emittedSymbols_replicate, emittedSymbols_emitData,
        hsym]
      rfl
    · rw [List.flatten_cons, decodeCommands_append]
      rw [State.decodedTo_decodedTo] at hrest
      exact run_append _ _ _ _ _ _ _ hfirst hrest

/-- The markers of code words and of an open one, from ROOT: every DEC_BIT answers OK, the symbols of the code words are
emitted, and CURSOR stands where the open code word leads. -/
theorem run_decode_marks {words : List (List Bool)} {ys : List Index} {left : List Bool} {n : Index}
    (h : List.Forall₂ s.Spells words ys) (hleft : s.descend s.root left = some n) (hn : s.innerAt n.toNat) (ht : TreeOk s)
    (hready : s.ready = true) (hv : s.treeValid = true) (he : s.decErr = 0#4) (hcursor : s.cursor = s.root) :
    ∃ rs, rs.map Response.code = List.replicate (words.flatten ++ left).length 0#4 ∧ emittedSymbols rs = ys ∧
      runCommands (decodeCommands (words.flatten ++ left)) s = some (rs, s.decodedTo n rs) := by
  obtain ⟨rs, hcodes, hemitted, hwords⟩ := run_decode_words h ht hready hv he hcursor
  obtain ⟨nd, hnode, hinner⟩ := ht.node_of_inner hn
  have hpath : (s.decodedTo s.root rs).descend s.root left = some n := by
    rwa [State.decodedTo_descend]
  have hopen := run_decode_inner (s := s.decodedTo s.root rs) left hready hv he hpath hnode hinner
  rw [State.decodedTo_decodedTo] at hopen
  refine ⟨rs ++ List.replicate left.length ⟨0#4, 0#32⟩, ?_, ?_, ?_⟩
  · rw [List.map_append, hcodes, List.map_replicate, List.length_append, List.replicate_append_replicate]
  · rw [emittedSymbols_append, hemitted, emittedSymbols_replicate, List.append_nil]
  · rw [decodeCommands_append]
    exact run_append _ _ _ _ _ _ _ hwords hopen

/-- The same after a DEC_START, wherever CURSOR stood and whatever DEC_ERR recorded. -/
theorem run_decode_session {words : List (List Bool)} {ys : List Index} {left : List Bool} {n : Index}
    (h : List.Forall₂ s.Spells words ys) (hleft : s.descend s.root left = some n) (hn : s.innerAt n.toNat) (ht : TreeOk s)
    (hready : s.ready = true) (hv : s.treeValid = true) :
    ∃ rs, rs.map Response.code = List.replicate ((words.flatten ++ left).length + 1) 0#4 ∧ emittedSymbols rs = ys ∧
      runCommands (.decStart :: decodeCommands (words.flatten ++ left)) s =
        some (rs, (s.setDecErr 0#4).decodedTo n rs) := by
  obtain ⟨-, hrsp, -⟩ := s.ready_iff.1 hready
  have hpath : ((s.setDecErr 0#4).decodedTo s.root [⟨0#4, 0#32⟩]).descend s.root left = some n := by
    rwa [State.decodedTo_descend, State.setDecErr_descend]
  obtain ⟨rs, hcodes, hemitted, hmarks⟩ := run_decode_marks (h.imp fun _ _ hw => hw.congr rfl rfl rfl) hpath hn
    (ht.congr rfl rfl rfl) hready hv rfl rfl
  rw [State.decodedTo_decodedTo, ← took_decStart hrsp] at hmarks
  refine ⟨⟨0#4, 0#32⟩ :: rs, ?_, ?_, run_cons _ _ _ _ _ _ _ _ hready (.decStart s) hmarks⟩
  · rw [List.map_cons, hcodes, List.replicate_succ]
  · rw [← List.singleton_append, emittedSymbols_append, hemitted]
    rfl

/-- A session that ended with an error answers it to every later DEC_BIT of a byte and to DEC_END, and stands still (R711). -/
theorem run_sticky (commands : List Instr)
    (hcommands : ∀ i ∈ commands, i = .decEnd ∨ ∃ b : Byte, i = .decBit (b.setWidth 9))
    (hready : s.ready = true) (hv : s.treeValid = true) (he : s.decErr ≠ 0#4) :
    runCommands commands s = some (List.replicate commands.length ⟨s.decErr, 0#32⟩,
      s.decodedTo s.cursor (List.replicate commands.length ⟨s.decErr, 0#32⟩)) := by
  induction commands generalizing s with
  | nil => exact congrArg (fun u => some ([], u)) s.decodedTo_cursor.symm
  | cons i commands ih =>
    obtain ⟨hi, hcommands⟩ := List.forall_mem_cons.1 hcommands
    have hanswers : Answers i s s s.decErr 0#32 := by
      rcases hi with rfl | ⟨b, rfl⟩
      · exact .decEndSticky s hv he
      · exact .decBitSticky s _ b hv (markerByte_setWidth b) he
    obtain ⟨-, hrsp, -⟩ := s.ready_iff.1 hready
    have htook : took s s.decErr 0#32 = s.decodedTo s.cursor [⟨s.decErr, 0#32⟩] := took_setCursor s hrsp s.cursor _ _
    have hrest := ih (s := s.decodedTo s.cursor [⟨s.decErr, 0#32⟩]) hcommands hready hv he
    rw [State.decodedTo_decodedTo, ← htook] at hrest
    exact run_cons _ _ _ _ _ _ _ _ hready hanswers hrest

end Sessions

/-- Settles O39: DEC_START leaves CURSOR at ROOT and no error, which is what DEC_END asks for. -/
theorem emptyDecodeSessionIsOk : Obligations.EmptyDecodeSessionIsOk := by
  intro s hready hv
  have hstart := AnswersWith.decStart (p := Config.params) s
  have hend := run_one _ (took ((s.setCursor s.root).setDecErr 0#4) 0#4 0#32) _ _ _ (hstart.ready hready)
    (.decEnd _ hv rfl rfl)
  exact ⟨_, run_cons _ _ _ _ _ _ _ _ hready hstart hend, rfl, rfl, rfl⟩

/-! ## Sessions over any bytes (R613) -/

section AnyBytes
variable {s : State} {words : List (List Bool)} {ys : List Index} {left : List Bool} {n : Index}

/-- A path that is not empty leads away from ROOT. -/
theorem TreeOk.ne_root_of_path (h : TreeOk s) (hpath : s.descend s.root left = some n) (hne : left ≠ []) : n ≠ s.root := by
  rintro rfl
  have := (h.descend_le left _ _ (Nat.le_refl _) hpath).1
  have := List.length_pos_iff.2 hne
  omega

/-- A session whose markers are code words answers OK throughout and emits their symbols. -/
theorem run_closed_session (h : List.Forall₂ s.Spells words ys) (ht : TreeOk s) (hready : s.ready = true)
    (hv : s.treeValid = true) :
    ∃ rs t, runCommands (.decStart :: decodeCommands words.flatten ++ [.decEnd]) s = some (rs, t) ∧
      rs.map Response.code = List.replicate (words.flatten.length + 2) 0#4 ∧ emittedSymbols rs = ys ∧ t.cursor = s.root := by
  obtain ⟨rs, hcodes, hemitted, hrun⟩ := run_decode_session h (left := []) rfl ht.root_inner ht hready hv
  rw [List.append_nil] at hcodes hrun
  have hend := run_one _ ((s.setDecErr 0#4).decodedTo s.root rs) _ _ _ hready (.decEnd _ hv rfl rfl)
  refine ⟨_, _, run_append _ _ _ _ _ _ _ hrun hend, ?_, ?_, rfl⟩
  · rw [List.map_append, hcodes]
    exact List.replicate_succ'.symm
  · rw [emittedSymbols_append, hemitted]
    exact List.append_nil ys

/-- A session that leaves a code word open ends with TRUNCATED_INPUT. -/
theorem run_open_session (h : List.Forall₂ s.Spells words ys) (hleft : s.descend s.root left = some n)
    (hn : s.innerAt n.toNat) (hne : left ≠ []) (ht : TreeOk s) (hready : s.ready = true) (hv : s.treeValid = true) :
    ∃ rs t, runCommands (.decStart :: decodeCommands (words.flatten ++ left) ++ [.decEnd]) s = some (rs, t) ∧
      rs.map Response.code = List.replicate ((words.flatten ++ left).length + 1) 0#4 ++ [3#4] ∧
      emittedSymbols rs = ys ∧ t.cursor = n ∧ t.decErr = 3#4 := by
  obtain ⟨rs, hcodes, hemitted, hrun⟩ := run_decode_session h hleft hn ht hready hv
  have hend := run_one _ ((s.setDecErr 0#4).decodedTo n rs) _ _ _ hready
    (.decEndTruncated _ hv rfl (ht.ne_root_of_path hleft hne))
  refine ⟨_, _, run_append _ _ _ _ _ _ _ hrun hend, ?_, ?_, rfl, rfl⟩
  · rw [List.map_append, hcodes]
    rfl
  · rw [emittedSymbols_append, hemitted]
    exact List.append_nil ys

/-- A byte that is no marker ends a session without an error: it answers INVALID_BIT, and so does every later command. -/
theorem run_invalid (bad : Byte) (rest : List Byte) (hl : bad ≠ 0x30#8) (hr : bad ≠ 0x31#8) (hready : s.ready = true)
    (hv : s.treeValid = true) (he : s.decErr = 0#4) :
    ∃ t, runCommands (pseudoDecStr (bad :: rest) ++ [.decEnd]) s =
      some (List.replicate (rest.length + 2) ⟨2#4, 0#32⟩, t) ∧ t.cursor = s.cursor := by
  have hbranch : branchOf Config.params bad = none := (if_neg hl).trans (if_neg hr)
  have hbad := AnswersWith.decBitInvalid s _ bad hv (markerByte_setWidth bad) he hbranch
  have hlater : ∀ i ∈ pseudoDecStr rest ++ [.decEnd], i = .decEnd ∨ ∃ b : Byte, i = .decBit (b.setWidth 9) := by
    intro i hi
    rcases List.mem_append.1 hi with hi | hi
    · obtain ⟨b, -, rfl⟩ := List.mem_map.1 hi
      exact .inr ⟨b, rfl⟩
    · exact .inl (List.mem_singleton.1 hi)
  have hrest := run_sticky (s := took (s.setDecErr 2#4) 2#4 0#32) _ hlater (hbad.ready hready) hv
    (show 2#4 ≠ 0#4 by decide)
  rw [List.length_append, pseudoDecStr, List.length_map] at hrest
  exact ⟨_, run_cons _ _ _ _ _ _ _ _ hready hbad hrest, rfl⟩

/-- A session with a byte that is no marker answers OK before that byte and INVALID_BIT from it on. -/
theorem run_broken_session (bad : Byte) (rest : List Byte) (hl : bad ≠ 0x30#8) (hr : bad ≠ 0x31#8)
    (h : List.Forall₂ s.Spells words ys) (hleft : s.descend s.root left = some n) (hn : s.innerAt n.toNat) (ht : TreeOk s)
    (hready : s.ready = true) (hv : s.treeValid = true) :
    ∃ rs t, runCommands (.decStart :: decodeCommands (words.flatten ++ left) ++ pseudoDecStr (bad :: rest) ++ [.decEnd]) s =
        some (rs, t) ∧
      rs.map Response.code =
        List.replicate ((words.flatten ++ left).length + 1) 0#4 ++ List.replicate (rest.length + 2) 2#4 ∧
      emittedSymbols rs = ys ∧ t.cursor = n := by
  obtain ⟨rs, hcodes, hemitted, hrun⟩ := run_decode_session h hleft hn ht hready hv
  obtain ⟨t, hbad, hcursor⟩ :=
    run_invalid (s := (s.setDecErr 0#4).decodedTo n rs) bad rest hl hr hready hv rfl
  have hall := run_append _ _ _ _ _ _ _ hrun hbad
  rw [← List.append_assoc] at hall
  refine ⟨_, t, hall, ?_, ?_, hcursor⟩
  · rw [List.map_append, hcodes, List.map_replicate]
  · rw [emittedSymbols_append, hemitted, emittedSymbols_replicate, List.append_nil]

end AnyBytes

/-- Settles O54: the markers are code words and one left open, and the session ends as that one is empty, is not, or is cut
short by a byte that is no marker. -/
theorem decodingASequence : Obligations.DecodingASequence := by
  intro s marks hs hready hv
  have ht := hs.tree hv
  obtain ⟨words, ys, left, n, rfl, hwords, hleft, hn⟩ := ht.exists_words marks
  refine ⟨?_, fun bad rest hl hr => ?_⟩
  · by_cases hne : left = []
    · subst hne
      obtain ⟨rs, t, hrun, hcodes, rfl, hcursor⟩ := run_closed_session hwords ht hready hv
      rw [List.append_nil]
      exact ⟨rs, t, words, [], hrun, (List.append_nil _).symm, congrArg some hcursor.symm, hcursor ▸ ht.root_inner, hwords,
        .inl ⟨rfl, hcodes⟩⟩
    · obtain ⟨rs, t, hrun, hcodes, rfl, rfl, herr⟩ := run_open_session hwords hleft hn hne ht hready hv
      exact ⟨rs, t, words, left, hrun, rfl, hleft, hn, hwords, .inr ⟨hne, hcodes, herr⟩⟩
  · obtain ⟨rs, t, hrun, hcodes, rfl, rfl⟩ := run_broken_session bad rest hl hr hwords hleft hn ht hready hv
    exact ⟨rs, t, words, left, hrun, rfl, hleft, hn, hwords, hcodes⟩

/-! ## Decompressing what compressing appended (R616, R740) -/

section RoundTrip
variable {s t : State}

/-- Two states whose valid regions agree have the same paths. -/
theorem TreeOk.descend_of_agree (h : TreeOk s) (hnode : ∀ i : Fin 511, i.val ≤ s.root.toNat → s.node[i] = t.node[i])
    (path : List Bool) {n : Index} (hn : n.toNat ≤ s.root.toNat) : t.descend n path = s.descend n path := by
  induction path generalizing n with
  | nil => rfl
  | cons b path ih =>
    obtain ⟨i, hi, hs, hkind⟩ := h.entry n hn
    have ht : t.nodeAt n = some s.node[i] := (nodeAt_eq t n i hi.symm).trans (congrArg some (hnode i (hi ▸ hn)).symm)
    rcases hkind with ⟨-, hleaf⟩ | ⟨hin, -⟩
    · simp only [State.descend, hs, ht, hleaf, if_true]
    · simp only [State.descend, hs, ht, ih (h.child_le_root (hi ▸ hin) hs b)]

/-- What the tree of one block spells, the tree made from the same counts in any other block spells too (R463). -/
theorem Built.spells {freq : Vector Word 256} {leaves nodes : List Node} (b : Built freq leaves nodes s)
    (b' : Built freq leaves nodes t) {w : List Bool} {y : Index} (h : s.Spells w y) : t.Spells w y := by
  obtain ⟨hcount, hroot, hnode⟩ := b.agree b'
  obtain ⟨i, hi, hpath, hsym⟩ := h
  have hle : i.val ≤ s.root.toNat := by
    have := b.treeOk.count; have := b.treeOk.rootIs
    omega
  refine ⟨i, hcount ▸ hi, ?_, by rw [← hnode i hle, hsym]⟩
  rw [← hroot, b.treeOk.descend_of_agree hnode w (Nat.le_refl _), hpath]

/-- The code word of a data symbol, as LUT has it. -/
def State.codeOf (s : State) (c : Byte) : List Bool := (s.entryOfSymbol c.toFin).code

/-- The DEC_BITs of a text's markers are those of its code words. -/
theorem decodeCommands_codes (s : State) (x : List Byte) :
    pseudoDecStr (s.markersOfText x) = decodeCommands (x.map s.codeOf).flatten := by
  rw [pseudoDecStr, State.markersOfText, decodeCommands, ← List.flatMap_def, List.map_flatMap, List.map_flatMap]
  simp only [State.markersOf, State.codeOf, List.map_map, Function.comp_def]

/-- In a prepared block the code word of a symbol that occurs spells that symbol. -/
theorem Prepared.spells {freq : Vector Word 256} (h : Prepared freq t) {c : Byte} (hc : freq[c.toFin] ≠ 0#32) :
    t.Spells (t.codeOf c) (c.setWidth 9) := by
  obtain ⟨i, hi, hsym, hpath⟩ :=
    (h.lutOk.code_eq_iff h.built.treeOk (c.toFin.castLE (by decide)) (t.codeOf c)).1 ⟨h.len_ne_zero hc, rfl⟩
  have hwide : (c.setWidth 9).toNat = c.toNat := BitVec.toNat_setWidth_of_le (by decide)
  exact ⟨i, hi, hpath, BitVec.eq_of_toNat_eq (hsym.trans hwide.symm)⟩

/-- In a prepared block the code words of a text spell the text. -/
theorem Prepared.spells_text {freq : Vector Word 256} (h : Prepared freq t) {x : List Byte}
    (hx : ∀ c ∈ x, freq[c.toFin] ≠ 0#32) : List.Forall₂ t.Spells (x.map t.codeOf) (x.map (·.setWidth 9)) := by
  rw [List.forall₂_map_left_iff, List.forall₂_map_right_iff, List.forall₂_same]
  exact fun c hc => h.spells (hx c hc)

/-- BUILD's result word has no EMIT bit. -/
theorem buildData_not_emit (leafCount root : Index) : (buildData leafCount root).getLsbD 9 = false := by
  rw [buildData, BitVec.getLsbD_append, if_neg (by decide), BitVec.getLsbD_append]
  rfl

/-- Loading counts and BUILD answer OK, emit nothing, and leave a ready block whose tree is the one of the counts. -/
theorem run_load_build (freq : Vector Word 256) (hready : s.ready = true) (hoccurs : ∃ y : Fin 256, freq[y] ≠ 0#32) :
    ∃ rs t, runCommands (loadTable freq ++ [.build]) s = some (rs, t) ∧ (∀ r ∈ rs, r.code = 0#4) ∧ emittedSymbols rs = [] ∧
      t.ready = true ∧ t.treeValid = true ∧
      Built freq (withSynthetic (symbolLeaves freq)) (treeOver (withSynthetic (symbolLeaves freq))) t := by
  obtain ⟨n, hload⟩ := run_loadTable freq hready
  obtain ⟨y, hy⟩ := hoccurs
  have hbuild := AnswersWith.build (p := Config.params) (s.loadedTo freq n)
    fun hnil => hy ((buildLeaves_eq_nil (s.loadedTo freq n)).1 hnil y)
  refine ⟨_, _, run_append _ _ _ _ _ _ _ hload (run_one _ _ _ _ _ hready hbuild), ?_, ?_, hbuild.ready hready, rfl,
    (built_commit (s.loadedTo freq n) ⟨y, hy⟩).congr rfl rfl rfl⟩
  · simp only [List.mem_append, List.mem_replicate, List.mem_singleton]
    rintro r (⟨-, rfl⟩ | rfl) <;> rfl
  · rw [emittedSymbols_append, emittedSymbols_replicate, emittedSymbols_of_no_emit (buildData_not_emit _ _)]
    rfl

/-- A session whose markers are code words answers OK to every command. -/
theorem run_closed_session_ok {words : List (List Bool)} {ys : List Index} (h : List.Forall₂ s.Spells words ys)
    (ht : TreeOk s) (hready : s.ready = true) (hv : s.treeValid = true) :
    ∃ rs t, runCommands (.decStart :: decodeCommands words.flatten ++ [.decEnd]) s = some (rs, t) ∧
      (∀ r ∈ rs, r.code = 0#4) ∧ emittedSymbols rs = ys := by
  obtain ⟨rs, t, hrun, hcodes, hemitted, -⟩ := run_closed_session h ht hready hv
  exact ⟨rs, t, hrun, fun r hr => List.eq_of_mem_replicate (hcodes ▸ List.mem_map_of_mem hr), hemitted⟩

/-- Decompressing, in any ready block, the markers of a text's code words of a prepared block, with the counts that block was
prepared for: every command answers OK and the text is emitted. -/
theorem Prepared.run_decompress {freq : Vector Word 256} (h : Prepared freq t) {x : List Byte} (hne : x ≠ [])
    (hx : ∀ c ∈ x, freq[c.toFin] ≠ 0#32) (hready : s.ready = true) :
    ∃ rs u, runCommands (decompressCommands freq (t.markersOfText x)) s = some (rs, u) ∧
      (∀ r ∈ rs, r.code = 0#4) ∧ emittedSymbols rs = x.map (·.setWidth 9) := by
  obtain ⟨c, hc⟩ := List.exists_mem_of_ne_nil x hne
  obtain ⟨rs, v, hload, hok, hnone, hready', hv, b⟩ := run_load_build freq hready ⟨c.toFin, hx c hc⟩
  obtain ⟨rs', u, hdecode, hok', hemitted⟩ :=
    run_closed_session_ok ((h.spells_text hx).imp fun _ _ hw => h.built.spells b hw) b.treeOk hready' hv
  have hrun := run_append _ _ _ _ _ _ _ hload hdecode
  refine ⟨_, u, ?_, fun r hr => (List.mem_append.1 hr).elim (hok r) (hok' r), ?_⟩
  · rw [← hrun, decompressCommands, decodeCommands_codes]
    simp only [List.append_assoc, List.cons_append, List.nil_append]
  · rw [emittedSymbols_append, hnone, hemitted, List.nil_append]

end RoundTrip

/-- Settles O56: compressing leaves a prepared block, whose code words spell the text in that block and in any block with the
tree of the same counts. -/
theorem decompressInvertsCompress : Obligations.DecompressInvertsCompress := by
  intro x s hready hne hcount
  obtain ⟨rs, t, hrun, hok, hprep, hbout⟩ := run_compress x hready hne hcount
  have hoccurs : ∀ c ∈ x, (countsOf x)[c.toFin] ≠ 0#32 := fun c hc => countsOf_ne_zero hc (hcount c)
  refine ⟨rs, t, t.markersOfText x, hrun, hok, hbout, ?_, fun u hu => hprep.run_decompress hne hoccurs hu⟩
  rw [decodeCommands_codes]
  exact run_closed_session_ok (hprep.spells_text hoccurs) hprep.built.treeOk hprep.ready hprep.treeValid

end Sys2Proof.Machine

/-! PROOFS of the statements of control: NOP (O14) and STATUS_RD (O15). -/

namespace Sys2Proof.Machine

/-! ## A field of a word, from its number (R145) -/

theorem getLsbD_of_toNat {w i : Nat} {d : BitVec w} {b : Bool} (h : d.toNat / 2 ^ i % 2 = b.toNat) : d.getLsbD i = b := by
  rw [BitVec.getLsbD, Nat.testBit_eq_decide_div_mod_eq, h]
  cases b <;> rfl

theorem extractLsb'_of_toNat {w i n : Nat} {d : BitVec w} {v : BitVec n} (h : d.toNat / 2 ^ i % 2 ^ n = v.toNat) :
    d.extractLsb' i n = v :=
  BitVec.eq_of_toNat_eq (by rw [BitVec.extractLsb'_toNat, Nat.shiftRight_eq_div_pow, h])

/-! ## The two commands (R650, R651) -/

/-- Settles O14: its packet is one word whatever ARG holds, and it completes in one way only. -/
theorem nopChangesNothing : Obligations.NopChangesNothing :=
  ⟨fun arg => ignoredArgDoesNotChangeDecoding _ 0#32 arg .nop (decode_encode .nop) rfl,
    fun s => exec_of_answers _ _ _ _ _ (.nop s)⟩

/-- Settles O15: DATA is the sum of its fields, each at its place, so every field is a digit of that sum. -/
theorem statusRdReadsEveryField : Obligations.StatusRdReadsEveryField := by
  refine ⟨fun arg => ignoredArgDoesNotChangeDecoding _ 0#32 arg .statusRd (decode_encode .statusRd) rfl, fun s =>
    ⟨s.status, exec_of_answers _ _ _ _ _ (.statusRd s), ?_⟩⟩
  have hsum := s.status_toNat
  have htree := s.treeValid.toNat_le
  have hlut := s.lutValid.toNat_le
  have hroot := s.decAtRoot.toNat_le
  have hatRoot : s.decAtRoot = (s.treeValid && s.cursor == s.root) := rfl
  rw [← hatRoot]
  refine ⟨getLsbD_of_toNat ?treeValid, getLsbD_of_toNat ?lutValid, getLsbD_of_toNat ?atRoot, getLsbD_of_toNat ?bit3,
    extractLsb'_of_toNat ?decErr, extractLsb'_of_toNat ?encErr, extractLsb'_of_toNat ?leafCount,
    extractLsb'_of_toNat ?cursor, extractLsb'_of_toNat ?high⟩
  case bit3 => rw [Bool.toNat_false]; omega
  case high => rw [BitVec.toNat_ofNat]; omega
  all_goals omega

end Sys2Proof.Machine

/-! PROOFS of the statements of exceptions: when a command answers NOT_READY (O46) and RANGE (O47), the sticky session
errors (O49), the block that waits (O10), and the order of the checks (O50). -/

namespace Sys2Proof.Machine

/-! ## The step of a block with nothing to do (R769, R823) -/

/-- A core in RESET, behind a response or without a packet leaves the step to the host (R163, R164). -/
theorem step_eq_hostStep {s : State} (h : s.resetIn = true ∨ s.rspch ≠ none ∨ s.cmdch = []) : step s = hostStep s := by
  rcases stepBy_cases exec s with ⟨q, rest, hout, hrsp, hcmd, -⟩ | ⟨-, he⟩
  · simp [hout, hrsp, hcmd] at h
  · exact he

theorem hostStep_of_no_move {s : State} (h : s.hostMoves = []) :
    hostStep s = if s.rspch.isSome then .fault .stuck else .next s := by
  simp only [hostStep, h]

/-- Settles O10: the step is the host's, who has no move left. -/
theorem waitingBlockHoldsItsState : Obligations.WaitingBlockHoldsItsState := by
  refine ⟨fun s hrsp hmoves hidle => ?_, fun s r hrsp hmoves => ?_⟩
  · rw [step_eq_hostStep (hidle.imp_right .inr), hostStep_of_no_move hmoves, hrsp]
    rfl
  · rw [step_eq_hostStep (.inr (.inl (by simp [hrsp]))), hostStep_of_no_move hmoves, hrsp]
    rfl

/-! ## What an answer tells of the command (R311) -/

/-- The way in which a command that answers code `c` completed. -/
theorem answers_of_code {i : Instr} {s t : State} {c : Code} (h : exec i s = .next t) (hr : ∃ d, t.rspch = some ⟨c, d⟩) :
    ∃ u d, Answers i s u c d := by
  obtain ⟨u, c', d', ha, rfl⟩ := answers_of_exec i s t h
  obtain ⟨d, hd⟩ := hr
  obtain ⟨rfl, rfl⟩ := Response.mk.inj (Option.some.inj hd)
  exact ⟨u, d', ha⟩

/-- A sticky decode error is INVALID_BIT or TRUNCATED_INPUT, so no code after UNKNOWN_SYMBOL (R131). -/
theorem InvWith.decErr_ne {p : Params} {s : State} {c : Code} (h : InvWith p s) (hc : 4 < c.toNat) : s.decErr ≠ c := by
  rintro rfl
  rcases h.decErr with e | e | e <;> simp [e] at hc

/-- A sticky encode error is UNKNOWN_SYMBOL, so no code after it (R135). -/
theorem InvWith.encErr_ne {p : Params} {s : State} {c : Code} (h : InvWith p s) (hc : 4 < c.toNat) : s.encErr ≠ c := by
  rintro rfl
  rcases h.encErr with e | e <;> simp [e] at hc

/-! ## NOT_READY (R705) -/

/-- The commands that need TREE_VALID = 1 (R705). -/
def NeedsTree : Instr → Prop
  | .genlut | .nodeRd _ _ | .decBit _ | .decEnd => True
  | _ => False

/-- The commands that need LUT_VALID = 1 (R705). -/
def NeedsLut : Instr → Prop
  | .lutRd _ _ | .encSym _ => True
  | _ => False

/-- The command needs a tree or a LUT that the state does not have. -/
def State.Lacks (s : State) (i : Instr) : Prop :=
  (s.treeValid = false ∧ NeedsTree i) ∨ (s.lutValid = false ∧ NeedsLut i)

theorem needsTree_iff (i : Instr) :
    NeedsTree i ↔ i = .genlut ∨ (∃ idx arg, i = .nodeRd idx arg) ∨ (∃ idx, i = .decBit idx) ∨ i = .decEnd := by
  unfold NeedsTree
  cases i <;> simp

theorem needsLut_iff (i : Instr) : NeedsLut i ↔ (∃ idx arg, i = .lutRd idx arg) ∨ ∃ idx, i = .encSym idx := by
  unfold NeedsLut
  cases i <;> simp

/-- A command that lacks what it needs answers NOT_READY and changes nothing, whatever its operands are. -/
theorem exec_of_lacks {s : State} {i : Instr} (h : s.Lacks i) : exec i s = .next (s.respond 5#4 0#32) := by
  refine exec_of_answers _ _ _ _ _ ?_
  rcases h with ⟨hv, hi⟩ | ⟨hv, hi⟩
  · rcases (needsTree_iff i).1 hi with rfl | ⟨idx, arg, rfl⟩ | ⟨idx, rfl⟩ | rfl
    · exact .genlutNotReady s hv
    · exact .nodeRdNotReady s idx arg hv
    · exact .decBitNotReady s idx hv
    · exact .decEndNotReady s hv
  · rcases (needsLut_iff i).1 hi with ⟨idx, arg, rfl⟩ | ⟨idx, rfl⟩
    · exact .lutRdNotReady s idx arg hv
    · exact .encSymNotReady s idx hv

/-- A command that answers NOT_READY lacks what it needs, unless it repeats a sticky error that is NOT_READY. -/
theorem AnswersWith.lacks_or_sticky {p : Params} {i : Instr} {s u : State} {c : Code} {d : Word}
    (h : AnswersWith p i s u c d) (hc : c = 5#4) :
    s.Lacks i ∨ (s.decErr = 5#4 ∧ NeedsTree i) ∨ (s.encErr = 5#4 ∧ NeedsLut i) := by
  cases h with
  | genlutNotReady _ hv | nodeRdNotReady _ _ _ hv | decBitNotReady _ _ hv | decEndNotReady _ hv =>
    exact .inl (.inl ⟨hv, trivial⟩)
  | lutRdNotReady _ _ _ hv | encSymNotReady _ _ hv => exact .inl (.inr ⟨hv, trivial⟩)
  | decBitSticky | decEndSticky => exact .inr (.inl ⟨hc, trivial⟩)
  | encSymSticky => exact .inr (.inr ⟨hc, trivial⟩)
  | _ => exact absurd hc (by decide)

/-- Under the invariant no sticky error is NOT_READY (R131, R135). -/
theorem AnswersWith.lacks {p : Params} {i : Instr} {s u : State} {c : Code} {d : Word} (h : AnswersWith p i s u c d)
    (hs : InvWith p s) (hc : c = 5#4) : s.Lacks i := by
  rcases h.lacks_or_sticky hc with hl | ⟨he, -⟩ | ⟨he, -⟩
  · exact hl
  · exact absurd he (hs.decErr_ne (by decide))
  · exact absurd he (hs.encErr_ne (by decide))

/-- Settles O46: a command that lacks what it needs answers NOT_READY, and one that answers NOT_READY lacks it or repeats a
sticky error, which under the invariant is no NOT_READY. -/
theorem notReadyExactlyWhereTheRuleSays : Obligations.NotReadyExactlyWhereTheRuleSays := by
  intro s
  refine ⟨fun hv i hi => exec_of_lacks (.inl ⟨hv, (needsTree_iff i).2 hi⟩),
    fun hv i hi => exec_of_lacks (.inr ⟨hv, (needsLut_iff i).2 hi⟩), fun i t h hr => ?_, fun hs i t h => ?_⟩
  · obtain ⟨u, d, ha⟩ := answers_of_code h hr
    have hneeds : NeedsTree i ∨ NeedsLut i := by
      rcases ha.lacks_or_sticky rfl with (⟨-, hi⟩ | ⟨-, hi⟩) | ⟨-, hi⟩ | ⟨-, hi⟩
      exacts [.inl hi, .inr hi, .inl hi, .inr hi]
    simpa only [needsTree_iff, needsLut_iff, or_assoc] using hneeds
  · rw [← needsTree_iff, ← needsLut_iff]
    refine ⟨fun hr => ?_, fun hl => ?_⟩
    · obtain ⟨u, d, ha⟩ := answers_of_code h hr
      exact ha.lacks hs rfl
    · obtain rfl := Host.Outcome.next.inj (h.symm.trans (exec_of_lacks hl))
      exact ⟨0#32, rfl⟩

/-! ## RANGE (R706) -/

/-- The command has what it needs, and an operand out of its range; at W_F = 32 every count fits (R706). -/
def State.OutOfRange (s : State) : Instr → Prop
  | .freqWr idx _ => 255 < idx.toNat
  | .freqRd idx => 255 < idx.toNat
  | .encSym idx => s.lutValid = true ∧ 255 < idx.toNat
  | .decBit idx => s.treeValid = true ∧ 255 < idx.toNat
  | .nodeRd idx arg => s.treeValid = true ∧ (s.root.toNat < idx.toNat ∨ 3 < arg.toNat)
  | .lutRd idx arg => s.lutValid = true ∧ (256 < idx.toNat ∨ 8 < arg.toNat)
  | _ => False

theorem State.outOfRange_iff (s : State) (i : Instr) :
    s.OutOfRange i ↔
      (∃ idx arg, i = .freqWr idx arg ∧ 255 < idx.toNat) ∨ (∃ idx, i = .freqRd idx ∧ 255 < idx.toNat) ∨
      (∃ idx, i = .encSym idx ∧ s.lutValid = true ∧ 255 < idx.toNat) ∨
      (∃ idx, i = .decBit idx ∧ s.treeValid = true ∧ 255 < idx.toNat) ∨
      (∃ idx arg, i = .nodeRd idx arg ∧ s.treeValid = true ∧ (s.root.toNat < idx.toNat ∨ 3 < arg.toNat)) ∨
      (∃ idx arg, i = .lutRd idx arg ∧ s.lutValid = true ∧ (256 < idx.toNat ∨ 8 < arg.toNat)) := by
  unfold State.OutOfRange
  cases i <;> simp

theorem dataSymbol_eq_none (idx : Index) : dataSymbol idx = none ↔ 255 < idx.toNat := by
  simp only [dataSymbol, dite_eq_right_iff, reduceCtorEq, imp_false, Nat.not_lt, Nat.succ_le_iff]

theorem lutSymbol_eq_none (idx : Index) : lutSymbol idx = none ↔ 256 < idx.toNat := by
  simp only [lutSymbol, dite_eq_right_iff, reduceCtorEq, imp_false, Nat.not_lt, Nat.succ_le_iff]

theorem markerByte_eq_none (idx : Index) : markerByte idx = none ↔ 255 < idx.toNat := by
  simp only [markerByte, ite_eq_right_iff, reduceCtorEq, imp_false, Nat.not_lt, Nat.succ_le_iff]

theorem nodeOperandsInRange_eq_false (s : State) (idx : Index) (arg : Word) :
    nodeOperandsInRange s idx arg = false ↔ s.root.toNat < idx.toNat ∨ 3 < arg.toNat := by
  rw [Bool.eq_false_iff, ne_eq, nodeOperandsInRange_iff]
  omega

/-- A command with an operand out of range answers RANGE and changes nothing, a sticky error or not. -/
theorem exec_of_outOfRange {s : State} {i : Instr} (h : s.OutOfRange i) : exec i s = .next (s.respond 7#4 0#32) := by
  refine exec_of_answers _ _ _ _ _ ?_
  rcases (s.outOfRange_iff i).1 h with ⟨idx, arg, rfl, hr⟩ | ⟨idx, rfl, hr⟩ | ⟨idx, rfl, hv, hr⟩ | ⟨idx, rfl, hv, hr⟩ |
    ⟨idx, arg, rfl, hv, hr⟩ | ⟨idx, arg, rfl, hv, hr⟩
  · exact .freqWrRange s idx arg (.inl (dataSymbol_of_gt idx hr))
  · exact .freqRdRange s idx (dataSymbol_of_gt idx hr)
  · exact .encSymRange s idx hv (dataSymbol_of_gt idx hr)
  · exact .decBitRange s idx hv (markerByte_of_gt idx hr)
  · exact .nodeRdRange s idx arg hv ((nodeOperandsInRange_eq_false s idx arg).2 hr)
  · exact .lutRdRange s idx arg hv (hr.imp_left (lutSymbol_of_gt idx))

/-- Under the invariant a command that answers RANGE has an operand out of range: no sticky error is RANGE (R131, R135). -/
theorem AnswersWith.outOfRange {i : Instr} {s u : State} {c : Code} {d : Word} (h : Answers i s u c d) (hs : Inv s)
    (hc : c = 7#4) : s.OutOfRange i := by
  cases h with
  | freqWrRange _ idx arg hr =>
    exact (dataSymbol_eq_none idx).1 (hr.resolve_right (Bool.eq_false_iff.not_left.2 (countFits_params arg)))
  | freqRdRange _ idx hr => exact (dataSymbol_eq_none idx).1 hr
  | encSymRange _ idx hv hr => exact ⟨hv, (dataSymbol_eq_none idx).1 hr⟩
  | decBitRange _ idx hv hr => exact ⟨hv, (markerByte_eq_none idx).1 hr⟩
  | nodeRdRange _ idx arg hv hr => exact ⟨hv, (nodeOperandsInRange_eq_false s idx arg).1 hr⟩
  | lutRdRange _ idx arg hv hr => exact ⟨hv, hr.imp_left (lutSymbol_eq_none idx).1⟩
  | decBitSticky | decEndSticky => exact absurd hc (hs.decErr_ne (by decide))
  | encSymSticky => exact absurd hc (hs.encErr_ne (by decide))
  | _ => exact absurd hc (by decide)

/-- A well-formed command has no operand out of range but NODE_RD's index above ROOT (R303). -/
theorem State.OutOfRange.nodeRd_of_wellFormed {s : State} {i : Instr} (h : s.OutOfRange i) (hwf : i.wellFormed = true) :
    ∃ idx arg, i = .nodeRd idx arg ∧ s.root.toNat < idx.toNat := by
  cases i with
  | nodeRd idx arg =>
    obtain ⟨-, hr⟩ := h
    simp only [Instr.wellFormed, Instr.wellFormedWith, Bool.and_eq_true, decide_eq_true_eq] at hwf
    exact ⟨idx, arg, rfl, by omega⟩
  | freqWr | freqRd | encSym | decBit | lutRd =>
    simp only [State.OutOfRange, Instr.wellFormed, Instr.wellFormedWith, Bool.and_eq_true, decide_eq_true_eq] at h hwf
    omega
  | _ => exact h.elim

/-- Settles O47: an operand out of range is what RANGE answers, and answering it is all that is done. -/
theorem rangeExactlyWhereTheRuleSays : Obligations.RangeExactlyWhereTheRuleSays := by
  intro i s t hs h
  have hcause (hr : ∃ d, t.rspch = some ⟨7#4, d⟩) : s.OutOfRange i := by
    obtain ⟨u, d, ha⟩ := answers_of_code h hr
    exact ha.outOfRange hs rfl
  have hanswer (ho : s.OutOfRange i) : t = s.respond 7#4 0#32 :=
    Host.Outcome.next.inj (h.symm.trans (exec_of_outOfRange ho))
  rw [← s.outOfRange_iff i]
  exact ⟨⟨hcause, fun ho => ⟨0#32, congrArg State.rspch (hanswer ho)⟩⟩, fun hr => hanswer (hcause hr),
    fun hwf hr => (hcause hr).nodeRd_of_wellFormed hwf⟩

/-! ## The sticky session errors (R711) -/

section Clears
variable {p : Params} {i : Instr} {s u : State} {c : Code} {d : Word}

/-- The other commands that write DEC_ERR record an error in it (R131). -/
theorem AnswersWith.clears_decErr (h : AnswersWith p i s u c d) (he : s.decErr ≠ 0#4) (hu : u.decErr = 0#4) :
    i = .decStart ∨ i = .build := by
  cases h with
  | decStart => exact .inl rfl
  | build | buildEmpty => exact .inr rfl
  | decBitInvalid _ _ _ _ _ hok | decEndTruncated _ _ hok => exact absurd hok he
  | _ => exact absurd hu he

/-- The other command that writes ENC_ERR records an error in it (R135). -/
theorem AnswersWith.clears_encErr (h : AnswersWith p i s u c d) (he : s.encErr ≠ 0#4) (hu : u.encErr = 0#4) :
    i = .encStart ∨ i = .build := by
  rcases h.writes_encErr (hu ▸ he.symm) with ⟨hi, -⟩ | ⟨-, hu'⟩
  · exact hi.symm
  · exact absurd (hu.symm.trans hu') (by decide)

end Clears

/-- Settles O49: the sticky ways to answer; what clears an error among the commands; and of the host's moves only RESET
touches the core state (O12). -/
theorem stickyErrorsAnswerAgain : Obligations.StickyErrorsAnswerAgain := by
  intro s
  refine ⟨fun hv he => ⟨fun idx hidx => ?_, ?_⟩, fun hv he idx hidx => ?_, fun i t h => ?_, fun m hm => ?_⟩
  · exact exec_of_answers _ _ _ _ _ (.decBitSticky s idx _ hv (markerByte_of_lt idx (Nat.lt_succ_of_le hidx)) he)
  · exact exec_of_answers _ _ _ _ _ (.decEndSticky s hv he)
  · exact exec_of_answers _ _ _ _ _ (.encSymSticky s idx _ hv (dataSymbol_of_lt idx (Nat.lt_succ_of_le hidx)) he)
  · obtain ⟨u, c, d, ha, rfl⟩ := answers_of_exec i s t h
    exact ⟨ha.clears_decErr, ha.clears_encErr⟩
  · by_contra hreset
    have hframe := hostMovesLeaveTheCoreState.1 m s hreset
    have hdec := congrArg State.decErr hframe
    have henc := congrArg State.encErr hframe
    exact hm.elim (absurd hdec) (absurd henc)

/-! ## The order of the checks (R715) -/

/-- Settles O50: NOT_READY is answered whatever the operands are, and RANGE whatever the session's error is; DEC_END repeats
that error wherever CURSOR is. -/
theorem checksAreReportedInOrder : Obligations.ChecksAreReportedInOrder := by
  intro s idx arg
  refine ⟨fun hv _ => ?_, fun hv _ => ?_, fun hv _ => ?_, fun hv _ => ?_, fun hv _ hr => ?_, fun hv _ hr => ?_,
    fun hv he _ => ?_⟩
  · exact exec_of_lacks (.inl ⟨hv, trivial⟩)
  · exact exec_of_lacks (.inr ⟨hv, trivial⟩)
  · exact exec_of_lacks (.inl ⟨hv, trivial⟩)
  · exact exec_of_lacks (.inr ⟨hv, trivial⟩)
  · exact exec_of_outOfRange (i := .decBit idx) ⟨hv, hr⟩
  · exact exec_of_outOfRange (i := .encSym idx) ⟨hv, hr⟩
  · exact exec_of_answers _ _ _ _ _ (.decEndSticky s hv he)

end Sys2Proof.Machine

/-! PROOFS of the statements of reset: the state RESET gives, and the state right after reset (O11). -/

namespace Sys2Proof.Machine

/-! ## The reset values (R800) -/

@[simp] theorem State.reset_freq (y : Fin 256) : State.reset.freq[y] = 0#32 :=
  Vector.getElem_replicate y.isLt

/-- With no tree to be at the root of, STATUS has no field that is not 0 (R145). -/
@[simp] theorem State.reset_status : State.reset.status = 0#32 :=
  BitVec.eq_of_toNat_eq State.reset.status_toNat

/-- STATUS is a view of the core items alone (R145), and while RESET is asserted those are the reset state's. -/
@[simp] theorem State.afterReset_status (s : State) : s.afterReset.status = State.reset.status := rfl

/-- Settles O11: RESET gives every core item the value it has in `State.reset` (the `afterReset` laws), leaves CMDCH and
raises RESET, and its release writes RESET alone. Of the values, FREQ is read entry by entry and STATUS field by field. -/
theorem resetGivesTheResetValues : Obligations.ResetGivesTheResetValues := by
  refine ⟨fun s => ?asserted, ?afterReset⟩
  case asserted =>
    have hstatus : s.afterReset.status = 0#32 := s.afterReset_status.trans State.reset_status
    have hrelease : HostMove.apply .releaseReset s.afterReset = { s.afterReset with resetIn := false } := rfl
    exact ⟨State.reset_freq, rfl, rfl, rfl, rfl, rfl, rfl, rfl, rfl, s.afterReset_rspch, s.afterReset_resetIn,
      s.afterReset_cmdch, hstatus, hrelease⟩
  case afterReset => exact ⟨State.reset_freq, rfl, rfl, rfl, rfl, rfl, rfl, rfl, rfl, State.reset_status⟩

end Sys2Proof.Machine
